-- ==== Sys2Proof/Word.lean ====
section
/-! DEFINITION. The machine's two word types (R5: 8-bit data, 16-bit addresses). -/

namespace Sys2Proof

/-- A byte: a register, a flag image, one memory cell (R5, R60). -/
abbrev Byte := BitVec 8

/-- An address or the program counter (R5, R26, R60). -/
abbrev Word := BitVec 16

end Sys2Proof
end

