-- ==== Sys2Proof/Syntax.lean ====
section
/-! DEFINITION. The instructions as syntax: operand forms and the one inductive Instr (30_encoding.md).

Every opcode value of R117 is the head of exactly one family of terms of Instr. Where the matrix gives one instruction several
opcode values of one addressing mode (JAM, NOP, ANC), an index says which; SBC $EB is a constructor of its own. -/

namespace Sys2Proof

/-- The thirteen addressing modes of R102. -/
inductive Mode where
  | imp | acc | imm | zp | zpx | zpy | abs | abx | aby | ind | izx | izy | rel
  deriving DecidableEq, Repr

/-- Instruction length by addressing mode: formats F1, F2, F3 (R100, R102). -/
def Mode.length : Mode → Nat
  | .imp | .acc => 1
  | .imm | .zp | .zpx | .zpy | .izx | .izy | .rel => 2
  | .abs | .abx | .aby | .ind => 3

/-- An operand in memory: the eight modes with an effective address, with their operand bytes (R106 to R111, R113, R114). The
16-bit operand is `{b2, b1}` (R100). -/
inductive Mem where
  | zp  (b : Byte)
  | zpx (b : Byte)
  | zpy (b : Byte)
  | abs (w : Word)
  | abx (w : Word)
  | aby (w : Word)
  | izx (b : Byte)
  | izy (b : Byte)
  deriving DecidableEq, Repr

/-- The operand of a read instruction: the immediate byte, or a byte in memory (R105, R116). -/
inductive Src where
  | imm (b : Byte)
  | mem (m : Mem)
  deriving DecidableEq, Repr

/-- What a shift or rotate works on: the accumulator, or a byte in memory (R104, R190). -/
inductive Target where
  | acc
  | mem (m : Mem)
  deriving DecidableEq, Repr

/-- The instructions of the 6510: every opcode value of R117. -/
inductive Instr where
  -- 40_load_store_transfer.md
  | lda (o : Src) | ldx (o : Src) | ldy (o : Src)
  | sta (m : Mem) | stx (m : Mem) | sty (m : Mem)
  | tax | tay | txa | tya | tsx | txs
  -- 41_stack.md
  | pha | php | pla | plp
  -- 42_arithmetic_logic.md
  | adc (o : Src) | sbc (o : Src) | and (o : Src) | ora (o : Src) | eor (o : Src)
  | cmp (o : Src) | cpx (o : Src) | cpy (o : Src) | bit (m : Mem)
  -- 43_shift_incdec.md
  | asl (t : Target) | lsr (t : Target) | rol (t : Target) | ror (t : Target)
  | inc (m : Mem) | dec (m : Mem)
  | inx | iny | dex | dey
  -- 44_control_flow.md
  | jmp (target : Word) | jmpInd (pointer : Word) | jsr (target : Word) | rts | rti | brk
  | bpl (off : Byte) | bmi (off : Byte) | bvc (off : Byte) | bvs (off : Byte)
  | bcc (off : Byte) | bcs (off : Byte) | bne (off : Byte) | beq (off : Byte)
  -- 45_flags_nop.md; nop's index: 0 is $EA, 1 to 6 are R264's $1A, $3A, $5A, $7A, $DA, $FA
  | clc | sec | cli | sei | clv | cld | sed
  | nop (which : Fin 7)
  -- 46_undocumented.md
  | slo (m : Mem) | rla (m : Mem) | sre (m : Mem) | rra (m : Mem) | dcp (m : Mem) | isc (m : Mem)
  | sax (m : Mem) | lax (m : Mem)
  /-- 0 is $0B, 1 is $2B (R259). -/
  | anc (which : Fin 2) (b : Byte)
  | alr (b : Byte) | arr (b : Byte) | axs (b : Byte)
  | las (base : Word)
  /-- R265: $80, $82, $89, $C2, $E2. -/
  | nopImm (which : Fin 5) (b : Byte)
  /-- R266: the opcodes of the operand's mode in R266's order. -/
  | nopRead (which : Fin 6) (m : Mem)
  /-- The undocumented duplicate $EB of SBC immediate (R267). -/
  | usbc (b : Byte)
  | ane (b : Byte) | lxa (b : Byte)
  | sha (m : Mem) | shx (base : Word) | shy (base : Word) | tas (base : Word)
  /-- R275: $02, $12, $22, $32, $42, $52, $62, $72, $92, $B2, $D2, $F2. -/
  | jam (which : Fin 12)
  deriving DecidableEq, Repr

/-- The addressing mode of an operand in memory (R102). -/
def Mem.mode : Mem → Mode
  | .zp _ => .zp
  | .zpx _ => .zpx
  | .zpy _ => .zpy
  | .abs _ => .abs
  | .abx _ => .abx
  | .aby _ => .aby
  | .izx _ => .izx
  | .izy _ => .izy

/-- The addressing mode of a read instruction's operand (R102). -/
def Src.mode : Src → Mode
  | .imm _ => .imm
  | .mem m => m.mode

/-- The addressing mode of a shift's operand (R102). -/
def Target.mode : Target → Mode
  | .acc => .acc
  | .mem m => m.mode

/-- The addressing mode of an instruction (R102, R117). -/
def Instr.mode : Instr → Mode
  | .lda o | .ldx o | .ldy o | .adc o | .sbc o | .and o | .ora o | .eor o | .cmp o | .cpx o | .cpy o => o.mode
  | .sta m | .stx m | .sty m | .bit m | .inc m | .dec m | .slo m | .rla m | .sre m | .rra m | .dcp m | .isc m | .sax m
  | .lax m | .nopRead _ m | .sha m => m.mode
  | .asl t | .lsr t | .rol t | .ror t => t.mode
  | .anc _ _ | .alr _ | .arr _ | .axs _ | .nopImm _ _ | .usbc _ | .ane _ | .lxa _ => .imm
  | .bpl _ | .bmi _ | .bvc _ | .bvs _ | .bcc _ | .bcs _ | .bne _ | .beq _ => .rel
  | .jmp _ | .jsr _ => .abs
  | .jmpInd _ => .ind
  | .las _ | .shx _ | .tas _ => .aby
  | .shy _ => .abx
  | .tax | .tay | .txa | .tya | .tsx | .txs | .pha | .php | .pla | .plp | .inx | .iny | .dex | .dey | .rts | .rti | .brk
  | .clc | .sec | .cli | .sei | .clv | .cld | .sed | .nop _ | .jam _ => .imp

/-- The length of an instruction in bytes (R100, R122; BRK's is 1, R123). -/
def Instr.length (i : Instr) : Nat := i.mode.length

end Sys2Proof
end

