-- ==== Sys2Proof/WellFormed.lean ====
section
/-! DEFINITION. Which terms of Instr are instructions of the machine: each instruction with the addressing modes that the
"Encodings" line of its rule gives it. -/

namespace Sys2Proof

/-- The modes of the eight-form read instructions (R141, R171, R173, R175 to R178). -/
def Mode.accumulatorRead : List Mode := [.imm, .zp, .zpx, .abs, .abx, .aby, .izx, .izy]

/-- The modes of STA (R144). -/
def Mode.accumulatorWrite : List Mode := [.zp, .zpx, .abs, .abx, .aby, .izx, .izy]

/-- The memory modes of ASL, LSR, ROL, ROR, INC, DEC (R191 to R196). -/
def Mode.modify : List Mode := [.zp, .zpx, .abs, .abx]

/-- The seven modes of SLO, RLA, SRE, RRA, DCP, ISC (file 46, section 1). -/
def Mode.modifyUndocumented : List Mode := [.zp, .zpx, .abs, .abx, .aby, .izx, .izy]

/-- R266: how many opcodes the reading NOP has in each mode. -/
def Mode.nopReadCount : Mode → Nat
  | .zp => 3
  | .zpx | .abx => 6
  | .abs => 1
  | _ => 0

/-- The check: an instruction that the opcode matrix has (R117). -/
def Instr.wellFormed : Instr → Bool
  | .lda o | .adc o | .sbc o | .and o | .ora o | .eor o | .cmp o => o.mode ∈ Mode.accumulatorRead
  | .ldx o => o.mode ∈ [Mode.imm, .zp, .zpy, .abs, .aby]
  | .ldy o => o.mode ∈ [Mode.imm, .zp, .zpx, .abs, .abx]
  | .cpx o | .cpy o => o.mode ∈ [Mode.imm, .zp, .abs]
  | .sta m => m.mode ∈ Mode.accumulatorWrite
  | .stx m => m.mode ∈ [Mode.zp, .zpy, .abs]
  | .sty m => m.mode ∈ [Mode.zp, .zpx, .abs]
  | .bit m => m.mode ∈ [Mode.zp, .abs]
  | .asl t | .lsr t | .rol t | .ror t => t.mode ∈ Mode.acc :: Mode.modify
  | .inc m | .dec m => m.mode ∈ Mode.modify
  | .slo m | .rla m | .sre m | .rra m | .dcp m | .isc m => m.mode ∈ Mode.modifyUndocumented
  | .sax m => m.mode ∈ [Mode.zp, .zpy, .abs, .izx]
  | .lax m => m.mode ∈ [Mode.zp, .zpy, .abs, .aby, .izx, .izy]
  | .sha m => m.mode ∈ [Mode.aby, .izy]
  | .nopRead k m => k.val < m.mode.nopReadCount
  | .tax | .tay | .txa | .tya | .tsx | .txs | .pha | .php | .pla | .plp | .inx | .iny | .dex | .dey | .rts | .rti | .brk
  | .jmp _ | .jmpInd _ | .jsr _ | .bpl _ | .bmi _ | .bvc _ | .bvs _ | .bcc _ | .bcs _ | .bne _ | .beq _
  | .clc | .sec | .cli | .sei | .clv | .cld | .sed | .nop _ | .anc _ _ | .alr _ | .arr _ | .axs _ | .las _ | .nopImm _ _
  | .usbc _ | .ane _ | .lxa _ | .shx _ | .shy _ | .tas _ | .jam _ => true

/-- `Instr.wellFormed` as a proposition. -/
abbrev WellFormed (i : Instr) : Prop := i.wellFormed = true

end Sys2Proof
end

