-- ==== Sys2Proof/Decode.lean ====
section
/-! DEFINITION. From bytes to instructions and back (30_encoding.md). The decoder is R117's matrix, row by row; the encoder is
written from the "Encodings" lines of the instructions' own rules, so that the round trip compares two tables of the spec. -/

namespace Sys2Proof

/-- `hi(w) = w[15:8]` (R7). -/
def Word.hi (w : Word) : Byte := w.extractLsb' 8 8

/-- `lo(w) = w[7:0]` (R7). -/
def Word.lo (w : Word) : Byte := w.extractLsb' 0 8

/-- `{h, l}`: the 16-bit value with high byte `h` and low byte `l` (R7, R64). -/
def Word.ofBytes (h l : Byte) : Word := h ++ l

/-- One entry of the opcode matrix: the format of R100 and the instruction its operand makes. -/
inductive Entry where
  | f1 (i : Instr)
  | f2 (make : Byte → Instr)
  | f3 (make : Word → Instr)

/-- A read instruction's immediate form (R105). -/
def Entry.srcImm (f : Src → Instr) : Entry := .f2 fun b => f (.imm b)
/-- A read instruction's form with a one-byte operand. -/
def Entry.src (m : Byte → Mem) (f : Src → Instr) : Entry := .f2 fun b => f (.mem (m b))
/-- A read instruction's form with a two-byte operand. -/
def Entry.srcW (m : Word → Mem) (f : Src → Instr) : Entry := .f3 fun w => f (.mem (m w))
/-- A shift's form with a one-byte operand. -/
def Entry.tgt (m : Byte → Mem) (f : Target → Instr) : Entry := .f2 fun b => f (.mem (m b))
/-- A shift's form with a two-byte operand. -/
def Entry.tgtW (m : Word → Mem) (f : Target → Instr) : Entry := .f3 fun w => f (.mem (m w))
/-- A memory form with a one-byte operand. -/
def Entry.mem (m : Byte → Mem) (f : Mem → Instr) : Entry := .f2 fun b => f (m b)
/-- A memory form with a two-byte operand. -/
def Entry.memW (m : Word → Mem) (f : Mem → Instr) : Entry := .f3 fun w => f (m w)
/-- An instruction with an immediate form only. -/
def Entry.imm (f : Byte → Instr) : Entry := .f2 f
/-- A branch (R115). -/
def Entry.rel (f : Byte → Instr) : Entry := .f2 f

/-- Opcodes $00 to $0F (R117). -/
def Opcode.row0 : List Entry := [
  .f1 .brk, .src .izx .ora, .f1 (.jam 0), .mem .izx .slo,
  .mem .zp (.nopRead 0), .src .zp .ora, .tgt .zp .asl, .mem .zp .slo,
  .f1 .php, .srcImm .ora, .f1 (.asl .acc), .imm (.anc 0),
  .memW .abs (.nopRead 0), .srcW .abs .ora, .tgtW .abs .asl, .memW .abs .slo]

/-- Opcodes $10 to $1F (R117). -/
def Opcode.row1 : List Entry := [
  .rel .bpl, .src .izy .ora, .f1 (.jam 1), .mem .izy .slo,
  .mem .zpx (.nopRead 0), .src .zpx .ora, .tgt .zpx .asl, .mem .zpx .slo,
  .f1 .clc, .srcW .aby .ora, .f1 (.nop 1), .memW .aby .slo,
  .memW .abx (.nopRead 0), .srcW .abx .ora, .tgtW .abx .asl, .memW .abx .slo]

/-- Opcodes $20 to $2F (R117). -/
def Opcode.row2 : List Entry := [
  .f3 .jsr, .src .izx .and, .f1 (.jam 2), .mem .izx .rla,
  .mem .zp .bit, .src .zp .and, .tgt .zp .rol, .mem .zp .rla,
  .f1 .plp, .srcImm .and, .f1 (.rol .acc), .imm (.anc 1),
  .memW .abs .bit, .srcW .abs .and, .tgtW .abs .rol, .memW .abs .rla]

/-- Opcodes $30 to $3F (R117). -/
def Opcode.row3 : List Entry := [
  .rel .bmi, .src .izy .and, .f1 (.jam 3), .mem .izy .rla,
  .mem .zpx (.nopRead 1), .src .zpx .and, .tgt .zpx .rol, .mem .zpx .rla,
  .f1 .sec, .srcW .aby .and, .f1 (.nop 2), .memW .aby .rla,
  .memW .abx (.nopRead 1), .srcW .abx .and, .tgtW .abx .rol, .memW .abx .rla]

/-- Opcodes $40 to $4F (R117). -/
def Opcode.row4 : List Entry := [
  .f1 .rti, .src .izx .eor, .f1 (.jam 4), .mem .izx .sre,
  .mem .zp (.nopRead 1), .src .zp .eor, .tgt .zp .lsr, .mem .zp .sre,
  .f1 .pha, .srcImm .eor, .f1 (.lsr .acc), .imm .alr,
  .f3 .jmp, .srcW .abs .eor, .tgtW .abs .lsr, .memW .abs .sre]

/-- Opcodes $50 to $5F (R117). -/
def Opcode.row5 : List Entry := [
  .rel .bvc, .src .izy .eor, .f1 (.jam 5), .mem .izy .sre,
  .mem .zpx (.nopRead 2), .src .zpx .eor, .tgt .zpx .lsr, .mem .zpx .sre,
  .f1 .cli, .srcW .aby .eor, .f1 (.nop 3), .memW .aby .sre,
  .memW .abx (.nopRead 2), .srcW .abx .eor, .tgtW .abx .lsr, .memW .abx .sre]

/-- Opcodes $60 to $6F (R117). -/
def Opcode.row6 : List Entry := [
  .f1 .rts, .src .izx .adc, .f1 (.jam 6), .mem .izx .rra,
  .mem .zp (.nopRead 2), .src .zp .adc, .tgt .zp .ror, .mem .zp .rra,
  .f1 .pla, .srcImm .adc, .f1 (.ror .acc), .imm .arr,
  .f3 .jmpInd, .srcW .abs .adc, .tgtW .abs .ror, .memW .abs .rra]

/-- Opcodes $70 to $7F (R117). -/
def Opcode.row7 : List Entry := [
  .rel .bvs, .src .izy .adc, .f1 (.jam 7), .mem .izy .rra,
  .mem .zpx (.nopRead 3), .src .zpx .adc, .tgt .zpx .ror, .mem .zpx .rra,
  .f1 .sei, .srcW .aby .adc, .f1 (.nop 4), .memW .aby .rra,
  .memW .abx (.nopRead 3), .srcW .abx .adc, .tgtW .abx .ror, .memW .abx .rra]

/-- Opcodes $80 to $8F (R117). -/
def Opcode.row8 : List Entry := [
  .imm (.nopImm 0), .mem .izx .sta, .imm (.nopImm 1), .mem .izx .sax,
  .mem .zp .sty, .mem .zp .sta, .mem .zp .stx, .mem .zp .sax,
  .f1 .dey, .imm (.nopImm 2), .f1 .txa, .imm .ane,
  .memW .abs .sty, .memW .abs .sta, .memW .abs .stx, .memW .abs .sax]

/-- Opcodes $90 to $9F (R117). -/
def Opcode.row9 : List Entry := [
  .rel .bcc, .mem .izy .sta, .f1 (.jam 8), .mem .izy .sha,
  .mem .zpx .sty, .mem .zpx .sta, .mem .zpy .stx, .mem .zpy .sax,
  .f1 .tya, .memW .aby .sta, .f1 .txs, .f3 .tas,
  .f3 .shy, .memW .abx .sta, .f3 .shx, .memW .aby .sha]

/-- Opcodes $A0 to $AF (R117). -/
def Opcode.rowA : List Entry := [
  .srcImm .ldy, .src .izx .lda, .srcImm .ldx, .mem .izx .lax,
  .src .zp .ldy, .src .zp .lda, .src .zp .ldx, .mem .zp .lax,
  .f1 .tay, .srcImm .lda, .f1 .tax, .imm .lxa,
  .srcW .abs .ldy, .srcW .abs .lda, .srcW .abs .ldx, .memW .abs .lax]

/-- Opcodes $B0 to $BF (R117). -/
def Opcode.rowB : List Entry := [
  .rel .bcs, .src .izy .lda, .f1 (.jam 9), .mem .izy .lax,
  .src .zpx .ldy, .src .zpx .lda, .src .zpy .ldx, .mem .zpy .lax,
  .f1 .clv, .srcW .aby .lda, .f1 .tsx, .f3 .las,
  .srcW .abx .ldy, .srcW .abx .lda, .srcW .aby .ldx, .memW .aby .lax]

/-- Opcodes $C0 to $CF (R117). -/
def Opcode.rowC : List Entry := [
  .srcImm .cpy, .src .izx .cmp, .imm (.nopImm 3), .mem .izx .dcp,
  .src .zp .cpy, .src .zp .cmp, .mem .zp .dec, .mem .zp .dcp,
  .f1 .iny, .srcImm .cmp, .f1 .dex, .imm .axs,
  .srcW .abs .cpy, .srcW .abs .cmp, .memW .abs .dec, .memW .abs .dcp]

/-- Opcodes $D0 to $DF (R117). -/
def Opcode.rowD : List Entry := [
  .rel .bne, .src .izy .cmp, .f1 (.jam 10), .mem .izy .dcp,
  .mem .zpx (.nopRead 4), .src .zpx .cmp, .mem .zpx .dec, .mem .zpx .dcp,
  .f1 .cld, .srcW .aby .cmp, .f1 (.nop 5), .memW .aby .dcp,
  .memW .abx (.nopRead 4), .srcW .abx .cmp, .memW .abx .dec, .memW .abx .dcp]

/-- Opcodes $E0 to $EF (R117). -/
def Opcode.rowE : List Entry := [
  .srcImm .cpx, .src .izx .sbc, .imm (.nopImm 4), .mem .izx .isc,
  .src .zp .cpx, .src .zp .sbc, .mem .zp .inc, .mem .zp .isc,
  .f1 .inx, .srcImm .sbc, .f1 (.nop 0), .imm .usbc,
  .srcW .abs .cpx, .srcW .abs .sbc, .memW .abs .inc, .memW .abs .isc]

/-- Opcodes $F0 to $FF (R117). -/
def Opcode.rowF : List Entry := [
  .rel .beq, .src .izy .sbc, .f1 (.jam 11), .mem .izy .isc,
  .mem .zpx (.nopRead 5), .src .zpx .sbc, .mem .zpx .inc, .mem .zpx .isc,
  .f1 .sed, .srcW .aby .sbc, .f1 (.nop 6), .memW .aby .isc,
  .memW .abx (.nopRead 5), .srcW .abx .sbc, .memW .abx .inc, .memW .abx .isc]

/-- The complete map of the 256 opcode values (R117). -/
def Opcode.matrix : List Entry :=
  Opcode.row0 ++ Opcode.row1 ++ Opcode.row2 ++ Opcode.row3 ++ Opcode.row4 ++ Opcode.row5 ++ Opcode.row6 ++ Opcode.row7 ++
  Opcode.row8 ++ Opcode.row9 ++ Opcode.rowA ++ Opcode.rowB ++ Opcode.rowC ++ Opcode.rowD ++ Opcode.rowE ++ Opcode.rowF

/-- The matrix entry of an opcode byte (R101, R127). The matrix has 256 entries, so the default is never used. -/
def Opcode.entry (op : Byte) : Entry := Opcode.matrix.getD op.toNat (.f1 .brk)

/-- The decoder on the opcode byte and the two bytes after it; bytes past the instruction's length are ignored. -/
def Opcode.instr (op b1 b2 : Byte) : Instr :=
  match Opcode.entry op with
  | .f1 i => i
  | .f2 make => make b1
  | .f3 make => make (Word.ofBytes b2 b1)

/-- Why bytes give no instruction: every opcode value has a meaning (R119), so only a list that ends too early. -/
inductive DecodeError where
  | truncated
  deriving DecidableEq, Repr

/-- The decoder (R127): the first instruction of a list of bytes, lowest address first, and the bytes after it. -/
def decode (bytes : List Byte) : Except DecodeError (Instr × List Byte) :=
  match bytes with
  | [] => .error .truncated
  | op :: rest =>
    match Opcode.entry op, rest with
    | .f1 i, rest => .ok (i, rest)
    | .f2 make, b1 :: rest => .ok (make b1, rest)
    | .f3 make, b1 :: b2 :: rest => .ok (make (Word.ofBytes b2 b1), rest)
    | _, _ => .error .truncated

/-- `Length(opcode)` (R122). -/
def Opcode.length (op : Byte) : Nat :=
  match Opcode.entry op with
  | .f1 _ => 1
  | .f2 _ => 2
  | .f3 _ => 3

/-! ## The encoder -/

/-- The opcode values of one instruction's memory forms, none where the form does not exist. -/
structure MemCodes where
  zp  : Option Byte := none
  zpx : Option Byte := none
  zpy : Option Byte := none
  abs : Option Byte := none
  abx : Option Byte := none
  aby : Option Byte := none
  izx : Option Byte := none
  izy : Option Byte := none

/-- The opcode of one memory form. -/
def MemCodes.at (t : MemCodes) : Mem → Option Byte
  | .zp _ => t.zp
  | .zpx _ => t.zpx
  | .zpy _ => t.zpy
  | .abs _ => t.abs
  | .abx _ => t.abx
  | .aby _ => t.aby
  | .izx _ => t.izx
  | .izy _ => t.izy

/-- The opcode of a read instruction: its immediate form or a memory form. -/
def MemCodes.src (imm : Byte) (t : MemCodes) : Src → Option Byte
  | .imm _ => some imm
  | .mem m => t.at m

/-- The opcode of a shift: its accumulator form or a memory form. -/
def MemCodes.target (acc : Byte) (t : MemCodes) : Target → Option Byte
  | .acc => some acc
  | .mem m => t.at m

/-- The opcode value that each instruction's own rule gives it ("Encodings"), none for a form it does not have. -/
def Instr.opcode : Instr → Option Byte
  -- R141 to R152
  | .lda o => MemCodes.src 0xA9
      { zp := some 0xA5, zpx := some 0xB5, abs := some 0xAD, abx := some 0xBD, aby := some 0xB9, izx := some 0xA1, izy := some 0xB1 } o
  | .ldx o => MemCodes.src 0xA2 { zp := some 0xA6, zpy := some 0xB6, abs := some 0xAE, aby := some 0xBE } o
  | .ldy o => MemCodes.src 0xA0 { zp := some 0xA4, zpx := some 0xB4, abs := some 0xAC, abx := some 0xBC } o
  | .sta m => MemCodes.at
      { zp := some 0x85, zpx := some 0x95, abs := some 0x8D, abx := some 0x9D, aby := some 0x99, izx := some 0x81, izy := some 0x91 } m
  | .stx m => MemCodes.at { zp := some 0x86, zpy := some 0x96, abs := some 0x8E } m
  | .sty m => MemCodes.at { zp := some 0x84, zpx := some 0x94, abs := some 0x8C } m
  | .tax => some 0xAA
  | .tay => some 0xA8
  | .txa => some 0x8A
  | .tya => some 0x98
  | .tsx => some 0xBA
  | .txs => some 0x9A
  -- R161 to R164
  | .pha => some 0x48
  | .php => some 0x08
  | .pla => some 0x68
  | .plp => some 0x28
  -- R171 to R181
  | .adc o => MemCodes.src 0x69
      { zp := some 0x65, zpx := some 0x75, abs := some 0x6D, abx := some 0x7D, aby := some 0x79, izx := some 0x61, izy := some 0x71 } o
  | .sbc o => MemCodes.src 0xE9
      { zp := some 0xE5, zpx := some 0xF5, abs := some 0xED, abx := some 0xFD, aby := some 0xF9, izx := some 0xE1, izy := some 0xF1 } o
  | .and o => MemCodes.src 0x29
      { zp := some 0x25, zpx := some 0x35, abs := some 0x2D, abx := some 0x3D, aby := some 0x39, izx := some 0x21, izy := some 0x31 } o
  | .ora o => MemCodes.src 0x09
      { zp := some 0x05, zpx := some 0x15, abs := some 0x0D, abx := some 0x1D, aby := some 0x19, izx := some 0x01, izy := some 0x11 } o
  | .eor o => MemCodes.src 0x49
      { zp := some 0x45, zpx := some 0x55, abs := some 0x4D, abx := some 0x5D, aby := some 0x59, izx := some 0x41, izy := some 0x51 } o
  | .cmp o => MemCodes.src 0xC9
      { zp := some 0xC5, zpx := some 0xD5, abs := some 0xCD, abx := some 0xDD, aby := some 0xD9, izx := some 0xC1, izy := some 0xD1 } o
  | .cpx o => MemCodes.src 0xE0 { zp := some 0xE4, abs := some 0xEC } o
  | .cpy o => MemCodes.src 0xC0 { zp := some 0xC4, abs := some 0xCC } o
  | .bit m => MemCodes.at { zp := some 0x24, abs := some 0x2C } m
  -- R191 to R200
  | .asl t => MemCodes.target 0x0A { zp := some 0x06, zpx := some 0x16, abs := some 0x0E, abx := some 0x1E } t
  | .lsr t => MemCodes.target 0x4A { zp := some 0x46, zpx := some 0x56, abs := some 0x4E, abx := some 0x5E } t
  | .rol t => MemCodes.target 0x2A { zp := some 0x26, zpx := some 0x36, abs := some 0x2E, abx := some 0x3E } t
  | .ror t => MemCodes.target 0x6A { zp := some 0x66, zpx := some 0x76, abs := some 0x6E, abx := some 0x7E } t
  | .inc m => MemCodes.at { zp := some 0xE6, zpx := some 0xF6, abs := some 0xEE, abx := some 0xFE } m
  | .dec m => MemCodes.at { zp := some 0xC6, zpx := some 0xD6, abs := some 0xCE, abx := some 0xDE } m
  | .inx => some 0xE8
  | .iny => some 0xC8
  | .dex => some 0xCA
  | .dey => some 0x88
  -- R210 to R224
  | .jmp _ => some 0x4C
  | .jmpInd _ => some 0x6C
  | .jsr _ => some 0x20
  | .rts => some 0x60
  | .rti => some 0x40
  | .brk => some 0x00
  | .bpl _ => some 0x10
  | .bmi _ => some 0x30
  | .bvc _ => some 0x50
  | .bvs _ => some 0x70
  | .bcc _ => some 0x90
  | .bcs _ => some 0xB0
  | .bne _ => some 0xD0
  | .beq _ => some 0xF0
  -- R240 to R247, R264
  | .clc => some 0x18
  | .sec => some 0x38
  | .cli => some 0x58
  | .sei => some 0x78
  | .clv => some 0xB8
  | .cld => some 0xD8
  | .sed => some 0xF8
  | .nop k => [0xEA, 0x1A, 0x3A, 0x5A, 0x7A, 0xDA, 0xFA][k.val]?
  -- R251 to R263
  | .slo m => MemCodes.at
      { zp := some 0x07, zpx := some 0x17, abs := some 0x0F, abx := some 0x1F, aby := some 0x1B, izx := some 0x03, izy := some 0x13 } m
  | .rla m => MemCodes.at
      { zp := some 0x27, zpx := some 0x37, abs := some 0x2F, abx := some 0x3F, aby := some 0x3B, izx := some 0x23, izy := some 0x33 } m
  | .sre m => MemCodes.at
      { zp := some 0x47, zpx := some 0x57, abs := some 0x4F, abx := some 0x5F, aby := some 0x5B, izx := some 0x43, izy := some 0x53 } m
  | .rra m => MemCodes.at
      { zp := some 0x67, zpx := some 0x77, abs := some 0x6F, abx := some 0x7F, aby := some 0x7B, izx := some 0x63, izy := some 0x73 } m
  | .dcp m => MemCodes.at
      { zp := some 0xC7, zpx := some 0xD7, abs := some 0xCF, abx := some 0xDF, aby := some 0xDB, izx := some 0xC3, izy := some 0xD3 } m
  | .isc m => MemCodes.at
      { zp := some 0xE7, zpx := some 0xF7, abs := some 0xEF, abx := some 0xFF, aby := some 0xFB, izx := some 0xE3, izy := some 0xF3 } m
  | .sax m => MemCodes.at { zp := some 0x87, zpy := some 0x97, abs := some 0x8F, izx := some 0x83 } m
  | .lax m => MemCodes.at
      { zp := some 0xA7, zpy := some 0xB7, abs := some 0xAF, aby := some 0xBF, izx := some 0xA3, izy := some 0xB3 } m
  | .anc k _ => [0x0B, 0x2B][k.val]?
  | .alr _ => some 0x4B
  | .arr _ => some 0x6B
  | .axs _ => some 0xCB
  | .las _ => some 0xBB
  -- R265 to R275
  | .nopImm k _ => [0x80, 0x82, 0x89, 0xC2, 0xE2][k.val]?
  | .nopRead k m =>
    match m with
    | .zp _ => [0x04, 0x44, 0x64][k.val]?
    | .zpx _ => [0x14, 0x34, 0x54, 0x74, 0xD4, 0xF4][k.val]?
    | .abs _ => [0x0C][k.val]?
    | .abx _ => [0x1C, 0x3C, 0x5C, 0x7C, 0xDC, 0xFC][k.val]?
    | .zpy _ | .aby _ | .izx _ | .izy _ => none
  | .usbc _ => some 0xEB
  | .ane _ => some 0x8B
  | .lxa _ => some 0xAB
  | .sha m => MemCodes.at { aby := some 0x9F, izy := some 0x93 } m
  | .shx _ => some 0x9E
  | .shy _ => some 0x9C
  | .tas _ => some 0x9B
  | .jam k => [0x02, 0x12, 0x22, 0x32, 0x42, 0x52, 0x62, 0x72, 0x92, 0xB2, 0xD2, 0xF2][k.val]?

/-- A 16-bit operand as it stands after the opcode: `b1` the low byte, `b2` the high byte (R100). -/
def Word.bytes (w : Word) : List Byte := [w.lo, w.hi]

/-- The operand bytes of a memory form. -/
def Mem.bytes : Mem → List Byte
  | .zp b | .zpx b | .zpy b | .izx b | .izy b => [b]
  | .abs w | .abx w | .aby w => w.bytes

/-- The operand bytes of a read instruction. -/
def Src.bytes : Src → List Byte
  | .imm b => [b]
  | .mem m => m.bytes

/-- The operand bytes of a shift. -/
def Target.bytes : Target → List Byte
  | .acc => []
  | .mem m => m.bytes

/-- The bytes after the opcode, lowest address first (R100). -/
def Instr.operandBytes : Instr → List Byte
  | .lda o | .ldx o | .ldy o | .adc o | .sbc o | .and o | .ora o | .eor o | .cmp o | .cpx o | .cpy o => o.bytes
  | .sta m | .stx m | .sty m | .bit m | .inc m | .dec m | .slo m | .rla m | .sre m | .rra m | .dcp m | .isc m | .sax m
  | .lax m | .nopRead _ m | .sha m => m.bytes
  | .asl t | .lsr t | .rol t | .ror t => t.bytes
  | .anc _ b | .alr b | .arr b | .axs b | .nopImm _ b | .usbc b | .ane b | .lxa b => [b]
  | .bpl b | .bmi b | .bvc b | .bvs b | .bcc b | .bcs b | .bne b | .beq b => [b]
  | .jmp w | .jsr w | .jmpInd w | .las w | .shx w | .shy w | .tas w => w.bytes
  | .tax | .tay | .txa | .tya | .tsx | .txs | .pha | .php | .pla | .plp | .inx | .iny | .dex | .dey | .rts | .rti | .brk
  | .clc | .sec | .cli | .sei | .clv | .cld | .sed | .nop _ | .jam _ => []

/-- The encoder: the bytes of a well-formed instruction, lowest address first; a form the matrix does not have gives none. -/
def encode (i : Instr) : List Byte :=
  match i.opcode with
  | some op => op :: i.operandBytes
  | none => []

/-- The instruction the decoder reads from one whose bits are `w`, numbered with the first byte lowest; bits from `nbits` on
are 0 (three bytes, the longest instruction, R100). -/
def decodeTableWord (nbits w : Nat) : Option Instr :=
  let v := w % 2 ^ nbits
  match decode [BitVec.ofNat 8 v, BitVec.ofNat 8 (v / 256), BitVec.ofNat 8 (v / 65536)] with
  | .ok (i, _) => some i
  | .error _ => none

end Sys2Proof
end

