-- ==== Sys2Proof/Config.lean ====
section
/-! DEFINITION. What an implementation fixes: the open parameters of R5 (92_eei_decisions.md, "Open parameters"). -/

namespace Sys2Proof

/-- SH_PAGECROSS_MODE (R274, D13). -/
inductive ShPageCross where
  | andHigh | plain
  deriving DecidableEq, Repr

/-- IRQ_SAMPLE_POINT (R340, D14): how many cycles before the poll the level of the IRQ line counts. -/
inductive IrqSample where
  | two | one
  deriving DecidableEq, Repr

/-- The parameters that the CPU's step takes as arguments (R5). State holds them, no instruction writes them, and a statement
about every state holds for every value of them (DESIGN CHOICE, log 8). -/
structure Params where
  /-- ANE_CONST (R268, D12). -/
  aneConst     : Byte
  /-- LXA_CONST (R269, D12). -/
  lxaConst     : Byte
  shPageCross  : ShPageCross
  irqSample    : IrqSample
  /-- PORT_EXTERNAL (R5, D7): the levels of the port bits 0, 1, 2, 4, 5 when they are inputs; bits 3, 6, 7 float (R49). -/
  portExternal : Byte
  /-- PORT_DECAY_CYCLES (R49, D8). -/
  portDecay    : Nat
  deriving DecidableEq, Repr

/-- The defaults and conventional choices of R5 (DESIGN CHOICE, log 8; no statement rests on them). -/
def Params.default : Params :=
  { aneConst := 0xEE, lxaConst := 0xEE, shPageCross := .andHigh, irqSample := .two,
    portExternal := 0x17, portDecay := 350000 }

/-- The open power-on values of D5 (RESET_A, RESET_X, RESET_Y, RESET_SP, RESET_P_OTHER) as this model names them
(DESIGN CHOICE, log 7; unsafe). -/
def Config.resetA : Byte := 0x00
@[inherit_doc Config.resetA] def Config.resetX : Byte := 0x00
@[inherit_doc Config.resetA] def Config.resetY : Byte := 0x00
@[inherit_doc Config.resetA] def Config.resetSP : Byte := 0xFD
/-- RESET_P_OTHER: the five flags N, V, D, Z, C after power-on (DESIGN CHOICE, log 7; unsafe). -/
def Config.resetOtherFlags : Bool := false

/-- What an address that memory does not list reads as: the initial memory of D27 (DESIGN CHOICE, log 4; unsafe). -/
def Config.unlisted : Byte := 0x00

/-- What a device gives when its answers have run out, and what an address gives where nothing answers (R82: "platform-defined",
U8: any value): a free value for every cycle of the master clock and address (log 26). -/
opaque Config.openBus : Nat → Word → Byte

end Sys2Proof
end

