-- ==== Sys2Proof/Machine/State.lean ====
section
/-! DEFINITION. The state of the machine as plain data (10_state.md), the outcomes of a step, and the state after reset. -/

namespace Sys2Proof.Machine

/-- The six stored flags of P (R27); bits 5 and 4 are not stored (R32, R33). -/
structure Flags where
  n : Bool
  v : Bool
  d : Bool
  i : Bool
  z : Bool
  c : Bool
  deriving DecidableEq, Repr

/-- When a floating port bit loses its charge (R49): never while driven to 1, already, or at a cycle of the master clock. -/
inductive Discharge where
  | never
  | already
  | due (cycle : Nat)
  deriving DecidableEq, Repr

/-- The on-chip port (R44, R45) and its three floating bits (R49). -/
structure Port where
  /-- PDDR at $0000 (R44). -/
  ddr    : Byte
  /-- PDATA at $0001 (R45). -/
  data   : Byte
  float3 : Discharge
  float6 : Discharge
  float7 : Discharge
  deriving DecidableEq, Repr

/-- The internal latches of the cycle tables (R42). -/
structure Latches where
  ad        : Word
  dl        : Byte
  ptr       : Byte
  pageCross : Bool
  deriving DecidableEq, Repr

/-- The levels of the input lines in one master clock cycle (R43); `rdy` is 1 for ready, the others 1 for asserted. -/
structure Lines where
  rdy   : Bool
  irq   : Bool
  nmi   : Bool
  reset : Bool
  deriving DecidableEq, Repr

/-- Every line at rest: ready, nothing asserted. -/
def Lines.rest : Lines := { rdy := true, irq := false, nmi := false, reset := false }

/-- `irqHist` (R53): the level of the IRQ line in the current cycle and in the two before it. -/
structure IrqHist where
  h0 : Bool
  h1 : Bool
  h2 : Bool
  deriving DecidableEq, Repr

/-- The master clock, the input lines and the interrupt flip-flops: everything that moves once per master clock cycle. -/
structure Signals where
  /-- The master clock (R50). -/
  clock       : Nat
  /-- The levels of the last cycle (R20). -/
  lines       : Lines
  /-- The levels of the coming cycles, oldest first; past its end every line is at rest (DESIGN CHOICE, log 2). -/
  inputs      : List Lines
  irqHist     : IrqHist
  /-- R38. -/
  nmiPrev     : Bool
  /-- R38. -/
  nmiPending  : Bool
  /-- R39. -/
  irqPending  : Bool
  /-- R39. -/
  intDecision : Bool
  deriving DecidableEq, Repr

/-- One performed bus cycle (R290): the step counter, the master clock, the access and its byte. -/
structure BusCycle where
  t     : Nat
  clock : Nat
  write : Bool
  addr  : Word
  data  : Byte
  deriving DecidableEq, Repr

/-- Memory: (address, byte) pairs in canonical form (`Memory.wf` in Machine/Ops.lean). -/
abbrev Memory := List Host.Cell

/-- What answers at the addresses of a window of the platform's map: a ROM with its bytes; or a device, which gives its bytes from
`Platform.answers`. -/
inductive Responder where
  | rom (bytes : Memory)
  | device
  deriving DecidableEq, Repr

/-- A window of the platform's map: the addresses from `first` to `last`, in the configurations of the banking levels that
`banks` marks: its bit `4 * CHAREN + 2 * HIRAM + LORAM` (R48, R78). -/
structure Window where
  first     : Word
  last      : Word
  banks     : BitVec 8
  responder : Responder
  deriving DecidableEq, Repr

/-- The platform's map as the CPU's bus sees it: the argument of R61, "an oracle that answers reads and accepts writes, with its own
state". What no window covers is RAM (`State.mem`); of two windows at one address the first answers. A device's own state shows
only in the bytes it gives, so the device is given by those bytes: `answers`, one for each read of a device, in order (R66);
when they have run out, a read gives `Config.openBus` (log 26). -/
structure Platform where
  windows : List Window
  answers : List Byte
  deriving DecidableEq, Repr

/-- The machine (R20), the memory behind its bus (R61), its parameters (R5) and the record of the last step's bus cycles (R9). -/
structure State where
  /-- R21. -/
  a      : Byte
  /-- R22. -/
  x      : Byte
  /-- R23. -/
  y      : Byte
  /-- R24. -/
  sp     : Byte
  /-- R26. -/
  pc     : Word
  /-- R27. -/
  p      : Flags
  /-- R36. -/
  ir     : Byte
  /-- R37. -/
  t      : Nat
  /-- R41. -/
  jam    : Bool
  latch  : Latches
  port   : Port
  mem    : Memory
  sig    : Signals
  platform : Platform
  trace  : List BusCycle
  params : Params
  deriving DecidableEq, Repr

/-- Why the machine stops with a fault: never. "There are no synchronous exceptions in the sense of faults" (R331); the jam
state is a state (R354). Nothing raises a fault; safe. -/
inductive Fault where
  deriving DecidableEq, Repr

/-- Why an instruction has no meaning. -/
inductive Refusal where
  /-- An instruction whose meaning is not written yet: raised by exec's arm for it, by name. No arm does; safe. -/
  | notModelled (mnemonic : String)
  deriving DecidableEq, Repr

/-- What a run of bus cycles gives: a value and the state after them; or RESET was asserted, and the state at the end of the
last cycle that was performed (R380: "the instruction is abandoned"). -/
inductive BusRun (α : Type) where
  | done (v : α) (s : State)
  | reset (s : State)
  deriving DecidableEq, Repr

/-- The state right after power-on and its reset sequence (R51, R381, D6), the lines at rest. `A`, `X`, `Y`, `SP` and the five
other flags are this model's choice (log 7), as are the dead latches and `IR` (log 11), the clock (log 9) and the parameters'
values (log 8). `PC` is the word at $FFFC in a memory that lists nothing (log 4; `reset_pc_is_the_vector` in Laws/State.lean). -/
def State.reset : State where
  a := Config.resetA
  x := Config.resetX
  y := Config.resetY
  sp := Config.resetSP
  pc := Config.unlisted ++ Config.unlisted
  p := { n := Config.resetOtherFlags, v := Config.resetOtherFlags, d := Config.resetOtherFlags, i := true,
         z := Config.resetOtherFlags, c := Config.resetOtherFlags }
  ir := 0x00
  t := 0
  jam := false
  latch := { ad := 0, dl := 0, ptr := 0, pageCross := false }
  port := { ddr := 0x00, data := 0x00, float3 := .already, float6 := .already, float7 := .already }
  mem := []
  sig := { clock := 0, lines := .rest, inputs := [], irqHist := { h0 := false, h1 := false, h2 := false },
           nmiPrev := false, nmiPending := false, irqPending := false, intDecision := false }
  platform := { windows := [], answers := [] }
  trace := []
  params := .default

end Sys2Proof.Machine
end

