-- ==== Sys2Proof/Machine/Flags.lean ====
section
/-! DEFINITION. The ALU on values: the pushed image of P and its inverse (R35), and every flag computation of files 42, 43 and
46. Operands are taken as integers, computed exactly and narrowed at the end. A flag counts as the number 0 or 1 (R7), `Bool.toNat`. -/

namespace Sys2Proof.Machine

/-- `Pimage(b)` (R35): N, V, 1, B, D, I, Z, C, bit 7 first. -/
def Flags.image (f : Flags) (b : Bool) : Byte :=
  BitVec.ofBool f.n ++ BitVec.ofBool f.v ++ 1#1 ++ BitVec.ofBool b ++ BitVec.ofBool f.d ++ BitVec.ofBool f.i ++
    BitVec.ofBool f.z ++ BitVec.ofBool f.c

/-- Loading P from a pulled byte (R35): bits 5 and 4 are ignored. -/
def Flags.ofByte (v : Byte) : Flags :=
  { n := v.getLsbD 7, v := v.getLsbD 6, d := v.getLsbD 3, i := v.getLsbD 2, z := v.getLsbD 1, c := v.getLsbD 0 }

/-- `SetNZ(v)` (R8). -/
def Flags.setNZ (f : Flags) (v : Byte) : Flags := { f with n := v.getLsbD 7, z := v == 0 }

/-- What an addition or subtraction gives: the byte and the four flags it writes. -/
structure AluOut where
  val : Byte
  n   : Bool
  v   : Bool
  z   : Bool
  c   : Bool
  deriving DecidableEq, Repr

/-- Writing the four flags of an addition or subtraction; D and I stay. -/
def Flags.setNVZC (f : Flags) (r : AluOut) : Flags := { f with n := r.n, v := r.v, z := r.z, c := r.c }

/-- Signed overflow of an addition (R171): operands of equal sign, result of the other sign. -/
def addOverflow (a m r : Byte) : Bool := (~~~(a ^^^ m) &&& (a ^^^ r) &&& 0x80) != 0

/-- Signed overflow of a subtraction (R173): operands of different sign, result sign differs from A. -/
def subOverflow (a m r : Byte) : Bool := ((a ^^^ m) &&& (a ^^^ r) &&& 0x80) != 0

/-- `AddBinary(m)` (R171). -/
def addBinary (a m : Byte) (c : Bool) : AluOut :=
  let t := a.toNat + m.toNat + c.toNat
  let r := BitVec.ofNat 8 t
  { val := r, n := r.getLsbD 7, v := addOverflow a m r, z := r == 0, c := decide (t > 0xFF) }

/-- The low digit of a decimal addition, corrected (R172: `al`). -/
def decimalAddLow (a m : Byte) (c : Bool) : Nat :=
  let al := a.toNat % 16 + m.toNat % 16 + c.toNat
  if al ≥ 0x0A then (al + 0x06) % 16 + 0x10 else al

/-- A byte's high digit in place: `v & $F0`. -/
def highDigit (v : Byte) : Nat := v.toNat / 16 * 16

/-- `AddDecimal(m)` (R172): Z from the binary sum, N and V from the sum before the high digit's correction. -/
def addDecimal (a m : Byte) (c : Bool) : AluOut :=
  let bin := (a.toNat + m.toNat + c.toNat) % 256
  let t := highDigit a + highDigit m + decimalAddLow a m c
  let u := if t ≥ 0xA0 then t + 0x60 else t
  { val := BitVec.ofNat 8 u
    n := t.testBit 7
    v := addOverflow a m (BitVec.ofNat 8 t)
    z := bin == 0
    c := decide (u ≥ 0x100) }

/-- ADC's arithmetic (R171): binary, or decimal when D is 1. -/
def adcAlu (d : Bool) (a m : Byte) (c : Bool) : AluOut := if d then addDecimal a m c else addBinary a m c

/-- The exact difference `A - m - (1 - C)` (R173: `t`). -/
def difference (a m : Byte) (c : Bool) : Int := (a.toNat : Int) - m.toNat - (1 - c.toNat)

/-- `SubBinary(m)` (R173). -/
def subBinary (a m : Byte) (c : Bool) : AluOut :=
  let t := difference a m c
  let r := BitVec.ofInt 8 t
  { val := r, n := r.getLsbD 7, v := subOverflow a m r, z := r == 0, c := decide (t ≥ 0) }

/-- The low digit of a decimal subtraction, corrected (R174: `al`). -/
def decimalSubLow (a m : Byte) (c : Bool) : Int :=
  let al : Int := ((a.toNat % 16 : Nat) : Int) - (m.toNat % 16 : Nat) + c.toNat - 1
  if al < 0 then (al - 0x06) % 16 - 0x10 else al

/-- `SubDecimal(m)` (R174): the flags of the binary subtraction, the value decimal-corrected. -/
def subDecimal (a m : Byte) (c : Bool) : AluOut :=
  let r : Int := (highDigit a : Int) - highDigit m + decimalSubLow a m c
  let r := if r < 0 then r - 0x60 else r
  { subBinary a m c with val := BitVec.ofInt 8 r }

/-- SBC's arithmetic (R173): binary, or decimal when D is 1. -/
def sbcAlu (d : Bool) (a m : Byte) (c : Bool) : AluOut := if d then subDecimal a m c else subBinary a m c

/-- `Compare(r, m)` (R182). V is not written and D is not read. -/
def Flags.compare (f : Flags) (r m : Byte) : Flags :=
  { f with c := decide (r.toNat ≥ m.toNat), z := r == m, n := (r - m).getLsbD 7 }

/-- BIT (R181): Z from `A & operand`, N and V from the operand alone. -/
def Flags.bitTest (f : Flags) (a m : Byte) : Flags :=
  { f with z := (a &&& m) == 0, n := m.getLsbD 7, v := m.getLsbD 6 }

/-- `Asl(v)` (R190): the shifted byte and the flags. -/
def aslAlu (f : Flags) (v : Byte) : Byte × Flags :=
  let r := v <<< 1
  (r, { f with c := v.getLsbD 7 }.setNZ r)

/-- `Lsr(v)` (R190). -/
def lsrAlu (f : Flags) (v : Byte) : Byte × Flags :=
  let r := v >>> 1
  (r, { f with c := v.getLsbD 0 }.setNZ r)

/-- `Rol(v)` (R190). -/
def rolAlu (f : Flags) (v : Byte) : Byte × Flags :=
  let r := (v <<< 1) ||| BitVec.ofNat 8 f.c.toNat
  (r, { f with c := v.getLsbD 7 }.setNZ r)

/-- `Ror(v)` (R190). -/
def rorAlu (f : Flags) (v : Byte) : Byte × Flags :=
  let r := (v >>> 1) ||| (BitVec.ofNat 8 f.c.toNat <<< 7)
  (r, { f with c := v.getLsbD 0 }.setNZ r)

/-- INC's function (R195). -/
def incAlu (f : Flags) (v : Byte) : Byte × Flags := (v + 1, f.setNZ (v + 1))

/-- DEC's function (R196). -/
def decAlu (f : Flags) (v : Byte) : Byte × Flags := (v - 1, f.setNZ (v - 1))

/-- The decrement inside DCP, which sets no flags (R257). -/
def decQuiet (f : Flags) (v : Byte) : Byte × Flags := (v - 1, f)

/-- The increment inside ISC, which sets no flags (R258). -/
def incQuiet (f : Flags) (v : Byte) : Byte × Flags := (v + 1, f)

/-- ARR with D = 0 (R261): C is bit 6 of the result, V is bit 6 xor bit 5. -/
def arrBinary (f : Flags) (t : Byte) : Byte × Flags :=
  let r := (t >>> 1) ||| (BitVec.ofNat 8 f.c.toNat <<< 7)
  (r, { f.setNZ r with c := r.getLsbD 6, v := r.getLsbD 6 ^^ r.getLsbD 5 })

/-- ARR with D = 1 (R261): N, Z, V before the two digit corrections, C from the high digit's. -/
def arrDecimal (f : Flags) (t : Byte) : Byte × Flags :=
  let r := (t >>> 1) ||| (BitVec.ofNat 8 f.c.toNat <<< 7)
  let low := t.toNat % 16 + t.toNat % 2 > 5
  let high := highDigit t + (t &&& 0x10).toNat > 0x50
  let r1 := if low then (r &&& 0xF0) ||| ((r + 6) &&& 0x0F) else r
  let r2 := if high then (r1 &&& 0x0F) ||| ((r1 + 0x60) &&& 0xF0) else r1
  (r2, { f with n := f.c, z := r == 0, v := t.getLsbD 6 ^^ r.getLsbD 6, c := decide high })

/-- ARR's rotation and flags on `t = A & b1` (R261). -/
def arrAlu (f : Flags) (t : Byte) : Byte × Flags := if f.d then arrDecimal f t else arrBinary f t

end Sys2Proof.Machine
end

