-- ==== Sys2Proof/Machine/Ops.lean ====
section
/-! DEFINITION. The named operations that every meaning is made of: memory, the port, the bus cycle with everything that
happens in it, the stack, taking an interrupt or BRK, returning from one, and reset. -/

namespace Sys2Proof.Machine

/-! ## Setting one register -/

/-- `A <- v` (R21). -/
def State.setA (s : State) (v : Byte) : State := { s with a := v }
/-- `X <- v` (R22). -/
def State.setX (s : State) (v : Byte) : State := { s with x := v }
/-- `Y <- v` (R23). -/
def State.setY (s : State) (v : Byte) : State := { s with y := v }
/-- `SP <- v` (R24). -/
def State.setSP (s : State) (v : Byte) : State := { s with sp := v }
/-- `PC <- v` (R26). -/
def State.setPC (s : State) (v : Word) : State := { s with pc := v }
/-- `P <- v` (R27). -/
def State.setP (s : State) (v : Flags) : State := { s with p := v }
/-- `IR <- v` (R36). -/
def State.setIR (s : State) (v : Byte) : State := { s with ir := v }
/-- `T <- v` (R37). -/
def State.setT (s : State) (v : Nat) : State := { s with t := v }
/-- `jam <- v` (R41). -/
def State.setJam (s : State) (v : Bool) : State := { s with jam := v }
/-- The clock, the lines and the interrupt flip-flops all at once (R38, R39). -/
def State.setSig (s : State) (v : Signals) : State := { s with sig := v }
/-- `DL <- v` (R42). -/
def State.setDL (s : State) (v : Byte) : State := { s with latch := { s.latch with dl := v } }
/-- The platform's map and what it will answer. -/
def State.setPlatform (s : State) (v : Platform) : State := { s with platform := v }
/-- `nmiPending <- 0` (R38). -/
def State.clearNmi (s : State) : State := s.setSig { s.sig with nmiPending := false }

/-! ## Memory (R60, R61) -/

/-- What an address reads as (R60): its listed byte, else `Config.unlisted`. -/
def Memory.read : Memory → Nat → Byte
  | [], _ => Config.unlisted
  | (k, v) :: rest, a => if k = a then v else Memory.read rest a

/-- Storing a byte; the canonical form is kept, so a byte equal to what an unlisted address reads as is taken off the list. -/
def Memory.write : Memory → Nat → Byte → Memory
  | [], a, b => if b = Config.unlisted then [] else [(a, b)]
  | (k, v) :: rest, a, b =>
    if a < k then (if b = Config.unlisted then (k, v) :: rest else (a, b) :: (k, v) :: rest)
    else if a = k then (if b = Config.unlisted then rest else (a, b) :: rest)
    else (k, v) :: Memory.write rest a b

/-- Every listed address is at least `low`, they rise strictly, and each holds a byte that needs listing. -/
def Memory.canonicalFrom : Nat → Memory → Bool
  | _, [] => true
  | low, (k, v) :: rest =>
    decide (low ≤ k) && decide (k < 65536) && decide (v ≠ Config.unlisted) && Memory.canonicalFrom (k + 1) rest

/-- The canonical form: addresses of the 16-bit space strictly rising, no entry equal to what an unlisted address reads as. -/
def Memory.wf (m : Memory) : Bool := Memory.canonicalFrom 0 m

/-- The canonical form of a memory that lists neither of the port's addresses $0000 and $0001 (R61, R62). -/
def Memory.offPort (m : Memory) : Bool := Memory.canonicalFrom 2 m

/-! ## The on-chip port (R44 to R49) -/

/-- The level of a floating bit at cycle `now` of the master clock (R49: `charged[i]`). -/
def Discharge.charged (d : Discharge) (now : Nat) : Bool :=
  match d with
  | .never => true
  | .already => false
  | .due cycle => decide (now < cycle)

/-- A floating bit after a write of PDDR or PDATA (R49), from the bit's old and new direction and data. -/
def Discharge.afterWrite (d : Discharge) (now decay : Nat) (oldDir oldData newDir newData : Bool) : Discharge :=
  if newDir then (if newData then .never else .already)
  else if oldDir then (if oldData then .due (now + decay) else .already)
  else d

/-- The port with new PDDR and PDATA; the three floating bits follow R49. -/
def Port.write (p : Port) (now decay : Nat) (ddr data : Byte) : Port :=
  let upd (d : Discharge) (i : Nat) :=
    d.afterWrite now decay (p.ddr.getLsbD i) (p.data.getLsbD i) (ddr.getLsbD i) (data.getLsbD i)
  { ddr := ddr, data := data, float3 := upd p.float3 3, float6 := upd p.float6 6, float7 := upd p.float7 7 }

/-- The external level of a port bit (R47: `ext[i]`): bits 3, 6, 7 float (R49), the others have the level of PORT_EXTERNAL (R5, D7),
whose default is R47's: bits 0 to 2 pulled up, bit 4 the cassette sense, bit 5 pulled low (log 25). -/
def Port.level (p : Port) (now : Nat) (params : Params) (i : Nat) : Bool :=
  match i with
  | 3 => p.float3.charged now
  | 6 => p.float6.charged now
  | 7 => p.float7.charged now
  | i => params.portExternal.getLsbD i

/-- The external levels of the port bits (R47: `ext`). -/
def Port.external (p : Port) (now : Nat) (params : Params) : Byte :=
  BitVec.ofBool (p.level now params 7) ++ BitVec.ofBool (p.level now params 6) ++ BitVec.ofBool (p.level now params 5) ++
    BitVec.ofBool (p.level now params 4) ++ BitVec.ofBool (p.level now params 3) ++ BitVec.ofBool (p.level now params 2) ++
    BitVec.ofBool (p.level now params 1) ++ BitVec.ofBool (p.level now params 0)

/-- `PortRead()` (R47). -/
def Port.read (p : Port) (now : Nat) (params : Params) : Byte :=
  (p.data &&& p.ddr) ||| (p.external now params &&& ~~~p.ddr)

/-- `PortOut[i]` (R48): the driven level of an output, the external level of an input. -/
def Port.out (p : Port) (now : Nat) (params : Params) (i : Nat) : Bool :=
  if p.ddr.getLsbD i then p.data.getLsbD i else p.level now params i

/-- LORAM (R46, R48); the banking bits do not float, so the time does not matter. -/
def Port.loram (p : Port) (params : Params) : Bool := p.out 0 params 0
/-- HIRAM (R46, R48). -/
def Port.hiram (p : Port) (params : Params) : Bool := p.out 0 params 1
/-- CHAREN (R46, R48). -/
def Port.charen (p : Port) (params : Params) : Bool := p.out 0 params 2

/-! ## The platform's map (R61, R78) -/

/-- The configuration that the banking levels select (R48, R78). -/
def Port.configuration (p : Port) (params : Params) : Nat :=
  4 * (p.charen params).toNat + 2 * (p.hiram params).toNat + (p.loram params).toNat

/-- The window answers at `a` in a configuration. -/
def Window.covers (w : Window) (configuration : Nat) (a : Word) : Bool :=
  w.banks.getLsbD configuration && decide (w.first.toNat ≤ a.toNat) && decide (a.toNat ≤ w.last.toNat)

/-- What answers at `a` in a configuration; none where RAM does. -/
def Platform.responder (p : Platform) (configuration : Nat) (a : Word) : Option Responder :=
  (p.windows.find? fun w => w.covers configuration a).map fun w => w.responder

/-- What answers at `a` in the decode in force (R48: that of the port as the last bus cycle left it); none for RAM and for the port
registers, which are in the CPU (R61). -/
def State.responder (s : State) (a : Word) : Option Responder :=
  if a = 0x0000 ∨ a = 0x0001 then none else s.platform.responder (s.port.configuration s.params) a

/-- The platform after it gave a byte: a device's answer is used up (R66). -/
def Platform.answered (p : Platform) : Platform := { p with answers := p.answers.tail }

/-- The platform after a read at `a`. -/
def State.platformAfterRead (s : State) (a : Word) : Platform :=
  match s.responder a with
  | some .device => s.platform.answered
  | _ => s.platform

/-! ## The byte at an address -/

/-- The byte a read of `a` gives at cycle `now` of the master clock (R61: `MemRead`). -/
def State.byteAt (s : State) (now : Nat) (a : Word) : Byte :=
  if a = 0x0000 then s.port.ddr
  else if a = 0x0001 then s.port.read now s.params
  else match s.responder a with
    | none => s.mem.read a.toNat
    | some (.rom bytes) => bytes.read a.toNat
    | some .device => s.platform.answers.headD (Config.openBus now a)

/-- `spypeek(addr)` (R63): what a read now would give; no bus cycle, no change. -/
def State.spypeek (s : State) (a : Word) : Byte := s.byteAt s.sig.clock a

/-- The port after a write of `v` at `a` (R61): $0000 is PDDR, $0001 is PDATA. -/
def State.pokePort (s : State) (a : Word) (v : Byte) : Port :=
  if a = 0x0000 then s.port.write s.sig.clock s.params.portDecay v s.port.data
  else if a = 0x0001 then s.port.write s.sig.clock s.params.portDecay s.port.ddr v
  else s.port

/-- Memory after a write of `v` at `a` (R61): a write to $0000 or $0001 does not reach it (R62), nor does one to a device
(log 26); a write to a ROM goes to the RAM beneath it (R80). -/
def State.pokeMem (s : State) (a : Word) (v : Byte) : Memory :=
  if a = 0x0000 ∨ a = 0x0001 then s.mem
  else match s.responder a with
    | some .device => s.mem
    | _ => s.mem.write a.toNat v

/-- The effect of a write (R61: `MemWrite`). -/
def State.poke (s : State) (a : Word) (v : Byte) : State := { s with port := s.pokePort a v, mem := s.pokeMem a v }

/-! ## The master clock cycle (R72, R337, R340) -/

/-- Shifting in the level of the current cycle (R53, R340). -/
def IrqHist.shift (h : IrqHist) (level : Bool) : IrqHist := { h0 := level, h1 := h.h0, h2 := h.h1 }

/-- `irqHist[IRQ_SAMPLE_POINT]` (R340). -/
def IrqHist.sample (h : IrqHist) (k : IrqSample) : Bool :=
  match k with
  | .two => h.h2
  | .one => h.h1

/-- The start of a master clock cycle: the lines take their levels and `irqHist` shifts, before the CPU's step (R340). -/
def Signals.begin (g : Signals) (l : Lines) (rest : List Lines) : Signals :=
  { g with lines := l, inputs := rest, irqHist := g.irqHist.shift l.irq }

/-- The end of a master clock cycle, after the CPU's step: the NMI edge detector (R337), and the clock. -/
def Signals.finish (g : Signals) : Signals :=
  { g with nmiPending := g.nmiPending || (g.lines.nmi && !g.nmiPrev), nmiPrev := g.lines.nmi, clock := g.clock + 1 }

/-- A master clock cycle in which RDY holds the CPU: no bus access, nothing of the CPU moves, `irqHist` and the NMI detector
keep running (R40, R317, R350). -/
def Signals.held (g : Signals) (l : Lines) (rest : List Lines) : Signals := (g.begin l rest).finish

/-- RESET is asserted in the coming master clock cycle (R334). -/
def Signals.resetNext (g : Signals) : Bool :=
  match g.inputs with
  | [] => false
  | l :: _ => l.reset

/-- The start of the next cycle whatever RDY and RESET are. -/
def Signals.beginNext (g : Signals) : Signals :=
  match g.inputs with
  | [] => g.begin .rest []
  | l :: rest => g.begin l rest

/-- A whole master clock cycle in which the CPU does nothing (R354). -/
def Signals.idleCycle (g : Signals) : Signals := g.beginNext.finish

/-- The start of a read cycle: first every cycle in which RDY holds it (R317), unless RESET is asserted in one of the cycles; then
the signals just before that cycle (R380). -/
def Signals.startReadFrom (g : Signals) : List Lines → Except Signals Signals
  | [] => .ok (g.begin .rest [])
  | l :: rest =>
    if l.reset then .error { g with inputs := l :: rest }
    else if l.rdy then .ok (g.begin l rest)
    else (g.held l rest).startReadFrom rest

/-- `Signals.startReadFrom` on the coming cycles. -/
def Signals.startRead (g : Signals) : Except Signals Signals := g.startReadFrom g.inputs

/-- The start of the first cycle of the reset sequence: the RESET asserted in this cycle is the one that starts the sequence; if RDY
holds the cycle, a RESET in a later one starts it again. -/
def Signals.acceptReset (g : Signals) : Except Signals Signals :=
  match g.inputs with
  | [] => .ok (g.begin .rest [])
  | l :: rest => if l.rdy then .ok (g.begin l rest) else (g.held l rest).startReadFrom rest

/-- The start of a write cycle: RDY never holds it (R40); RESET abandons it (R380). -/
def Signals.startWrite (g : Signals) : Except Signals Signals :=
  if g.resetNext then .error g else .ok g.beginNext

/-- Sequencing runs of bus cycles: once RESET is asserted, "the rest never happen" (R380). -/
def BusRun.andThen {α β : Type} (r : BusRun α) (f : α → State → BusRun β) : BusRun β :=
  match r with
  | .done v s => f v s
  | .reset s => .reset s

/-- The poll of the interrupt inputs (R340), made at the start of its cycle: with the `I` of before the cycle (R342), the
history as shifted in this cycle, and the NMI flip-flop as the detector left it in the cycle before. -/
def State.poll (s : State) : State :=
  let irq := s.sig.irqHist.sample s.params.irqSample && !s.p.i
  { s with sig := { s.sig with irqPending := irq, intDecision := s.sig.intDecision || s.sig.nmiPending || irq } }

/-- The end of a performed bus cycle: it is recorded, `T` advances (R37), the master clock cycle ends. -/
def State.endCycle (s : State) (write : Bool) (a : Word) (v : Byte) : State :=
  { s with
    t := s.t + 1
    trace := s.trace ++ [{ t := s.t, clock := s.sig.clock, write := write, addr := a, data := v }]
    sig := s.sig.finish }

/-- The bus access of a read cycle: the byte, and the state after it; a device's answer is used up (R61, R66). -/
def State.accessRead (s : State) (a : Word) : BusRun Byte :=
  .done (s.spypeek a) ((s.setPlatform (s.platformAfterRead a)).endCycle false a (s.spypeek a))

/-- One read cycle (R61, R290), with the poll if the cycle's row of the table has it. -/
def State.busRead (s : State) (a : Word) (poll : Bool := false) : BusRun Byte :=
  match s.sig.startRead with
  | .error g => .reset (s.setSig g)
  | .ok g =>
    let s := s.setSig g
    (if poll then s.poll else s).accessRead a

/-- One write cycle (R61, R290), with the poll if the cycle's row of the table has it. -/
def State.busWrite (s : State) (a : Word) (v : Byte) (poll : Bool := false) : BusRun Unit :=
  match s.sig.startWrite with
  | .error g => .reset (s.setSig g)
  | .ok g =>
    let s := s.setSig g
    let s := if poll then s.poll else s
    .done () ((s.poke a v).endCycle true a v)

/-! ## Registers and the stack (R24, R69, R160) -/

/-- `SetNZ(v)` on the state (R8). -/
def State.setNZ (s : State) (v : Byte) : State := s.setP (s.p.setNZ v)

/-- The address of the stack byte at `SP` (R24): `$0100 + SP`. -/
def State.stackAddr (s : State) : Word := Word.ofBytes 0x01 s.sp

/-- `Push(v)` (R8): write at the stack address, then decrement `SP` modulo 256. -/
def State.push (s : State) (v : Byte) (poll : Bool := false) : BusRun Unit :=
  (s.busWrite s.stackAddr v poll).andThen fun _ s => .done () (s.setSP (s.sp - 1))

/-- `Pull()` (R8): increment `SP` modulo 256, then read at the stack address. -/
def State.pull (s : State) (poll : Bool := false) : BusRun Byte :=
  let s := s.setSP (s.sp + 1)
  s.busRead s.stackAddr poll

/-! ## Taking an interrupt or BRK, and returning (R344, R215, R214) -/

/-- The NMI vector (R333). -/
def vectorNmi : Word := 0xFFFA
/-- The RESET vector (R333). -/
def vectorReset : Word := 0xFFFC
/-- The vector of IRQ and BRK (R333). -/
def vectorIrq : Word := 0xFFFE

/-- The vector choice of T4 (R347): NMI before IRQ and BRK (R346). -/
def Signals.vector (g : Signals) : Word := if g.nmiPending then vectorNmi else vectorIrq

/-- T4 of the sequence (R312, R313): the push of the status byte and, in the same cycle, the vector choice, which clears
`nmiPending` when it takes the NMI vector (R338). -/
def State.pushStatusChooseVector (s : State) (b : Bool) : BusRun Word :=
  match s.sig.startWrite with
  | .error g => .reset (s.setSig g)
  | .ok g =>
    let s := s.setSig g
    let image := s.p.image b
    let chosen := ((s.poke s.stackAddr image).setSP (s.sp - 1)).clearNmi
    .done s.sig.vector (chosen.endCycle true s.stackAddr image)

/-- T5 and T6 of the sequences: `PC` from the two bytes of the vector, low byte first, and `I <- 1` with the first (R312). -/
def State.loadVector (s : State) (vec : Word) : BusRun Unit :=
  (s.busRead vec).andThen fun lo s =>
  let s := (s.setPC (Word.ofBytes s.pc.hi lo)).setP { s.p with i := true }
  (s.busRead (vec + 1)).andThen fun hi s =>
  .done () (s.setPC (Word.ofBytes hi s.pc.lo))

/-- TAKING AN INTERRUPT OR BRK (R344, R215, R312, R313: T2 to T6): `PC` high, `PC` low and the status byte are pushed, the
vector is chosen, `I` is set, `PC` is loaded from the vector; `D` is not changed. `b` is the B value of the push. -/
def State.enter (s : State) (b : Bool) : BusRun Unit :=
  (s.push s.pc.hi).andThen fun _ s =>
  (s.push s.pc.lo).andThen fun _ s =>
  (s.pushStatusChooseVector b).andThen fun vec s =>
  s.loadVector vec

/-- The sequence of IRQ and NMI (R313): two dummy reads at `PC`, which is not incremented, `IR <- $00` (R36), then
`State.enter` with B = 0. -/
def State.takeInterrupt (s : State) : BusRun Unit :=
  (s.busRead s.pc).andThen fun _ s =>
  let s := s.setIR 0x00
  (s.busRead s.pc).andThen fun _ s =>
  s.enter false

/-- RETURNING (R214, R308: T2 to T5): a dummy read of the stack, then the flags, `PC` low and `PC` high are pulled; the poll of
the last cycle sees the restored `I` (R342). -/
def State.returnFromInterrupt (s : State) : BusRun Unit :=
  (s.busRead s.stackAddr).andThen fun _ s =>
  s.pull.andThen fun v s =>
  let s := s.setP (Flags.ofByte v)
  s.pull.andThen fun lo s =>
  let s := s.setPC (Word.ofBytes s.pc.hi lo)
  (s.pull true).andThen fun hi s =>
  .done () (s.setPC (Word.ofBytes hi s.pc.lo))

/-! ## Reset (R314, R381) -/

/-- What a reset clears first, so that the vector is read through the default map (R381, R51). -/
def State.resetClear (s : State) : State :=
  { s with
    jam := false
    ir := 0x00
    t := 0
    port := { ddr := 0x00, data := 0x00, float3 := .already, float6 := .already, float7 := .already }
    sig := { s.sig with irqHist := { h0 := false, h1 := false, h2 := false }, nmiPending := false, irqPending := false,
                        intDecision := false } }

/-- T0 of the reset sequence, in the cycle in which RESET is asserted: a dummy read at `PC`, which is not incremented (R314). -/
def State.resetAccept (s : State) : BusRun Byte :=
  match s.sig.acceptReset with
  | .error g => .reset (s.setSig g)
  | .ok g => (s.setSig g).accessRead s.pc

/-- T2, T3, T4: a dummy stack read, a push turned into a read (R314). -/
def State.resetPush (s : State) : BusRun Unit :=
  (s.busRead s.stackAddr).andThen fun _ s => .done () (s.setSP (s.sp - 1))

/-- The seven cycles of the reset sequence (R314), with what a reset clears first; a RESET in a later cycle of them abandons them
as it does any sequence (R380: "accepted in every state of the CPU"). -/
def State.resetCycles (s : State) : BusRun Unit :=
  s.resetClear.resetAccept.andThen fun _ s =>
  (s.busRead s.pc).andThen fun _ s =>
  s.resetPush.andThen fun _ s =>
  s.resetPush.andThen fun _ s =>
  s.resetPush.andThen fun _ s =>
  s.loadVector vectorReset

/-- The end of the reset sequence (R51): `T` and `nmiPending` are 0, and `nmiPrev` is the level of the line. -/
def State.resetEnd (s : State) : State := (s.setT 0).clearNmi

/-- The reset sequence, started again by every RESET that comes while it runs, at most `restarts` times. -/
def State.resetFrom (restarts : Nat) (s : State) : State :=
  match s.resetCycles with
  | .done _ t => t.resetEnd
  | .reset t =>
    match restarts with
    | 0 => t.resetEnd
    | n + 1 => t.resetFrom n

/-- The reset of a running CPU (R314, R381): seven read cycles, `SP` minus 3, `I <- 1`, `PC` from the vector at $FFFC; `A`, `X`,
`Y`, the other flags and memory are kept. A RESET inside it starts it again (log 3). Every start uses up the coming cycle of its
RESET, so that there are fewer restarts than coming cycles (`resetSequence_eq` in Laws/Reset.lean). -/
def State.resetSequence (s : State) : State := s.resetFrom s.sig.inputs.length

/-! ## The outcome of a run of cycles -/

/-- The end of an instruction or interrupt sequence: `T` is 0 again (R37); or the reset sequence, if RESET was asserted before
the end (R380). -/
def BusRun.outcome {α : Type} (r : BusRun α) : Host.Outcome State Fault Refusal :=
  match r with
  | .done _ s => .next (s.setT 0)
  | .reset s => .next s.resetSequence

end Sys2Proof.Machine
end

