-- ==== Sys2Proof/Machine/Operands.lean ====
section
/-! DEFINITION. The addressing modes as bus cycles (R103 to R116; the tables R292 to R303 and R316), and the shapes of
instruction that use them. The operand bytes have been fetched (Machine/Step.lean); what stands here is every cycle after them. -/

namespace Sys2Proof.Machine

/-- `sext_16(b)` (R7). -/
def sext16 (b : Byte) : Word := b.signExtend 16

/-- A zero-page address: high byte $00 (R106). -/
def zeroPage (b : Byte) : Word := Word.ofBytes 0x00 b

/-- Setting `AD` (R42). -/
def State.setAD (s : State) (w : Word) : State := { s with latch := { s.latch with ad := w } }

/-- Setting `PTR` (R42). -/
def State.setPTR (s : State) (b : Byte) : State := { s with latch := { s.latch with ptr := b } }

/-- Adding an index to `ADL` (R110, R111, R114): `ADL` modulo 256, the carry in `pageCross`, `ADH` not yet corrected. -/
def State.addIndex (s : State) (idx : Byte) : State :=
  { s with latch := { s.latch with
      ad := Word.ofBytes s.latch.ad.hi (s.latch.ad.lo + idx)
      pageCross := decide (s.latch.ad.lo.toNat + idx.toNat > 0xFF) } }

/-- The correction of `ADH` when the index addition carried. -/
def State.fixHigh (s : State) : State :=
  if s.latch.pageCross then s.setAD (Word.ofBytes (s.latch.ad.hi + 1) s.latch.ad.lo) else s

/-- The cycle after an index addition: a dummy read at the un-carried address, then the correction of `ADH`. A read instruction
has it only on a page crossing (R297, R301); a write or RMW instruction always (R298, R299, R302, R303). -/
def State.indexed (s : State) (always : Bool) (idx : Byte) : BusRun Unit :=
  let s := s.addIndex idx
  if always || s.latch.pageCross then (s.busRead s.latch.ad).andThen fun _ s => .done () s.fixHigh else .done () s

/-- The two reads of a zero-page pointer at `PTR` (R68: the second address wraps inside page zero). -/
def State.readPointer (s : State) : BusRun Unit :=
  (s.busRead (zeroPage s.latch.ptr)).andThen fun lo s =>
  let s := s.setAD (Word.ofBytes s.latch.ad.hi lo)
  (s.busRead (zeroPage (s.latch.ptr + 1))).andThen fun hi s =>
  .done () (s.setAD (Word.ofBytes hi s.latch.ad.lo))

/-- A zero-page address with an index (R295): a dummy read at the un-indexed address, then `ADL + idx` modulo 256. -/
def State.zeroPageIndexed (s : State) (b idx : Byte) : BusRun Unit :=
  let s := s.setAD (zeroPage b)
  (s.busRead s.latch.ad).andThen fun _ s => .done () (s.setAD (zeroPage (s.latch.ad.lo + idx)))

end Sys2Proof.Machine

namespace Sys2Proof

open Machine

/-- Every cycle between the operand fetch and the access at the effective address, which is left in `AD`. `always` is true for
write and RMW instructions (R298, R299, R302, R303), false for read instructions (R297, R301). -/
def Mem.resolve (m : Mem) (always : Bool) (s : State) : BusRun Unit :=
  match m with
  | .zp b => .done () (s.setAD (zeroPage b))
  | .zpx b => s.zeroPageIndexed b s.x
  | .zpy b => s.zeroPageIndexed b s.y
  | .abs w => .done () (s.setAD w)
  | .abx w => (s.setAD w).indexed always s.x
  | .aby w => (s.setAD w).indexed always s.y
  | .izx b =>
    let s := s.setPTR b
    (s.busRead (zeroPage s.latch.ptr)).andThen fun _ s =>
    (s.setPTR (s.latch.ptr + s.x)).readPointer
  | .izy b =>
    (s.setPTR b).readPointer.andThen fun _ s => s.indexed always s.y

/-- The effective address as the rules of the modes give it (R106 to R111, R113, R114), with the bytes a debugger would see now;
`ea_resolve` in Laws/Operands.lean says that the cycles of `Mem.resolve` leave this address in `AD`. -/
def Mem.ea (m : Mem) (s : State) : Word :=
  match m with
  | .zp b => zeroPage b
  | .zpx b => zeroPage (b + s.x)
  | .zpy b => zeroPage (b + s.y)
  | .abs w => w
  | .abx w => w + s.x.zeroExtend 16
  | .aby w => w + s.y.zeroExtend 16
  | .izx b => Word.ofBytes (s.spypeek (zeroPage (b + s.x + 1))) (s.spypeek (zeroPage (b + s.x)))
  | .izy b => Word.ofBytes (s.spypeek (zeroPage (b + 1))) (s.spypeek (zeroPage b)) + s.y.zeroExtend 16

/-- The operand of a read instruction (R116) as a debugger would see it now. -/
def Src.value (o : Src) (s : State) : Byte :=
  match o with
  | .imm b => b
  | .mem m => s.spypeek (m.ea s)

/-- The last cycle of a read instruction: the read at the effective address, with the poll (R294 to R301). -/
def Mem.load (m : Mem) (s : State) : BusRun Byte :=
  (m.resolve false s).andThen fun _ s => s.busRead s.latch.ad true

/-- The operand of a read instruction (R116). An immediate byte was fetched, and polled for, with the instruction (R293). -/
def Src.load (o : Src) (s : State) : BusRun Byte :=
  match o with
  | .imm b => .done b s
  | .mem m => m.load s

end Sys2Proof

namespace Sys2Proof.Machine

/-! ## The shapes of instruction -/

/-- A read instruction: its operand, then `exec` on it. -/
def readInstr (load : State → BusRun Byte) (exec : Byte → State → State) (s : State) :
    Host.Outcome State Fault Refusal :=
  ((load s).andThen fun v s => BusRun.done () (exec v s)).outcome

/-- A write instruction (R116): the byte goes to the effective address in the last cycle, which polls. -/
def writeInstr (m : Mem) (v : Byte) (s : State) : Host.Outcome State Fault Refusal :=
  ((m.resolve true s).andThen fun _ s => s.busWrite s.latch.ad v true).outcome

/-- A read-modify-write instruction on memory (R190): read, write back unchanged, write the result; `f` gives the result and the
flags, `acc` is the accumulator part of the undocumented combinations, made after the last write. -/
def modifyInstr (m : Mem) (f : Flags → Byte → Byte × Flags) (acc : Byte → State → State) (s : State) :
    Host.Outcome State Fault Refusal :=
  ((m.resolve true s).andThen fun _ s =>
   (s.busRead s.latch.ad).andThen fun old s =>
   let s := s.setDL old
   (s.busWrite s.latch.ad s.latch.dl).andThen fun _ s =>
   let r := f s.p s.latch.dl
   let s := s.setP r.2
   (s.busWrite s.latch.ad r.1 true).andThen fun _ s =>
   BusRun.done () (acc r.1 s)).outcome

/-- An implied or accumulator instruction of two cycles (R292): a dummy read of the byte after the opcode, which polls, then
`exec`. -/
def impliedInstr (exec : State → State) (s : State) : Host.Outcome State Fault Refusal :=
  ((s.busRead s.pc true).andThen fun _ s => BusRun.done () (exec s)).outcome

/-- A shift or rotate (R191 to R194): on the accumulator or on memory. -/
def shiftInstr (f : Flags → Byte → Byte × Flags) (t : Target) (s : State) : Host.Outcome State Fault Refusal :=
  match t with
  | .acc => impliedInstr (fun s => (s.setA (f s.p s.a).1).setP (f s.p s.a).2) s
  | .mem m => modifyInstr m f (fun _ s => s) s

/-- An instruction that has only an immediate form: its last cycle was the operand fetch (R293). -/
def immediateInstr (exec : State → State) (s : State) : Host.Outcome State Fault Refusal :=
  (BusRun.done () (exec s)).outcome

/-- `SHstore(reg)` (R274, R316): the byte is `reg & H1`, `H1` one more than the high byte of the base address before any
correction; on a page crossing with `and_high` it replaces the high byte of the address. -/
def shStore (m : Mem) (reg : State → Byte) (afterDummy : State → State) (s : State) :
    Host.Outcome State Fault Refusal :=
  ((m.resolve true s).andThen fun _ s =>
   let s := afterDummy s
   let h1 := if s.latch.pageCross then s.latch.ad.hi else s.latch.ad.hi + 1
   let v := reg s &&& h1
   let s := if s.latch.pageCross && s.params.shPageCross == .andHigh then s.setAD (Word.ofBytes v s.latch.ad.lo) else s
   s.busWrite s.latch.ad v true).outcome

end Sys2Proof.Machine
end

