-- ==== Sys2Proof/Machine/Arithmetic.lean ====
section
/-! DEFINITION. Arithmetic, logic, compare and bit-test instructions (42_arithmetic_logic.md). -/

namespace Sys2Proof.Machine

/-- ADC's operation on an operand byte (R171, R172), used by RRA too (R254). -/
def State.addToA (s : State) (m : Byte) : State :=
  let r := adcAlu s.p.d s.a m s.p.c
  (s.setA r.val).setP (s.p.setNVZC r)

/-- SBC's operation on an operand byte (R173, R174), used by $EB and ISC too (R267, R258). -/
def State.subFromA (s : State) (m : Byte) : State :=
  let r := sbcAlu s.p.d s.a m s.p.c
  (s.setA r.val).setP (s.p.setNVZC r)

/-- R171, R172. -/
def execAdc (o : Src) (s : State) : Host.Outcome State Fault Refusal :=
  readInstr o.load (fun v s => s.addToA v) s

/-- R173, R174. -/
def execSbc (o : Src) (s : State) : Host.Outcome State Fault Refusal :=
  readInstr o.load (fun v s => s.subFromA v) s

/-- R175. -/
def execAnd (o : Src) (s : State) : Host.Outcome State Fault Refusal :=
  readInstr o.load (fun v s => (s.setA (s.a &&& v)).setNZ (s.a &&& v)) s

/-- R176. -/
def execOra (o : Src) (s : State) : Host.Outcome State Fault Refusal :=
  readInstr o.load (fun v s => (s.setA (s.a ||| v)).setNZ (s.a ||| v)) s

/-- R177. -/
def execEor (o : Src) (s : State) : Host.Outcome State Fault Refusal :=
  readInstr o.load (fun v s => (s.setA (s.a ^^^ v)).setNZ (s.a ^^^ v)) s

/-- R178. -/
def execCmp (o : Src) (s : State) : Host.Outcome State Fault Refusal :=
  readInstr o.load (fun v s => s.setP (s.p.compare s.a v)) s

/-- R179. -/
def execCpx (o : Src) (s : State) : Host.Outcome State Fault Refusal :=
  readInstr o.load (fun v s => s.setP (s.p.compare s.x v)) s

/-- R180. -/
def execCpy (o : Src) (s : State) : Host.Outcome State Fault Refusal :=
  readInstr o.load (fun v s => s.setP (s.p.compare s.y v)) s

/-- R181. -/
def execBit (m : Mem) (s : State) : Host.Outcome State Fault Refusal :=
  readInstr m.load (fun v s => s.setP (s.p.bitTest s.a v)) s

end Sys2Proof.Machine
end

