-- ==== Sys2Proof/Machine/Control.lean ====
section
/-! DEFINITION. Control transfer instructions (44_control_flow.md; the tables R306 to R312). `PC` is past the bytes that the
fetch has read. -/

namespace Sys2Proof.Machine

/-- R210: the fetch of the second operand byte was the last cycle (R309). -/
def execJmp (target : Word) (s : State) : Host.Outcome State Fault Refusal :=
  immediateInstr (fun s => (s.setAD target).setPC target) s

/-- R211: the pointer's high byte comes from the same page (R112, R310). -/
def execJmpInd (pointer : Word) (s : State) : Host.Outcome State Fault Refusal :=
  let s := s.setAD pointer
  ((s.busRead s.latch.ad).andThen fun lo s =>
   let s := s.setDL lo
   (s.busRead (Word.ofBytes s.latch.ad.hi (s.latch.ad.lo + 1)) true).andThen fun hi s =>
   BusRun.done () (s.setPC (Word.ofBytes hi s.latch.dl))).outcome

/-- R212, R306. `PC` is the address of JSR's third byte, which is read after the two pushes: the target's high byte is the byte
that stands there then (R212), so of the operand only the low byte is used. -/
def execJsr (target : Word) (s : State) : Host.Outcome State Fault Refusal :=
  let s := s.setAD (Word.ofBytes s.latch.ad.hi target.lo)
  ((s.busRead s.stackAddr).andThen fun _ s =>
   (s.push s.pc.hi).andThen fun _ s =>
   (s.push s.pc.lo).andThen fun _ s =>
   (s.busRead s.pc true).andThen fun hi s =>
   let s := s.setAD (Word.ofBytes hi s.latch.ad.lo)
   BusRun.done () (s.setPC s.latch.ad)).outcome

/-- R213, R307. -/
def execRts (s : State) : Host.Outcome State Fault Refusal :=
  ((s.busRead s.pc).andThen fun _ s =>
   (s.busRead s.stackAddr).andThen fun _ s =>
   s.pull.andThen fun lo s =>
   let s := s.setPC (Word.ofBytes s.pc.hi lo)
   s.pull.andThen fun hi s =>
   let s := s.setPC (Word.ofBytes hi s.pc.lo)
   (s.busRead s.pc true).andThen fun _ s =>
   BusRun.done () (s.setPC (s.pc + 1))).outcome

/-- R214, R308: a dummy read, then the shared return. -/
def execRti (s : State) : Host.Outcome State Fault Refusal :=
  ((s.busRead s.pc).andThen fun _ s => s.returnFromInterrupt).outcome

/-- R215, R312: the padding byte is read and skipped, then the shared entry with B = 1. -/
def execBrk (s : State) : Host.Outcome State Fault Refusal :=
  ((s.busRead s.pc).andThen fun _ s => (s.setPC (s.pc + 1)).enter true).outcome

/-- `Branch(cond)` (R216, R311). The operand fetch polled. A taken branch adds the displacement to the low byte of `PC` in one
cycle, without a poll; if the high byte changes, one more cycle, with a poll, corrects it (R343). -/
def branch (cond : Bool) (off : Byte) (s : State) : Host.Outcome State Fault Refusal :=
  if cond then
    let target := s.pc + sext16 off
    ((s.busRead s.pc).andThen fun _ s =>
     let s := s.setPC (Word.ofBytes s.pc.hi target.lo)
     if s.pc.hi = target.hi then BusRun.done () s
     else (s.busRead s.pc true).andThen fun _ s => BusRun.done () (s.setPC target)).outcome
  else (BusRun.done () s).outcome

/-- R217. -/
def execBpl (off : Byte) (s : State) : Host.Outcome State Fault Refusal := branch (!s.p.n) off s

/-- R218. -/
def execBmi (off : Byte) (s : State) : Host.Outcome State Fault Refusal := branch s.p.n off s

/-- R219. -/
def execBvc (off : Byte) (s : State) : Host.Outcome State Fault Refusal := branch (!s.p.v) off s

/-- R220. -/
def execBvs (off : Byte) (s : State) : Host.Outcome State Fault Refusal := branch s.p.v off s

/-- R221. -/
def execBcc (off : Byte) (s : State) : Host.Outcome State Fault Refusal := branch (!s.p.c) off s

/-- R222. -/
def execBcs (off : Byte) (s : State) : Host.Outcome State Fault Refusal := branch s.p.c off s

/-- R223. -/
def execBne (off : Byte) (s : State) : Host.Outcome State Fault Refusal := branch (!s.p.z) off s

/-- R224. -/
def execBeq (off : Byte) (s : State) : Host.Outcome State Fault Refusal := branch s.p.z off s

end Sys2Proof.Machine
end

