-- ==== Sys2Proof/Machine/FlagOps.lean ====
section
/-! DEFINITION. Flag instructions and NOP (45_flags_nop.md). Their last cycle polls with the `I` of before it (R342). -/

namespace Sys2Proof.Machine

/-- R240. -/
def execClc (s : State) : Host.Outcome State Fault Refusal :=
  impliedInstr (fun s => s.setP { s.p with c := false }) s

/-- R241. -/
def execSec (s : State) : Host.Outcome State Fault Refusal :=
  impliedInstr (fun s => s.setP { s.p with c := true }) s

/-- R242. -/
def execCli (s : State) : Host.Outcome State Fault Refusal :=
  impliedInstr (fun s => s.setP { s.p with i := false }) s

/-- R243. -/
def execSei (s : State) : Host.Outcome State Fault Refusal :=
  impliedInstr (fun s => s.setP { s.p with i := true }) s

/-- R244. -/
def execClv (s : State) : Host.Outcome State Fault Refusal :=
  impliedInstr (fun s => s.setP { s.p with v := false }) s

/-- R245. -/
def execCld (s : State) : Host.Outcome State Fault Refusal :=
  impliedInstr (fun s => s.setP { s.p with d := false }) s

/-- R246. -/
def execSed (s : State) : Host.Outcome State Fault Refusal :=
  impliedInstr (fun s => s.setP { s.p with d := true }) s

/-- R247, R264: every implied NOP. -/
def execNop (_which : Fin 7) (s : State) : Host.Outcome State Fault Refusal := impliedInstr (fun s => s) s

end Sys2Proof.Machine
end

