-- ==== Sys2Proof/Machine/LoadStore.lean ====
section
/-! DEFINITION. Load, store and register transfer instructions (40_load_store_transfer.md). -/

namespace Sys2Proof.Machine

/-- R141. -/
def execLda (o : Src) (s : State) : Host.Outcome State Fault Refusal :=
  readInstr o.load (fun v s => (s.setA v).setNZ v) s

/-- R142. -/
def execLdx (o : Src) (s : State) : Host.Outcome State Fault Refusal :=
  readInstr o.load (fun v s => (s.setX v).setNZ v) s

/-- R143. -/
def execLdy (o : Src) (s : State) : Host.Outcome State Fault Refusal :=
  readInstr o.load (fun v s => (s.setY v).setNZ v) s

/-- R144. -/
def execSta (m : Mem) (s : State) : Host.Outcome State Fault Refusal := writeInstr m s.a s

/-- R145. -/
def execStx (m : Mem) (s : State) : Host.Outcome State Fault Refusal := writeInstr m s.x s

/-- R146. -/
def execSty (m : Mem) (s : State) : Host.Outcome State Fault Refusal := writeInstr m s.y s

/-- R147. -/
def execTax (s : State) : Host.Outcome State Fault Refusal :=
  impliedInstr (fun s => (s.setX s.a).setNZ s.a) s

/-- R148. -/
def execTay (s : State) : Host.Outcome State Fault Refusal :=
  impliedInstr (fun s => (s.setY s.a).setNZ s.a) s

/-- R149. -/
def execTxa (s : State) : Host.Outcome State Fault Refusal :=
  impliedInstr (fun s => (s.setA s.x).setNZ s.x) s

/-- R150. -/
def execTya (s : State) : Host.Outcome State Fault Refusal :=
  impliedInstr (fun s => (s.setA s.y).setNZ s.y) s

/-- R151. -/
def execTsx (s : State) : Host.Outcome State Fault Refusal :=
  impliedInstr (fun s => (s.setX s.sp).setNZ s.sp) s

/-- R152: no flag changes. -/
def execTxs (s : State) : Host.Outcome State Fault Refusal := impliedInstr (fun s => s.setSP s.x) s

end Sys2Proof.Machine
end

