-- ==== Sys2Proof/Machine/ShiftIncDec.lean ====
section
/-! DEFINITION. Shift, rotate, increment and decrement instructions (43_shift_incdec.md). -/

namespace Sys2Proof.Machine

/-- R191. -/
def execAsl (t : Target) (s : State) : Host.Outcome State Fault Refusal := shiftInstr aslAlu t s

/-- R192. -/
def execLsr (t : Target) (s : State) : Host.Outcome State Fault Refusal := shiftInstr lsrAlu t s

/-- R193. -/
def execRol (t : Target) (s : State) : Host.Outcome State Fault Refusal := shiftInstr rolAlu t s

/-- R194. -/
def execRor (t : Target) (s : State) : Host.Outcome State Fault Refusal := shiftInstr rorAlu t s

/-- R195. -/
def execInc (m : Mem) (s : State) : Host.Outcome State Fault Refusal := modifyInstr m incAlu (fun _ s => s) s

/-- R196. -/
def execDec (m : Mem) (s : State) : Host.Outcome State Fault Refusal := modifyInstr m decAlu (fun _ s => s) s

/-- R197. -/
def execInx (s : State) : Host.Outcome State Fault Refusal :=
  impliedInstr (fun s => (s.setX (s.x + 1)).setNZ (s.x + 1)) s

/-- R198. -/
def execIny (s : State) : Host.Outcome State Fault Refusal :=
  impliedInstr (fun s => (s.setY (s.y + 1)).setNZ (s.y + 1)) s

/-- R199. -/
def execDex (s : State) : Host.Outcome State Fault Refusal :=
  impliedInstr (fun s => (s.setX (s.x - 1)).setNZ (s.x - 1)) s

/-- R200. -/
def execDey (s : State) : Host.Outcome State Fault Refusal :=
  impliedInstr (fun s => (s.setY (s.y - 1)).setNZ (s.y - 1)) s

end Sys2Proof.Machine
end

