-- ==== Sys2Proof/Machine/Stack.lean ====
section
/-! DEFINITION. Stack instructions (41_stack.md; the tables R304 and R305). -/

namespace Sys2Proof.Machine

/-- PHA and PHP (R304): a dummy read of the byte after the opcode, then the push, which polls. -/
def pushInstr (v : Byte) (s : State) : Host.Outcome State Fault Refusal :=
  ((s.busRead s.pc).andThen fun _ s => s.push v true).outcome

/-- PLA and PLP (R305): two dummy reads, then the pull, which polls with the `I` of before it, then `exec` on the byte. -/
def pullInstr (exec : Byte → State → State) (s : State) : Host.Outcome State Fault Refusal :=
  ((s.busRead s.pc).andThen fun _ s =>
   (s.busRead s.stackAddr).andThen fun _ s =>
   (s.pull true).andThen fun v s => BusRun.done () (exec v s)).outcome

/-- R161. -/
def execPha (s : State) : Host.Outcome State Fault Refusal := pushInstr s.a s

/-- R162: B = 1 in the pushed image. -/
def execPhp (s : State) : Host.Outcome State Fault Refusal := pushInstr (s.p.image true) s

/-- R163. -/
def execPla (s : State) : Host.Outcome State Fault Refusal :=
  pullInstr (fun v s => (s.setA v).setNZ v) s

/-- R164. -/
def execPlp (s : State) : Host.Outcome State Fault Refusal :=
  pullInstr (fun v s => s.setP (Flags.ofByte v)) s

end Sys2Proof.Machine
end

