-- ==== Sys2Proof/Machine/Undocumented.lean ====
section
/-! DEFINITION. Undocumented instructions (46_undocumented.md). -/

namespace Sys2Proof.Machine

/-- R251. -/
def execSlo (m : Mem) (s : State) : Host.Outcome State Fault Refusal :=
  modifyInstr m aslAlu (fun r s => (s.setA (s.a ||| r)).setNZ (s.a ||| r)) s

/-- R252. -/
def execRla (m : Mem) (s : State) : Host.Outcome State Fault Refusal :=
  modifyInstr m rolAlu (fun r s => (s.setA (s.a &&& r)).setNZ (s.a &&& r)) s

/-- R253. -/
def execSre (m : Mem) (s : State) : Host.Outcome State Fault Refusal :=
  modifyInstr m lsrAlu (fun r s => (s.setA (s.a ^^^ r)).setNZ (s.a ^^^ r)) s

/-- R254: the carry into the addition is the one the rotation has just produced. -/
def execRra (m : Mem) (s : State) : Host.Outcome State Fault Refusal :=
  modifyInstr m rorAlu (fun r s => s.addToA r) s

/-- R255. -/
def execSax (m : Mem) (s : State) : Host.Outcome State Fault Refusal := writeInstr m (s.a &&& s.x) s

/-- R256. -/
def execLax (m : Mem) (s : State) : Host.Outcome State Fault Refusal :=
  readInstr m.load (fun v s => ((s.setA v).setX v).setNZ v) s

/-- R257. -/
def execDcp (m : Mem) (s : State) : Host.Outcome State Fault Refusal :=
  modifyInstr m decQuiet (fun r s => s.setP (s.p.compare s.a r)) s

/-- R258. -/
def execIsc (m : Mem) (s : State) : Host.Outcome State Fault Refusal :=
  modifyInstr m incQuiet (fun r s => s.subFromA r) s

/-- R259: both encodings. -/
def execAnc (_which : Fin 2) (b : Byte) (s : State) : Host.Outcome State Fault Refusal :=
  immediateInstr (fun s =>
    let r := s.a &&& b
    (s.setA r).setP { s.p.setNZ r with c := r.getLsbD 7 }) s

/-- R260. -/
def execAlr (b : Byte) (s : State) : Host.Outcome State Fault Refusal :=
  immediateInstr (fun s =>
    let r := lsrAlu s.p (s.a &&& b)
    (s.setA r.1).setP r.2) s

/-- R261. -/
def execArr (b : Byte) (s : State) : Host.Outcome State Fault Refusal :=
  immediateInstr (fun s =>
    let r := arrAlu s.p (s.a &&& b)
    (s.setA r.1).setP r.2) s

/-- R262: the flags are those of a compare of `A & X` with the operand. -/
def execAxs (b : Byte) (s : State) : Host.Outcome State Fault Refusal :=
  immediateInstr (fun s =>
    let t := s.a &&& s.x
    (s.setX (t - b)).setP (s.p.compare t b)) s

/-- R263. -/
def execLas (base : Word) (s : State) : Host.Outcome State Fault Refusal :=
  readInstr (Mem.aby base).load (fun v s =>
    let r := v &&& s.sp
    (((s.setA r).setX r).setSP r).setNZ r) s

/-- R265: the operand byte was read by the fetch. -/
def execNopImm (_which : Fin 5) (_b : Byte) (s : State) : Host.Outcome State Fault Refusal :=
  immediateInstr (fun s => s) s

/-- R266: the operand is read and discarded. -/
def execNopRead (_which : Fin 6) (m : Mem) (s : State) : Host.Outcome State Fault Refusal :=
  readInstr m.load (fun _ s => s) s

/-- R267: SBC immediate under opcode $EB. -/
def execUsbc (b : Byte) (s : State) : Host.Outcome State Fault Refusal :=
  readInstr (Src.imm b).load (fun v s => s.subFromA v) s

/-- R268, with the parameter ANE_CONST. -/
def execAne (b : Byte) (s : State) : Host.Outcome State Fault Refusal :=
  immediateInstr (fun s =>
    let r := (s.a ||| s.params.aneConst) &&& s.x &&& b
    (s.setA r).setNZ r) s

/-- R269, with the parameter LXA_CONST. -/
def execLxa (b : Byte) (s : State) : Host.Outcome State Fault Refusal :=
  immediateInstr (fun s =>
    let r := (s.a ||| s.params.lxaConst) &&& b
    ((s.setA r).setX r).setNZ r) s

/-- R270. -/
def execSha (m : Mem) (s : State) : Host.Outcome State Fault Refusal :=
  shStore m (fun s => s.a &&& s.x) (fun s => s) s

/-- R271. -/
def execShx (base : Word) (s : State) : Host.Outcome State Fault Refusal :=
  shStore (.aby base) (fun s => s.x) (fun s => s) s

/-- R272. -/
def execShy (base : Word) (s : State) : Host.Outcome State Fault Refusal :=
  shStore (.abx base) (fun s => s.y) (fun s => s) s

/-- R273: `SP <- A & X` at the end of the dummy read (R316), then the store of `SP & H1`. -/
def execTas (base : Word) (s : State) : Host.Outcome State Fault Refusal :=
  shStore (.aby base) (fun s => s.sp) (fun s => s.setSP (s.a &&& s.x)) s

/-- R275, R315: after the opcode fetch `jam <- 1`, and no further cycle; the instruction never ends, so `T` stays. -/
def execJam (_which : Fin 12) (s : State) : Host.Outcome State Fault Refusal := .next (s.setJam true)

end Sys2Proof.Machine
end

