-- ==== Sys2Proof/Machine/Dispatch.lean ====
section
/-! DEFINITION. One arm per constructor of Instr: what the instruction does once its bytes are fetched. -/

namespace Sys2Proof.Machine

def exec (i : Instr) (s : State) : Host.Outcome State Fault Refusal :=
  match i with
  | .lda o => Sys2Proof.Machine.execLda o s
  | .ldx o => Sys2Proof.Machine.execLdx o s
  | .ldy o => Sys2Proof.Machine.execLdy o s
  | .sta m => Sys2Proof.Machine.execSta m s
  | .stx m => Sys2Proof.Machine.execStx m s
  | .sty m => Sys2Proof.Machine.execSty m s
  | .tax => Sys2Proof.Machine.execTax s
  | .tay => Sys2Proof.Machine.execTay s
  | .txa => Sys2Proof.Machine.execTxa s
  | .tya => Sys2Proof.Machine.execTya s
  | .tsx => Sys2Proof.Machine.execTsx s
  | .txs => Sys2Proof.Machine.execTxs s
  | .pha => Sys2Proof.Machine.execPha s
  | .php => Sys2Proof.Machine.execPhp s
  | .pla => Sys2Proof.Machine.execPla s
  | .plp => Sys2Proof.Machine.execPlp s
  | .adc o => Sys2Proof.Machine.execAdc o s
  | .sbc o => Sys2Proof.Machine.execSbc o s
  | .and o => Sys2Proof.Machine.execAnd o s
  | .ora o => Sys2Proof.Machine.execOra o s
  | .eor o => Sys2Proof.Machine.execEor o s
  | .cmp o => Sys2Proof.Machine.execCmp o s
  | .cpx o => Sys2Proof.Machine.execCpx o s
  | .cpy o => Sys2Proof.Machine.execCpy o s
  | .bit m => Sys2Proof.Machine.execBit m s
  | .asl t => Sys2Proof.Machine.execAsl t s
  | .lsr t => Sys2Proof.Machine.execLsr t s
  | .rol t => Sys2Proof.Machine.execRol t s
  | .ror t => Sys2Proof.Machine.execRor t s
  | .inc m => Sys2Proof.Machine.execInc m s
  | .dec m => Sys2Proof.Machine.execDec m s
  | .inx => Sys2Proof.Machine.execInx s
  | .iny => Sys2Proof.Machine.execIny s
  | .dex => Sys2Proof.Machine.execDex s
  | .dey => Sys2Proof.Machine.execDey s
  | .jmp target => Sys2Proof.Machine.execJmp target s
  | .jmpInd pointer => Sys2Proof.Machine.execJmpInd pointer s
  | .jsr target => Sys2Proof.Machine.execJsr target s
  | .rts => Sys2Proof.Machine.execRts s
  | .rti => Sys2Proof.Machine.execRti s
  | .brk => Sys2Proof.Machine.execBrk s
  | .bpl off => Sys2Proof.Machine.execBpl off s
  | .bmi off => Sys2Proof.Machine.execBmi off s
  | .bvc off => Sys2Proof.Machine.execBvc off s
  | .bvs off => Sys2Proof.Machine.execBvs off s
  | .bcc off => Sys2Proof.Machine.execBcc off s
  | .bcs off => Sys2Proof.Machine.execBcs off s
  | .bne off => Sys2Proof.Machine.execBne off s
  | .beq off => Sys2Proof.Machine.execBeq off s
  | .clc => Sys2Proof.Machine.execClc s
  | .sec => Sys2Proof.Machine.execSec s
  | .cli => Sys2Proof.Machine.execCli s
  | .sei => Sys2Proof.Machine.execSei s
  | .clv => Sys2Proof.Machine.execClv s
  | .cld => Sys2Proof.Machine.execCld s
  | .sed => Sys2Proof.Machine.execSed s
  | .nop which => Sys2Proof.Machine.execNop which s
  | .slo m => Sys2Proof.Machine.execSlo m s
  | .rla m => Sys2Proof.Machine.execRla m s
  | .sre m => Sys2Proof.Machine.execSre m s
  | .rra m => Sys2Proof.Machine.execRra m s
  | .dcp m => Sys2Proof.Machine.execDcp m s
  | .isc m => Sys2Proof.Machine.execIsc m s
  | .sax m => Sys2Proof.Machine.execSax m s
  | .lax m => Sys2Proof.Machine.execLax m s
  | .anc which b => Sys2Proof.Machine.execAnc which b s
  | .alr b => Sys2Proof.Machine.execAlr b s
  | .arr b => Sys2Proof.Machine.execArr b s
  | .axs b => Sys2Proof.Machine.execAxs b s
  | .las base => Sys2Proof.Machine.execLas base s
  | .nopImm which b => Sys2Proof.Machine.execNopImm which b s
  | .nopRead which m => Sys2Proof.Machine.execNopRead which m s
  | .usbc b => Sys2Proof.Machine.execUsbc b s
  | .ane b => Sys2Proof.Machine.execAne b s
  | .lxa b => Sys2Proof.Machine.execLxa b s
  | .sha m => Sys2Proof.Machine.execSha m s
  | .shx base => Sys2Proof.Machine.execShx base s
  | .shy base => Sys2Proof.Machine.execShy base s
  | .tas base => Sys2Proof.Machine.execTas base s
  | .jam which => Sys2Proof.Machine.execJam which s

end Sys2Proof.Machine
end

