-- ==== Sys2Proof/Machine/Fetch.lean ====
section
/-! DEFINITION. Fetching an instruction's bytes as bus cycles (R291 and the first rows of every table), and what a step does
around an instruction. -/

namespace Sys2Proof

/-- The instruction's last operand byte is fetched in its last cycle, which polls: immediate mode (R293), the branches' T1
(R311) and JMP absolute (R309). -/
def Instr.fetchPolls (i : Instr) : Bool :=
  match i with
  | .jmp _ => true
  | _ => i.mode == .imm || i.mode == .rel

/-- The third byte is not fetched with the other two: JSR reads it in its last cycle (R212, R306). -/
def Instr.fetchesHighLate (i : Instr) : Bool :=
  match i with
  | .jsr _ => true
  | _ => false

end Sys2Proof

namespace Sys2Proof.Machine

/-- The record of bus cycles is that of one step (R9). -/
def State.startStep (s : State) : State := { s with trace := [] }

/-- `intDecision` is cleared at every T0 (R340), and `T` is 0 there (R37). -/
def State.clearDecision (s : State) : State := (s.setT 0).setSig { s.sig with intDecision := false }

/-- One master clock cycle of a jammed CPU (R354): nothing of the CPU moves but the input record and the NMI detector. -/
def State.jammedCycle (s : State) : State := s.setSig s.sig.idleCycle

/-- Fetching one instruction byte: a read at `PC`, then `PC++` (R26, R291). -/
def State.fetchByte (s : State) (poll : Bool := false) : BusRun Byte :=
  (s.busRead s.pc poll).andThen fun v s => .done v (s.setPC (s.pc + 1))

/-- The fetch: T0 latches the opcode in `IR` (R291, R36); the operand bytes follow, low byte first (R100). JSR's third byte is
left for its last cycle; what stands there now is only seen, not read (log 14). -/
def State.fetch (s : State) : BusRun Instr :=
  s.fetchByte.andThen fun op s =>
  let s := s.setIR op
  match Opcode.entry op with
  | .f1 i => .done i s
  | .f2 make => (s.fetchByte (make 0).fetchPolls).andThen fun b1 s => .done (make b1) s
  | .f3 make =>
    s.fetchByte.andThen fun b1 s =>
    if (make 0).fetchesHighLate then .done (make (Word.ofBytes (s.spypeek s.pc) b1)) s
    else (s.fetchByte (make 0).fetchPolls).andThen fun b2 s => .done (make (Word.ofBytes b2 b1)) s

/-- An address whose three bytes from it on are all memory: `PC`, unless one of them is a port register, which cannot hold an
arbitrary byte (R44, R47); then $0200 (log 13). -/
def State.placeAddress (s : State) : Word :=
  if s.pc = 0x0000 ∨ s.pc = 0x0001 ∨ s.pc = 0xFFFE ∨ s.pc = 0xFFFF then 0x0200 else s.pc

/-- `s` with the three bytes of `v` (first byte lowest) where the next fetch reads, and nothing in the way of that fetch: not
jammed, no interrupt decided, no RESET in the coming cycles, no window of the platform there. -/
def State.placeInstruction (s : State) (v : Nat) : State :=
  let a := s.placeAddress
  { s with
    pc := a
    jam := false
    mem := ((s.mem.write a.toNat (BitVec.ofNat 8 v)).write (a + 1).toNat (BitVec.ofNat 8 (v / 256))).write (a + 2).toNat
      (BitVec.ofNat 8 (v / 65536))
    platform := { s.platform with windows := s.platform.windows.filter fun w =>
      !(decide (w.first.toNat ≤ (a + 2).toNat) && decide (a.toNat ≤ w.last.toNat)) }
    sig := { s.sig with intDecision := false, inputs := s.sig.inputs.map fun l => { l with reset := false } } }

end Sys2Proof.Machine
end

