-- ==== Sys2Proof/Machine/Step.lean ====
section
/-! DEFINITION. One step: a whole instruction, interrupt sequence or reset sequence, as the bus cycles it is made of (R9). -/

namespace Sys2Proof.Machine

/-- One step (R341, R346): a RESET asserted now comes before everything; a jammed CPU lets a master clock cycle pass (R354); an
interrupt decided by the last instruction's poll is taken (R340); else the next instruction is fetched and executed. -/
def step (s : State) : Host.Outcome State Fault Refusal :=
  let s := s.startStep
  if s.sig.resetNext then .next s.resetSequence
  else if s.jam then .next s.jammedCycle
  else if s.sig.intDecision then s.clearDecision.takeInterrupt.outcome
  else
    match s.clearDecision.fetch with
    | .done i s => exec i s
    | .reset s => .next s.resetSequence

/-- `s` with an instruction's bits stored where `step` fetches next (log 13). -/
def State.withFetchWord (s : State) (nbits w : Nat) : State := s.placeInstruction (w % 2 ^ nbits)

end Sys2Proof.Machine
end

