-- ==== Sys2Proof/Machine/Timing.lean ====
section
/-! DEFINITION. The cycle counts of R402, row by row, and the cycles that poll. `step` does not use them: it performs the cycles
themselves, and the record `trace` lists them; the statements compare the two. -/

namespace Sys2Proof

/-- One entry of R402's table. -/
inductive CycleCount where
  /-- The number of cycles. -/
  | fixed (n : Nat)
  /-- One more if the indexed address crosses a page. -/
  | plus (n : Nat)
  /-- 2, 3 if taken, 4 if taken to another page. -/
  | branch
  /-- The fetch cycle, then the CPU stops. -/
  | jam
  deriving DecidableEq, Repr

/-- Opcodes $00 to $0F (R402). -/
def CycleCount.row0 : List CycleCount := [
  .fixed 7, .fixed 6, .jam, .fixed 8, .fixed 3, .fixed 3, .fixed 5, .fixed 5,
  .fixed 3, .fixed 2, .fixed 2, .fixed 2, .fixed 4, .fixed 4, .fixed 6, .fixed 6]

/-- Opcodes $10 to $1F (R402). -/
def CycleCount.row1 : List CycleCount := [
  .branch, .plus 5, .jam, .fixed 8, .fixed 4, .fixed 4, .fixed 6, .fixed 6,
  .fixed 2, .plus 4, .fixed 2, .fixed 7, .plus 4, .plus 4, .fixed 7, .fixed 7]

/-- Opcodes $20 to $2F (R402). -/
def CycleCount.row2 : List CycleCount := [
  .fixed 6, .fixed 6, .jam, .fixed 8, .fixed 3, .fixed 3, .fixed 5, .fixed 5,
  .fixed 4, .fixed 2, .fixed 2, .fixed 2, .fixed 4, .fixed 4, .fixed 6, .fixed 6]

/-- Opcodes $30 to $3F (R402). -/
def CycleCount.row3 : List CycleCount := [
  .branch, .plus 5, .jam, .fixed 8, .fixed 4, .fixed 4, .fixed 6, .fixed 6,
  .fixed 2, .plus 4, .fixed 2, .fixed 7, .plus 4, .plus 4, .fixed 7, .fixed 7]

/-- Opcodes $40 to $4F (R402). -/
def CycleCount.row4 : List CycleCount := [
  .fixed 6, .fixed 6, .jam, .fixed 8, .fixed 3, .fixed 3, .fixed 5, .fixed 5,
  .fixed 3, .fixed 2, .fixed 2, .fixed 2, .fixed 3, .fixed 4, .fixed 6, .fixed 6]

/-- Opcodes $50 to $5F (R402). -/
def CycleCount.row5 : List CycleCount := [
  .branch, .plus 5, .jam, .fixed 8, .fixed 4, .fixed 4, .fixed 6, .fixed 6,
  .fixed 2, .plus 4, .fixed 2, .fixed 7, .plus 4, .plus 4, .fixed 7, .fixed 7]

/-- Opcodes $60 to $6F (R402). -/
def CycleCount.row6 : List CycleCount := [
  .fixed 6, .fixed 6, .jam, .fixed 8, .fixed 3, .fixed 3, .fixed 5, .fixed 5,
  .fixed 4, .fixed 2, .fixed 2, .fixed 2, .fixed 5, .fixed 4, .fixed 6, .fixed 6]

/-- Opcodes $70 to $7F (R402). -/
def CycleCount.row7 : List CycleCount := [
  .branch, .plus 5, .jam, .fixed 8, .fixed 4, .fixed 4, .fixed 6, .fixed 6,
  .fixed 2, .plus 4, .fixed 2, .fixed 7, .plus 4, .plus 4, .fixed 7, .fixed 7]

/-- Opcodes $80 to $8F (R402). -/
def CycleCount.row8 : List CycleCount := [
  .fixed 2, .fixed 6, .fixed 2, .fixed 6, .fixed 3, .fixed 3, .fixed 3, .fixed 3,
  .fixed 2, .fixed 2, .fixed 2, .fixed 2, .fixed 4, .fixed 4, .fixed 4, .fixed 4]

/-- Opcodes $90 to $9F (R402). -/
def CycleCount.row9 : List CycleCount := [
  .branch, .fixed 6, .jam, .fixed 6, .fixed 4, .fixed 4, .fixed 4, .fixed 4,
  .fixed 2, .fixed 5, .fixed 2, .fixed 5, .fixed 5, .fixed 5, .fixed 5, .fixed 5]

/-- Opcodes $A0 to $AF (R402). -/
def CycleCount.rowA : List CycleCount := [
  .fixed 2, .fixed 6, .fixed 2, .fixed 6, .fixed 3, .fixed 3, .fixed 3, .fixed 3,
  .fixed 2, .fixed 2, .fixed 2, .fixed 2, .fixed 4, .fixed 4, .fixed 4, .fixed 4]

/-- Opcodes $B0 to $BF (R402). -/
def CycleCount.rowB : List CycleCount := [
  .branch, .plus 5, .jam, .plus 5, .fixed 4, .fixed 4, .fixed 4, .fixed 4,
  .fixed 2, .plus 4, .fixed 2, .plus 4, .plus 4, .plus 4, .plus 4, .plus 4]

/-- Opcodes $C0 to $CF (R402). -/
def CycleCount.rowC : List CycleCount := [
  .fixed 2, .fixed 6, .fixed 2, .fixed 8, .fixed 3, .fixed 3, .fixed 5, .fixed 5,
  .fixed 2, .fixed 2, .fixed 2, .fixed 2, .fixed 4, .fixed 4, .fixed 6, .fixed 6]

/-- Opcodes $D0 to $DF (R402). -/
def CycleCount.rowD : List CycleCount := [
  .branch, .plus 5, .jam, .fixed 8, .fixed 4, .fixed 4, .fixed 6, .fixed 6,
  .fixed 2, .plus 4, .fixed 2, .fixed 7, .plus 4, .plus 4, .fixed 7, .fixed 7]

/-- Opcodes $E0 to $EF (R402). -/
def CycleCount.rowE : List CycleCount := [
  .fixed 2, .fixed 6, .fixed 2, .fixed 8, .fixed 3, .fixed 3, .fixed 5, .fixed 5,
  .fixed 2, .fixed 2, .fixed 2, .fixed 2, .fixed 4, .fixed 4, .fixed 6, .fixed 6]

/-- Opcodes $F0 to $FF (R402). -/
def CycleCount.rowF : List CycleCount := [
  .branch, .plus 5, .jam, .fixed 8, .fixed 4, .fixed 4, .fixed 6, .fixed 6,
  .fixed 2, .plus 4, .fixed 2, .fixed 7, .plus 4, .plus 4, .fixed 7, .fixed 7]

/-- R402's table, opcode $00 first. -/
def CycleCount.table : List CycleCount :=
  row0 ++ row1 ++ row2 ++ row3 ++ row4 ++ row5 ++ row6 ++ row7 ++
  row8 ++ row9 ++ rowA ++ rowB ++ rowC ++ rowD ++ rowE ++ rowF

/-- The entry of an opcode value (R402). -/
def Opcode.cycles (op : Byte) : CycleCount := CycleCount.table.getD op.toNat .jam

/-- `pageCross` (R110, R111, R114): adding the index carries out of the low byte of the address. -/
def Mem.crossesPage (m : Mem) (s : Machine.State) : Bool :=
  match m with
  | .abx w => decide (w.lo.toNat + s.x.toNat > 0xFF)
  | .aby w => decide (w.lo.toNat + s.y.toNat > 0xFF)
  | .izy b => decide ((s.spypeek (Machine.zeroPage b)).toNat + s.y.toNat > 0xFF)
  | .zp _ | .zpx _ | .zpy _ | .abs _ | .izx _ => false

/-- The operand in memory of the instructions whose count depends on it: the read instructions. -/
def Instr.readsFrom : Instr → Option Mem
  | .lda (.mem m) | .ldx (.mem m) | .ldy (.mem m) | .adc (.mem m) | .sbc (.mem m) | .and (.mem m) | .ora (.mem m)
  | .eor (.mem m) | .cmp (.mem m) | .lax m | .nopRead _ m => some m
  | .las w => some (.aby w)
  | _ => none

/-- A branch's condition and displacement (R217 to R224). -/
def Instr.branches (i : Instr) (p : Machine.Flags) : Option (Bool × Byte) :=
  match i with
  | .bpl off => some (!p.n, off)
  | .bmi off => some (p.n, off)
  | .bvc off => some (!p.v, off)
  | .bvs off => some (p.v, off)
  | .bcc off => some (!p.c, off)
  | .bcs off => some (p.c, off)
  | .bne off => some (!p.z, off)
  | .beq off => some (p.z, off)
  | _ => none

/-- The number of CPU cycles that R402 gives the instruction `i` standing at `PC`. -/
def Instr.cycleCount (i : Instr) (s : Machine.State) : Nat :=
  match Opcode.cycles (i.opcode.getD 0x02) with
  | .fixed n => n
  | .plus n => match i.readsFrom with
    | some m => if m.crossesPage s then n + 1 else n
    | none => n
  | .branch => match i.branches s.p with
    | some (true, off) => if (s.pc + 2 + Machine.sext16 off).hi = (s.pc + 2).hi then 3 else 4
    | _ => 2
  | .jam => 1

/-- The cycles, counted from 0, in which the instruction `i` standing at `PC` polls the interrupt inputs: its last (R340); a branch
in T1 and, if it leaves the page, in its last (R343); BRK and JAM in none (R312, R275). -/
def Instr.pollCycles (i : Instr) (s : Machine.State) : List Nat :=
  match i.branches s.p with
  | some _ => if i.cycleCount s = 4 then [1, 3] else [1]
  | none =>
    match i with
    | .brk | .jam _ => []
    | _ => [i.cycleCount s - 1]

end Sys2Proof
end

