-- ==== Sys2Proof/Safety.lean ====
section
/-! DEFINITION. The terms in which statements speak of states and runs: when nothing outside disturbs an instruction, what is
kept, what one store leaves, and the invariant of the machine. -/

namespace Sys2Proof.Machine

/-- RESET is asserted in none of the coming cycles (R380): an instruction that starts now ends. -/
def Signals.noReset (g : Signals) : Prop := ∀ l ∈ g.inputs, l.reset = false

/-- The bit's level no longer changes with time: it is not inside its decay interval (R49). -/
def Discharge.settled (d : Discharge) (now : Nat) : Prop :=
  match d with
  | .never | .already => True
  | .due cycle => cycle ≤ now

/-- No floating bit of the port is inside its decay interval, so a read of $0001 gives the same byte at every later cycle. -/
def Port.settled (p : Port) (now : Nat) : Prop :=
  p.float3.settled now ∧ p.float6.settled now ∧ p.float7.settled now

/-- Nothing but the instructions changes what they see: no RESET comes, the port's floating bits are settled, and behind the bus
is RAM alone, as in the vectors of 95_test_vectors.md. IRQ, NMI and RDY may have any levels. (What the platform's windows give and
take is said for every bus cycle by `Obligations.PlatformAnswersTheBus`.) -/
structure State.Calm (s : State) : Prop where
  noReset : s.sig.noReset
  settled : s.port.settled s.sig.clock
  flat    : s.platform.windows = []

/-- The program-visible registers together, so that one equation says what each of them holds afterwards. -/
structure Registers where
  a  : Byte
  x  : Byte
  y  : Byte
  sp : Byte
  pc : Word
  p  : Flags
  deriving DecidableEq, Repr

/-- The program-visible registers of a state (R21 to R27). -/
def State.regs (s : State) : Registers := { a := s.a, x := s.x, y := s.y, sp := s.sp, pc := s.pc, p := s.p }

/-- N and Z of a result byte, the other four flags kept (R8: `SetNZ`): negative as a signed byte, zero. -/
def Flags.withNZ (f : Flags) (v : Byte) : Flags := { f with n := decide (v.toInt < 0), z := decide (v = 0x00) }

/-- N, Z and C of a comparison of two bytes, the other three flags kept (R182): bit 7 of the difference, equality, and the
unsigned order. -/
def Flags.withCompare (f : Flags) (r m : Byte) : Flags :=
  { f with n := decide ((r - m).toInt < 0), z := decide (r = m), c := decide (m.toNat ≤ r.toNat) }

/-- The run of cycles ends in a next state, and that state satisfies `Q`. -/
def Completes (o : Host.Outcome State Fault Refusal) (Q : State → Prop) : Prop := ∃ t, o = .next t ∧ Q t

/-- Every byte that a read can see, other than those at the addresses of `stored`, is kept (R60, R61). -/
def BytesKeptBut (stored : List Word) (s t : State) : Prop := ∀ a : Word, a ∉ stored → t.spypeek a = s.spypeek a

/-- Nothing was stored: every byte that a read can see, every listed memory byte and both port registers are kept. -/
structure NothingStored (s t : State) : Prop where
  bytes : BytesKeptBut [] s t
  mem   : t.mem = s.mem
  port  : t.port = s.port

/-- What a store of `v` at `a` leaves (R61, R62, R44, R45): at a memory address the byte is there, every other byte reads as
before and the port is kept; at $0000 it is PDDR, at $0001 it is PDATA, the other port register and all of memory are kept. -/
structure StoredByte (s t : State) (a : Word) (v : Byte) : Prop where
  memory : a ≠ 0x0000 → a ≠ 0x0001 → t.spypeek a = v ∧ BytesKeptBut [a] s t ∧ t.port = s.port
  ddr    : a = 0x0000 → t.port.ddr = v ∧ t.port.data = s.port.data ∧ BytesKeptBut [0x0000, 0x0001] s t ∧ t.mem = s.mem
  data   : a = 0x0001 → t.port.data = v ∧ t.port.ddr = s.port.ddr ∧ BytesKeptBut [0x0001] s t ∧ t.mem = s.mem

/-- What no instruction but those that say so changes: `IR`, the jam flip-flop, the parameters and the platform's map; and `T` is 0
at its end. -/
structure RestKept (s t : State) : Prop where
  ir       : t.ir = s.ir
  jam      : t.jam = s.jam
  params   : t.params = s.params
  platform : t.platform = s.platform
  t        : t.t = 0

/-- `i` runs to its end from `s`: the registers are `r` afterwards, and nothing else changes. -/
def RunsTo (i : Instr) (s : State) (r : Registers) : Prop :=
  Completes (exec i s) fun t => t.regs = r ∧ NothingStored s t ∧ RestKept s t

/-- `i` runs to its end from `s`: `v` is stored at `a`, the registers are `r` afterwards, and nothing else changes. -/
def RunsStoring (i : Instr) (s : State) (a : Word) (v : Byte) (r : Registers) : Prop :=
  Completes (exec i s) fun t => t.regs = r ∧ StoredByte s t a v ∧ RestKept s t

/-- The stack address of the value `sp` of `SP` (R24, R69): $0100 + `sp`. -/
def stackByte (sp : Byte) : Word := 0x0100 + sp.zeroExtend 16

/-- The 16-bit value at `a`, low byte at the lower address (R64), as a debugger would see it. -/
def State.wordAt (s : State) (a : Word) : Word := Word.ofBytes (s.spypeek (a + 1)) (s.spypeek a)

/-- No NMI is pending and none comes (R337). -/
def Signals.noNmi (g : Signals) : Prop := g.nmiPending = false ∧ ∀ l ∈ g.inputs, l.nmi = false

/-- RDY holds no cycle that comes (R40). -/
def Signals.neverHeld (g : Signals) : Prop := ∀ l ∈ g.inputs, l.rdy = true

/-- The levels in the cycle `j` of those to come, counted from 0; past the end of `inputs` every line is at rest. -/
def Signals.lineAt (g : Signals) (j : Nat) : Lines := g.inputs.getD j .rest

/-- An edge of the NMI line in the cycle `j` of those to come (R337): asserted in it and not in the cycle before. -/
def Signals.nmiEdge (g : Signals) (j : Nat) : Bool :=
  (g.lineAt j).nmi && !(match j with | 0 => g.nmiPrev | k + 1 => (g.lineAt k).nmi)

/-- An NMI that a poll or vector choice in the cycle `n` finds pending (R337): pending now, or its edge is in an earlier cycle. -/
def Signals.nmiBefore (g : Signals) (n : Nat) : Bool := g.nmiPending || (List.range n).any g.nmiEdge

/-- The level of the IRQ line that a poll in the cycle `j` counts (R340): that of `IRQ_SAMPLE_POINT` cycles before, `irqHist` giving
those of the cycles already over. -/
def Signals.irqSeen (g : Signals) (k : IrqSample) (j : Nat) : Bool :=
  let levels := g.irqHist.h1 :: g.irqHist.h0 :: g.inputs.map fun l => l.irq
  match k with
  | .two => levels.getD j false
  | .one => levels.getD (j + 1) false

/-- What the entry sequence of an interrupt or BRK leaves (R344, R215): `ret` and the status image with `b` on the stack and no
other byte changed, `SP` three lower, `I` set, `PC` the word at `vec`, the other registers and flags kept. -/
structure Entered (s t : State) (ret : Word) (b : Bool) (vec : Word) : Prop where
  hi     : t.spypeek (stackByte s.sp) = ret.hi
  lo     : t.spypeek (stackByte (s.sp - 1)) = ret.lo
  status : t.spypeek (stackByte (s.sp - 2)) = s.p.image b
  other  : BytesKeptBut [stackByte s.sp, stackByte (s.sp - 1), stackByte (s.sp - 2)] s t
  port   : t.port = s.port
  regs   : t.regs = { s.regs with sp := s.sp - 3, pc := s.wordAt vec, p := { s.p with i := true } }

/-! ## The shift functions of R190 on numbers: carry in and byte give byte and carry out -/

/-- `Asl` (R190). -/
def Rule.asl (_c : Bool) (v : Byte) : Byte × Bool := (BitVec.ofNat 8 (2 * v.toNat), decide (v.toNat ≥ 128))
/-- `Lsr` (R190). -/
def Rule.lsr (_c : Bool) (v : Byte) : Byte × Bool := (BitVec.ofNat 8 (v.toNat / 2), decide (v.toNat % 2 = 1))
/-- `Rol` (R190). -/
def Rule.rol (c : Bool) (v : Byte) : Byte × Bool := (BitVec.ofNat 8 (2 * v.toNat + c.toNat), decide (v.toNat ≥ 128))
/-- `Ror` (R190). -/
def Rule.ror (c : Bool) (v : Byte) : Byte × Bool := (BitVec.ofNat 8 (v.toNat / 2 + 128 * c.toNat), decide (v.toNat % 2 = 1))

/-- The flags after a shift that gave `r` (R190): C its carry out, N and Z of its byte. -/
def Flags.withShift (f : Flags) (r : Byte × Bool) : Flags := { f with c := r.2 }.withNZ r.1

/-- The flags after an addition or subtraction that gave `r` (R171 to R174): N, V, Z and C. -/
def Flags.withAlu (f : Flags) (r : AluOut) : Flags := { f with n := r.n, v := r.v, z := r.z, c := r.c }

/-- The byte that two decimal digits make (R172). -/
def bcd (n : Nat) : Byte := BitVec.ofNat 8 (n / 10 * 16 + n % 10)

/-- The port is consistent (R49): a driven floating bit is charged exactly when it is driven to 1, and only a driven bit keeps
its charge for ever. -/
def Port.consistentBit (p : Port) (i : Nat) (d : Discharge) : Prop :=
  if p.ddr.getLsbD i then d = (if p.data.getLsbD i then .never else .already) else d ≠ .never

/-- `Port.consistentBit` for the three floating bits. -/
def Port.consistent (p : Port) : Prop :=
  p.consistentBit 3 p.float3 ∧ p.consistentBit 6 p.float6 ∧ p.consistentBit 7 p.float7

/-- The records of the input lines agree (R38, R53): between steps `nmiPrev` is the NMI level of the last cycle and `irqHist[0]`
the IRQ level of it. -/
def Signals.recorded (g : Signals) : Prop := g.nmiPrev = g.lines.nmi ∧ g.irqHist.h0 = g.lines.irq

/-- The part of the invariant that every bus cycle keeps. -/
structure State.Sound (s : State) : Prop where
  mem  : s.mem.offPort = true
  port : s.port.consistent
  sig  : s.sig.recorded

/-- The invariant of the machine between steps: memory in canonical form and off the port's addresses (R61), a consistent port
(R49), line records that agree (R38, R53), and `T` at 0 unless the CPU is jammed (R37). -/
structure State.Inv (s : State) : Prop where
  sound : s.Sound
  t     : s.jam = false → s.t = 0

/-! ## Which instructions write what (R21 to R34) -/

end Sys2Proof.Machine

namespace Sys2Proof

/-- The instructions that write `A` (R21). -/
def Instr.writesA : Instr → Bool
  | .lda _ | .pla | .txa | .tya | .adc _ | .sbc _ | .usbc _ | .and _ | .ora _ | .eor _
  | .asl .acc | .lsr .acc | .rol .acc | .ror .acc | .anc _ _ | .alr _ | .arr _ | .slo _ | .rla _ | .sre _ | .rra _ | .isc _
  | .lax _ | .lxa _ | .ane _ | .las _ => true
  | _ => false

/-- The instructions that write `X` (R22). -/
def Instr.writesX : Instr → Bool
  | .ldx _ | .tax | .tsx | .inx | .dex | .lax _ | .lxa _ | .axs _ | .las _ => true
  | _ => false

/-- The instructions that write `Y` (R23). -/
def Instr.writesY : Instr → Bool
  | .ldy _ | .tay | .iny | .dey => true
  | _ => false

/-- The instructions that write `SP` (R24). -/
def Instr.writesSP : Instr → Bool
  | .txs | .pha | .php | .pla | .plp | .jsr _ | .rts | .rti | .brk | .las _ | .tas _ => true
  | _ => false

/-- The instructions that write `D` (R31). -/
def Instr.writesD : Instr → Bool
  | .cld | .sed | .plp | .rti => true
  | _ => false

/-- The instructions that write `I` (R30). -/
def Instr.writesI : Instr → Bool
  | .cli | .sei | .plp | .rti | .brk => true
  | _ => false

/-- The instructions that write `V` (R34). -/
def Instr.writesV : Instr → Bool
  | .adc _ | .sbc _ | .usbc _ | .bit _ | .clv | .plp | .rti | .rra _ | .isc _ | .arr _ => true
  | _ => false

/-- "Instructions that write no flag at all" (R34). -/
def Instr.writesNoFlag : Instr → Bool
  | .sta _ | .stx _ | .sty _ | .txs | .pha | .php | .jmp _ | .jmpInd _ | .jsr _ | .rts
  | .bpl _ | .bmi _ | .bvc _ | .bvs _ | .bcc _ | .bcs _ | .bne _ | .beq _
  | .nop _ | .nopImm _ _ | .nopRead _ _ | .sax _ | .sha _ | .shx _ | .shy _ | .tas _ | .jam _ => true
  | _ => false

/-- The instructions that write memory or the port: the stores, the read-modify-write instructions and the pushes. -/
def Instr.stores : Instr → Bool
  | .sta _ | .stx _ | .sty _ | .sax _ | .sha _ | .shx _ | .shy _ | .tas _ | .pha | .php | .jsr _ | .brk
  | .asl (.mem _) | .lsr (.mem _) | .rol (.mem _) | .ror (.mem _) | .inc _ | .dec _
  | .slo _ | .rla _ | .sre _ | .rra _ | .dcp _ | .isc _ => true
  | _ => false

/-- The instructions of two cycles whose second cycle is a dummy read that polls (R292). -/
def Instr.isImplied : Instr → Bool
  | .tax | .tay | .txa | .tya | .tsx | .txs | .inx | .iny | .dex | .dey | .clc | .sec | .cli | .sei | .clv | .cld | .sed
  | .nop _ | .asl .acc | .lsr .acc | .rol .acc | .ror .acc => true
  | _ => false

end Sys2Proof

namespace Sys2Proof.Machine

/-- A safe run: `k` steps that all end in a next state (no fault, no refusal, R331). -/
def SafeRun (k : Nat) (s : State) : Prop := ∃ t, Sys2Proof.core.run k s = .next t

end Sys2Proof.Machine
end

