-- ==== Sys2Proof/Certificates/Slice0/Obligations.lean ====
section
/-! DEFINITION. The statements for the provers. Statements about `exec` are about the instruction once its bytes are fetched: `PC`
is past them (past the opcode and the low operand byte for JSR, past the opcode for BRK); `StepRunsTheDecodedInstruction` says
how a step comes to such a state. -/

open Sys2Proof Sys2Proof.Machine

/-! ## Encoding -/

/-- Decoding the encoding of a well-formed instruction, whatever bytes follow, gives the instruction and those bytes (R100, R102,
R117): no operand bit of any form is dropped. -/
def Obligations.DecodeOfEncodeIsTheInstruction : Prop :=
  ∀ (i : Instr) (rest : List Byte), WellFormed i → decode (encode i ++ rest) = .ok (i, rest)

/-- What the decoder accepts is well-formed, and its encoding is the bytes consumed (R117): no two byte strings share a
meaning. -/
def Obligations.DecodedBytesAreTheEncoding : Prop :=
  ∀ (bytes : List Byte) (i : Instr) (rest : List Byte),
    decode bytes = .ok (i, rest) → WellFormed i ∧ bytes = encode i ++ rest

/-- Every opcode value decodes (R119, R127), and exactly the twelve values of R119 are JAM. -/
def Obligations.EveryOpcodeDecodesAndTwelveJam : Prop :=
  ∀ op b1 b2 : Byte,
    (∃ i rest, decode [op, b1, b2] = .ok (i, rest)) ∧
    ((∃ k, Opcode.instr op b1 b2 = .jam k) ↔
      op ∈ [0x02, 0x12, 0x22, 0x32, 0x42, 0x52, 0x62, 0x72, 0x92, 0xB2, 0xD2, 0xF2])

/-- Words written out from the "Encodings" lines of the instructions' rules decode to the instruction they stand for. -/
def Obligations.SampleWordsDecode : Prop :=
  decode [0xBD, 0xF0, 0x12] = .ok (.lda (.mem (.abx 0x12F0)), []) ∧
  decode [0x96, 0xFF] = .ok (.stx (.zpy 0xFF), []) ∧
  decode [0x9A] = .ok (.txs, []) ∧
  decode [0x08] = .ok (.php, []) ∧
  decode [0x71, 0x80] = .ok (.adc (.mem (.izy 0x80)), []) ∧
  decode [0x2C, 0x00, 0x30] = .ok (.bit (.abs 0x3000), []) ∧
  decode [0x7E, 0xFF, 0x20] = .ok (.ror (.mem (.abx 0x20FF)), []) ∧
  decode [0x6C, 0xFF, 0x30] = .ok (.jmpInd 0x30FF, []) ∧
  decode [0xD0, 0xFE] = .ok (.bne 0xFE, []) ∧
  decode [0xB8] = .ok (.clv, []) ∧
  decode [0xDC, 0x01, 0x02] = .ok (.nopRead 4 (.abx 0x0201), []) ∧
  decode [0x83, 0x20] = .ok (.sax (.izx 0x20), []) ∧
  decode [0xF2] = .ok (.jam 11, [])

/-- The effective address of each mode as numbers (R106 to R111, R113, R114): zero-page indexing and pointers wrap in page zero,
absolute indexing at the top of memory. -/
def Obligations.EffectiveAddresses : Prop :=
  ∀ (s : State) (b : Byte) (w : Word),
    ((Mem.zp b).ea s).toNat = b.toNat ∧
    ((Mem.zpx b).ea s).toNat = (b.toNat + s.x.toNat) % 256 ∧
    ((Mem.zpy b).ea s).toNat = (b.toNat + s.y.toNat) % 256 ∧
    (Mem.abs w).ea s = w ∧
    ((Mem.abx w).ea s).toNat = (w.toNat + s.x.toNat) % 65536 ∧
    ((Mem.aby w).ea s).toNat = (w.toNat + s.y.toNat) % 65536 ∧
    ((Mem.izx b).ea s).toNat =
      (s.spypeek (BitVec.ofNat 16 ((b.toNat + s.x.toNat) % 256))).toNat +
        256 * (s.spypeek (BitVec.ofNat 16 ((b.toNat + s.x.toNat + 1) % 256))).toNat ∧
    ((Mem.izy b).ea s).toNat =
      ((s.spypeek (BitVec.ofNat 16 b.toNat)).toNat +
        256 * (s.spypeek (BitVec.ofNat 16 ((b.toNat + 1) % 256))).toNat + s.y.toNat) % 65536

/-! ## The machine -/

/-- Nothing stops the machine: every step of every state answers a next state (R331: no fault; R119: no illegal opcode; R354: a
jam is a state). -/
def Obligations.StepAlwaysAnswersANextState : Prop := ∀ s : State, ∃ t, step s = .next t

/-- Every step, from every state that meets the invariant, gives a state that meets it: memory stays canonical and off the
port's addresses (R61, R62), the port's floating bits stay consistent with its registers (R49), the records of the IRQ and NMI
lines stay the levels of the last cycle (R53, R38), and `T` is 0 between instructions (R37). -/
def Obligations.StepKeepsTheInvariant : Prop := ∀ s t : State, s.Inv → step s = .next t → t.Inv

/-- The state after reset meets the invariant. -/
def Obligations.ResetMeetsTheInvariant : Prop := State.reset.Inv

/-- What R51 gives a value to in the state after reset: `PC` is the word at the reset vector, `I` is 1, nothing is pending or
decided, not jammed, at an opcode fetch, the port all inputs with discharged bits. (`A`, `X`, `Y`, `SP`, the other flags, the
clock and the parameters are the model's choices, logs 7, 8, 9; nothing is said of them.) -/
def Obligations.ResetStateHasTheGivenValues : Prop :=
  State.reset.pc = State.reset.wordAt 0xFFFC ∧ State.reset.p.i = true ∧ State.reset.t = 0 ∧ State.reset.jam = false ∧
  State.reset.sig.nmiPending = false ∧ State.reset.sig.nmiPrev = State.reset.sig.lines.nmi ∧
  State.reset.sig.irqPending = false ∧ State.reset.sig.intDecision = false ∧
  State.reset.port.ddr = 0x00 ∧ State.reset.port.data = 0x00 ∧
  State.reset.port.float3.charged State.reset.sig.clock = false ∧
  State.reset.port.float6.charged State.reset.sig.clock = false ∧
  State.reset.port.float7.charged State.reset.sig.clock = false

/-- A step runs the instruction that stands at `PC`: with no RESET coming, no jam and no interrupt decided, the step is `exec` of
the decoded instruction in a state in which the bytes have been fetched (one cycle each), `PC` is past them, `IR` holds the
opcode, and every other register, memory and the port are as before. JSR's third byte is not fetched before `exec` (R212). -/
def Obligations.StepRunsTheDecodedInstruction : Prop :=
  ∀ (s : State) (i : Instr) (rest : List Byte),
    s.Calm → s.jam = false → s.sig.intDecision = false →
    decode [s.spypeek s.pc, s.spypeek (s.pc + 1), s.spypeek (s.pc + 2)] = .ok (i, rest) →
    ∃ u, step s = exec i u ∧ u.Calm ∧ u.ir = s.spypeek s.pc ∧ u.jam = false ∧ u.params = s.params ∧
      u.platform = s.platform ∧ NothingStored s u ∧
      u.regs = { s.regs with pc := s.pc + BitVec.ofNat 16 (if i.fetchesHighLate then 2 else i.length) } ∧
      u.t = (if i.fetchesHighLate then 2 else i.length)

/-- An interrupt that the last poll decided is taken instead of the next instruction (R344): `PC` as it is and the flags with
B = 0 are pushed, `I` is set, `D` and the other flags are kept, `PC` is the word at the vector, `IR` is $00 (R36). A pending NMI
goes before IRQ (R346); with no NMI, pending or coming, the vector is that of IRQ. With none coming none is pending afterwards: the
choice of $FFFA has cleared it (R338). Afterwards no interrupt is decided: `intDecision` (R39) was cleared at the first T0 (R340).
(That no cycle of the sequence polls, so that the decision stays cleared to its end, is the model's inference, log 24.) -/
def Obligations.DecidedInterruptIsTaken : Prop :=
  ∀ s : State, s.Calm → s.mem.wf = true → s.jam = false → s.sig.intDecision = true →
    Completes (step s) fun t => ∃ vec,
      (vec = 0xFFFA ∨ vec = 0xFFFE) ∧ (s.sig.nmiPending = true → vec = 0xFFFA) ∧ (s.sig.noNmi → vec = 0xFFFE) ∧
      ((∀ l ∈ s.sig.inputs, l.nmi = false) → t.sig.nmiPending = false) ∧
      Entered s t s.pc false vec ∧ t.ir = 0x00 ∧ t.t = 0 ∧ t.jam = false ∧ t.params = s.params ∧
      t.platform = s.platform ∧ t.sig.intDecision = false

/-- An NMI edge in the first four cycles of an IRQ or BRK sequence takes its vector over; one from the fifth cycle on does not
(R347). The pushed B is that of the sequence that started: 0 for IRQ, 1 for BRK. The choice of $FFFA clears `nmiPending` (R338), so
that afterwards an NMI is pending exactly if an edge came in the cycle of the choice or one of the two after it. -/
def Obligations.LateNmiTakesTheVectorOver : Prop :=
  ∀ s : State, s.Calm → s.mem.wf = true → s.jam = false → s.sig.neverHeld →
    (s.sig.intDecision = true ∨ s.spypeek s.pc = 0x00) →
    Completes (step s) fun t =>
      t.pc = s.wordAt (if s.sig.nmiBefore 4 then 0xFFFA else 0xFFFE) ∧
      t.sig.nmiPending = (s.sig.nmiEdge 4 || s.sig.nmiEdge 5 || s.sig.nmiEdge 6) ∧
      t.spypeek (stackByte (s.sp - 2)) = s.p.image (!s.sig.intDecision)

/-- A RESET asserted in the next cycle is obeyed in every state, jammed or not (R334, R346), and its end state is that of R381:
`I` set, `PC` from the vector at $FFFC as the cleared port maps it, the port cleared, nothing pending; `A`, `X`, `Y`, the other
flags and memory kept, whatever RESETs follow (each starts the sequence again); read cycles only (R314). `SP` is three lower for a
RESET held through any number of cycles, and with no further RESET there are seven cycles.
(By inference the model has it that the cycle of the RESET is itself the first of the seven (log 18), that a RESET inside the
sequence starts it again (log 3), and that an NMI edge inside the sequence is lost (log 23).) -/
def Obligations.ResetSequenceEndState : Prop :=
  ∀ (s : State) (l : Lines) (rest : List Lines), s.sig.inputs = l :: rest → l.reset = true →
    Completes (step s) fun t =>
      (s.resetClear.responder 0xFFFC ≠ some .device → s.resetClear.responder 0xFFFD ≠ some .device →
        t.pc = s.resetClear.wordAt 0xFFFC) ∧
      (∀ front back, s.sig.inputs = front ++ back → front ≠ [] → (∀ m ∈ front, m.reset = true) →
        (∀ m ∈ back, m.reset = false) → t.sp = s.sp - 3) ∧
      ((∀ m ∈ rest, m.reset = false) → t.trace.length = 7) ∧
      t.a = s.a ∧ t.x = s.x ∧ t.y = s.y ∧ t.p = { s.p with i := true } ∧
      t.mem = s.mem ∧ t.port.ddr = 0x00 ∧ t.port.data = 0x00 ∧
      t.port.float3 = .already ∧ t.port.float6 = .already ∧ t.port.float7 = .already ∧
      t.jam = false ∧ t.ir = 0x00 ∧ t.t = 0 ∧ t.params = s.params ∧ t.platform.windows = s.platform.windows ∧
      t.sig.nmiPending = false ∧ t.sig.nmiPrev = t.sig.lines.nmi ∧ t.sig.irqPending = false ∧ t.sig.intDecision = false ∧
      (∀ c ∈ t.trace, c.write = false)

/-- A RESET abandons an instruction or interrupt sequence: "whatever cycles it has performed, including writes, stay performed, the
rest never happen" (R380). In its second cycle: one cycle was performed, and the end state is that of a reset from the registers
before the instruction. In the cycle of any read or write, whatever was performed before it: the access does not happen, nor
anything after it, and the reset sequence starts from the state as it is; in a read that RDY holds, after the held cycles. So a
JSR that meets it after its pushes has stored the bytes pushed and has not jumped.
(By inference the model has it that nothing of the instruction is performed in the cycle of the RESET, which is the first of the
seven, so that there are 1 + 7 cycles (log 18); and that a RESET inside the reset sequence starts it again (log 3).) -/
def Obligations.ResetAbandonsTheInstruction : Prop :=
  (∀ (s : State) (l0 l1 : Lines) (rest : List Lines),
    s.sig.inputs = l0 :: l1 :: rest → l0.reset = false → l0.rdy = true → l1.reset = true → s.jam = false →
    (s.sig.intDecision = false → ∀ k, Opcode.instr (s.spypeek s.pc) 0x00 0x00 ≠ .jam k) →
    Completes (step s) fun t =>
      (s.resetClear.responder 0xFFFC ≠ some .device → s.resetClear.responder 0xFFFD ≠ some .device →
        t.pc = s.resetClear.wordAt 0xFFFC) ∧
      ((∀ m ∈ rest, m.reset = false) → t.sp = s.sp - 3 ∧ t.trace.length = 8) ∧
      t.a = s.a ∧ t.x = s.x ∧ t.y = s.y ∧ t.p = { s.p with i := true } ∧
      t.mem = s.mem ∧ t.port.ddr = 0x00 ∧ t.port.data = 0x00 ∧ t.jam = false ∧ t.t = 0) ∧
  (∀ (s : State) (held : List Lines) (l : Lines) (rest : List Lines) (a : Word) (v : Byte) (poll : Bool),
    s.sig.inputs = held ++ l :: rest → (∀ m ∈ held, m.reset = false ∧ m.rdy = false) → l.reset = true →
    ∃ u, u.sig.clock = s.sig.clock + held.length ∧ u.sig.inputs = l :: rest ∧ u.regs = s.regs ∧ u.mem = s.mem ∧
      u.port = s.port ∧ u.platform = s.platform ∧ u.trace = s.trace ∧
      (∀ next : Byte → State → BusRun Unit, ((s.busRead a poll).andThen next).outcome = .next u.resetSequence) ∧
      (held = [] → u = s ∧
        ∀ next : Unit → State → BusRun Unit, ((s.busWrite a v poll).andThen next).outcome = .next u.resetSequence)) ∧
  ∀ (s : State) (w : Word) (l0 l1 l2 l3 : Lines) (rest : List Lines),
    s.sig.inputs = l0 :: l1 :: l2 :: l3 :: rest → (∀ m ∈ [l0, l1], m.reset = false ∧ m.rdy = true) →
    s.platform.windows = [] →
    (l2.reset = true → Completes (exec (.jsr w) s) fun t =>
      t.mem = s.mem.write (stackByte s.sp).toNat s.pc.hi ∧ t.pc = s.wordAt 0xFFFC ∧
      ((∀ m ∈ l3 :: rest, m.reset = false) → t.sp = s.sp - 4)) ∧
    (l2.reset = false → l3.reset = true → Completes (exec (.jsr w) s) fun t =>
      t.mem = (s.mem.write (stackByte s.sp).toNat s.pc.hi).write (stackByte (s.sp - 1)).toNat s.pc.lo ∧
      t.pc = s.wordAt 0xFFFC ∧ ((∀ m ∈ rest, m.reset = false) → t.sp = s.sp - 5))

/-- A jammed CPU lets one master clock cycle pass (R354): no bus access, no change of a register, flag, latch, `T`, memory or the
port; IRQ and NMI are not taken, `irqPending` and `intDecision` (R39) are kept; the cycle has the levels that come next (R43), the
NMI detector keeps running (R337), and so does the record of the IRQ line (R53).
(That a step of a jammed CPU is one master clock cycle, so that the clock is one higher, is the model's choice, log 16.) -/
def Obligations.JammedCpuDoesNothing : Prop :=
  ∀ s : State, s.jam = true → s.sig.resetNext = false →
    Completes (step s) fun t =>
      t.regs = s.regs ∧ t.ir = s.ir ∧ t.t = s.t ∧ t.latch = s.latch ∧ t.mem = s.mem ∧ t.port = s.port ∧
      t.params = s.params ∧ t.platform = s.platform ∧ t.jam = true ∧ t.trace = [] ∧ t.sig.clock = s.sig.clock + 1 ∧
      t.sig.lines = s.sig.lineAt 0 ∧ t.sig.inputs = s.sig.inputs.tail ∧ t.sig.irqPending = s.sig.irqPending ∧
      t.sig.nmiPending = (s.sig.nmiPending || (t.sig.lines.nmi && !s.sig.nmiPrev)) ∧ t.sig.nmiPrev = t.sig.lines.nmi ∧
      t.sig.irqHist = { h0 := t.sig.lines.irq, h1 := s.sig.irqHist.h0, h2 := s.sig.irqHist.h1 } ∧
      t.sig.intDecision = s.sig.intDecision

/-- A pending NMI stays pending over every step that is no interrupt or BRK sequence (those leave $00 in `IR`) and no reset
(R338). And it is decided by every instruction but BRK (whose sequence has no poll) and JAM (R340, R343: every other instruction
has a poll): the next step takes it. -/
def Obligations.PendingNmiIsKeptAndDecided : Prop :=
  ∀ s t : State, s.sig.noReset → step s = .next t → s.sig.nmiPending = true →
    (t.sig.nmiPending = false → s.jam = false ∧ t.ir = 0x00) ∧
    (s.jam = false → s.sig.intDecision = false → t.ir ≠ 0x00 → t.jam = false → t.sig.intDecision = true)

/-- The poll of the implied and accumulator forms of two cycles (R292, R340), with no cycle held by RDY: it counts the IRQ level two
cycles before the last cycle (or one, by the parameter), masked with the `I` of before the instruction, also when the instruction
changes `I` (R342: CLI, SEI). (The other forms: `EveryInstructionPollsInItsPollCycles`.) -/
def Obligations.ImpliedInstructionsPollWithTheOldI : Prop :=
  ∀ (i : Instr) (s : State), i.isImplied = true → s.sig.noReset → s.sig.neverHeld →
    Completes (exec i s) fun t =>
      t.sig.irqPending =
        ((match s.params.irqSample with | .two => s.sig.irqHist.h1 | .one => s.sig.irqHist.h0) && !s.p.i) ∧
      t.sig.intDecision = (s.sig.intDecision || s.sig.nmiPending || t.sig.irqPending)

/-- The polls of every instruction, with no cycle held by RDY. The poll cycles are the last cycle of the instruction; for a branch
T1, and its last cycle again when it leaves the page; none for BRK and JAM (R340, R343, R312). A poll decides an interrupt when an
NMI was pending before its cycle, or when the IRQ line was asserted `IRQ_SAMPLE_POINT` cycles earlier and `I` is 0; that `I` is the
one of before the instruction, also for CLI, SEI and PLP, but for RTI the restored one (R342). `irqPending` is the IRQ part of the
last poll. -/
def Obligations.EveryInstructionPollsInItsPollCycles : Prop :=
  ∀ (s : State) (i : Instr) (rest : List Byte),
    s.Calm → s.sig.neverHeld → s.jam = false → s.sig.intDecision = false →
    decode [s.spypeek s.pc, s.spypeek (s.pc + 1), s.spypeek (s.pc + 2)] = .ok (i, rest) →
    let mask := if i = .rti then (s.spypeek (stackByte (s.sp + 1))).getLsbD 2 else s.p.i
    let irq := fun c => s.sig.irqSeen s.params.irqSample c && !mask
    Completes (step s) fun t =>
      t.sig.intDecision = (i.pollCycles s).any (fun c => s.sig.nmiBefore c || irq c) ∧
      t.sig.irqPending = ((i.pollCycles s).getLast?.map irq).getD s.sig.irqPending

/-- A branch that is not taken, or taken inside the page, does not poll after its operand fetch; one that leaves the page polls
in its last cycle (R343), which is the second after the operand fetch. -/
def Obligations.BranchesPollAgainOnlyAcrossPages : Prop :=
  ∀ (i : Instr) (s : State) (cond : Bool) (off : Byte), i.branches s.p = some (cond, off) → s.sig.noReset →
    ((cond = false ∨ (s.pc + off.signExtend 16).hi = s.pc.hi) →
      Completes (exec i s) fun t => t.sig.intDecision = s.sig.intDecision ∧ t.sig.irqPending = s.sig.irqPending) ∧
    (∀ (l0 : Lines) (rest : List Lines), cond = true → (s.pc + off.signExtend 16).hi ≠ s.pc.hi → s.sig.neverHeld →
      s.sig.inputs = l0 :: rest →
      Completes (exec i s) fun t =>
        t.sig.irqPending =
          ((match s.params.irqSample with | .two => s.sig.irqHist.h0 | .one => l0.irq) && !s.p.i) ∧
        t.sig.intDecision =
          (s.sig.intDecision || s.sig.nmiPending || (l0.nmi && !s.sig.nmiPrev) || t.sig.irqPending))

/-- RTI polls with the `I` that it restored (R342): with bit 2 of the pulled byte set no IRQ is seen; with it clear the IRQ level
two cycles before its last cycle (or one, by the parameter) counts. -/
def Obligations.RtiPollsWithTheRestoredI : Prop :=
  ∀ (s : State) (l0 l1 l2 l3 : Lines) (rest : List Lines), s.Calm → s.sig.neverHeld → s.sig.noNmi →
    s.sig.inputs = l0 :: l1 :: l2 :: l3 :: rest →
    Completes (exec .rti s) fun t =>
      t.sig.intDecision = (s.sig.intDecision ||
        ((match s.params.irqSample with | .two => l2.irq | .one => l3.irq) &&
          !(s.spypeek (stackByte (s.sp + 1))).getLsbD 2))

/-- RDY at 0 holds a read cycle and only that (R40, R317, R350): the cycle passes with nothing but the clock, the IRQ record and
the NMI detector moving, and the same read is tried in the next; a write is performed in the cycle whatever RDY is. -/
def Obligations.RdyHoldsReadsAndNotWrites : Prop :=
  ∀ (s : State) (a : Word) (v : Byte) (poll : Bool) (l : Lines) (rest : List Lines),
    s.sig.inputs = l :: rest → l.reset = false →
    (l.rdy = false →
      s.busRead a poll = (s.setSig
        { clock := s.sig.clock + 1, lines := l, inputs := rest,
          irqHist := { h0 := l.irq, h1 := s.sig.irqHist.h0, h2 := s.sig.irqHist.h1 },
          nmiPrev := l.nmi, nmiPending := s.sig.nmiPending || (l.nmi && !s.sig.nmiPrev),
          irqPending := s.sig.irqPending, intDecision := s.sig.intDecision }).busRead a poll) ∧
    ∃ t, s.busWrite a v poll = .done () t ∧ t.sig.clock = s.sig.clock + 1 ∧ t.sig.inputs = rest ∧
      t.trace = s.trace ++ [{ t := s.t, clock := s.sig.clock, write := true, addr := a, data := v }]

/-- Every instruction performs the number of bus cycles that R402's table gives its opcode: with the page-crossing and branch
surcharges, and one for JAM. -/
def Obligations.EveryInstructionTakesItsCycles : Prop :=
  ∀ (s : State) (i : Instr) (rest : List Byte),
    s.Calm → s.jam = false → s.sig.intDecision = false →
    decode [s.spypeek s.pc, s.spypeek (s.pc + 1), s.spypeek (s.pc + 2)] = .ok (i, rest) →
    Completes (step s) fun t => t.trace.length = i.cycleCount s

/-- A read of $0001, bit by bit (R47), and the levels that the port presents to the rest of the machine (R48): the driven level of
an output; of an input, the charge of the floating bits 3, 6, 7, and the level of PORT_EXTERNAL for the others; LORAM, HIRAM and
CHAREN are the levels of bits 0, 1, 2. With PORT_EXTERNAL at its default $17 the inputs are those of R47: bits 0 to 2 pulled up, bit
4 at 1, bit 5 at 0.
(The levels of the inputs are the spec's decision D7, which leaves them open; that every bit of PORT_EXTERNAL counts is log 25.) -/
def Obligations.PortReadBlendsDrivenAndExternalBits : Prop :=
  ∀ s : State,
    let driven := fun i level => if s.port.ddr.getLsbD i then s.port.data.getLsbD i else level
    let level := fun i =>
      match i with
      | 3 => s.port.float3.charged s.sig.clock
      | 6 => s.port.float6.charged s.sig.clock
      | 7 => s.port.float7.charged s.sig.clock
      | _ => s.params.portExternal.getLsbD i
    (∀ i < 8, (s.spypeek 0x0001).getLsbD i = driven i (level i) ∧
      s.port.out s.sig.clock s.params i = driven i (level i)) ∧
    s.port.loram s.params = driven 0 (level 0) ∧ s.port.hiram s.params = driven 1 (level 1) ∧
    s.port.charen s.params = driven 2 (level 2) ∧
    (s.params.portExternal = 0x17 →
      s.port.loram s.params = driven 0 true ∧ s.port.hiram s.params = driven 1 true ∧
      s.port.charen s.params = driven 2 true ∧ (s.spypeek 0x0001).getLsbD 4 = driven 4 true ∧
      (s.spypeek 0x0001).getLsbD 5 = driven 5 false)

/-- What the platform answers (R61, R66, R78, R82), for every bus cycle at an address that is not the port's. The first window
that covers the address in the banking configuration of the port (R48) answers; with none RAM does. A device gives the next of
its answers, used up also by a dummy read; a ROM gives its byte, and a write to it goes to the RAM beneath (R80). The CPU takes
the byte as it is: LDA loads it, and an indexed LDA that crosses a page reads twice.
(That a banking bit which is an input has the level of PORT_EXTERNAL is the model's inference, log 25; R48 writes 1, the default.
That a device's answers stand in State as a list, and that a write to a device leaves no trace in memory, is the model's choice, log
26; R80 calls the write to a ROM a property of the platform.) -/
def Obligations.PlatformAnswersTheBus : Prop :=
  ∀ (s : State) (a : Word), s.sig.noReset → s.sig.neverHeld → a ≠ 0x0000 → a ≠ 0x0001 →
    let level := fun i => if s.port.ddr.getLsbD i then s.port.data.getLsbD i else s.params.portExternal.getLsbD i
    let bank := 4 * (level 2).toNat + 2 * (level 1).toNat + (level 0).toNat
    let window := s.platform.windows.find? fun w =>
      w.banks.getLsbD bank && decide (w.first.toNat ≤ a.toNat ∧ a.toNat ≤ w.last.toNat)
    let answer := s.platform.answers.headD (Config.openBus s.sig.clock a)
    let reads := fun (v : Byte) (p : Platform) =>
      ∀ poll, ∃ t, s.busRead a poll = .done v t ∧ t.platform = p ∧ t.mem = s.mem ∧ t.port = s.port
    let writes := fun (v : Byte) (m : Memory) =>
      ∀ poll, ∃ t, s.busWrite a v poll = .done () t ∧ t.platform = s.platform ∧ t.mem = m ∧ t.port = s.port
    (window = none → reads (s.mem.read a.toNat) s.platform ∧ ∀ v, writes v (s.mem.write a.toNat v)) ∧
    (∀ w bytes, window = some w → w.responder = .rom bytes →
      reads (bytes.read a.toNat) s.platform ∧ ∀ v, writes v (s.mem.write a.toNat v)) ∧
    (∀ w, window = some w → w.responder = .device →
      reads answer { s.platform with answers := s.platform.answers.tail } ∧ (∀ v, writes v s.mem) ∧
      Completes (exec (.lda (.mem (.abs a))) s) fun t =>
        t.a = answer ∧ t.p = s.p.withNZ answer ∧ t.platform.answers = s.platform.answers.tail) ∧
    (∀ (base : Word) (first second : Byte) (later : List Byte), s.platform.answers = first :: second :: later →
      base.lo.toNat + s.x.toNat > 255 → a = base + s.x.zeroExtend 16 →
      s.responder a = some .device → s.responder (Word.ofBytes base.hi a.lo) = some .device →
      Completes (exec (.lda (.mem (.abx base))) s) fun t =>
        t.a = second ∧ t.p = s.p.withNZ second ∧ t.platform.answers = later)

/-- The charge of the floating bits (R49): after a write of PDDR or PDATA a driven bit is charged for ever or discharged, as it is
driven; a released bit that was 1 keeps its charge for PORT_DECAY_CYCLES cycles, one that was 0 has none; an input before and
after is unchanged. A bit is charged while its deadline is not reached.
(The decay model is the spec's decision D8.) -/
def Obligations.FloatingBitsDecay : Prop :=
  ∀ (s : State) (a : Word) (v : Byte), (a = 0x0000 ∨ a = 0x0001) →
    (∀ (i : Nat) (old new : Discharge),
      (i, old, new) ∈ [(3, s.port.float3, (s.poke a v).port.float3), (6, s.port.float6, (s.poke a v).port.float6),
        (7, s.port.float7, (s.poke a v).port.float7)] →
      let newDir := (if a = 0x0000 then v else s.port.ddr).getLsbD i
      let newData := (if a = 0x0001 then v else s.port.data).getLsbD i
      (newDir = true → new = if newData then .never else .already) ∧
      (newDir = false → s.port.ddr.getLsbD i = true →
        new = if s.port.data.getLsbD i then .due (s.sig.clock + s.params.portDecay) else .already) ∧
      (newDir = false → s.port.ddr.getLsbD i = false → new = old)) ∧
    ∀ (d : Discharge) (now : Nat), d.charged now = true ↔ d = .never ∨ ∃ c, d = .due c ∧ now < c

/-! ## Whole-machine rules: which instructions write what -/

/-- `D` is written by CLD, SED, PLP and RTI only, not even by a RESET (R31, R394); `I` by CLI, SEI, PLP, RTI, BRK (R30), `V` by the
ten instructions of R34, when no RESET comes. -/
def Obligations.OnlyTheListedInstructionsWriteDAndIAndV : Prop :=
  ∀ (i : Instr) (s t : State), exec i s = .next t →
    (i.writesD = false → t.p.d = s.p.d) ∧
    (s.sig.noReset → i.writesI = false → t.p.i = s.p.i) ∧
    (s.sig.noReset → i.writesV = false → t.p.v = s.p.v)

/-- The instructions that R34 lists as writing no flag at all write none. -/
def Obligations.FlaglessInstructionsKeepEveryFlag : Prop :=
  ∀ (i : Instr) (s : State), i.writesNoFlag = true → s.sig.noReset → Completes (exec i s) fun t => t.p = s.p

/-- `A`, `X`, `Y` and `SP` are written by no instruction but those that R21 to R24 list. -/
def Obligations.OnlyTheListedInstructionsWriteTheRegisters : Prop :=
  ∀ (i : Instr) (s : State), s.sig.noReset → Completes (exec i s) fun t =>
    (i.writesA = false → t.a = s.a) ∧ (i.writesX = false → t.x = s.x) ∧ (i.writesY = false → t.y = s.y) ∧
    (i.writesSP = false → t.sp = s.sp)

/-- Memory and the port registers are written by the stores, the read-modify-write instructions and the pushes only. -/
def Obligations.OnlyStoringInstructionsWriteMemory : Prop :=
  ∀ (i : Instr) (s : State), s.sig.noReset → i.stores = false → Completes (exec i s) fun t => t.mem = s.mem ∧ t.port = s.port

/-! ## Instructions -/

/-- LDA, LDX, LDY (R141 to R143) and LAX (R256), for every operand form: the operand, with N and Z of it. -/
def Obligations.LoadsLoadTheOperand : Prop :=
  ∀ s : State, s.Calm →
    (∀ o : Src, RunsTo (.lda o) s { s.regs with a := o.value s, p := s.p.withNZ (o.value s) }) ∧
    (∀ o : Src, RunsTo (.ldx o) s { s.regs with x := o.value s, p := s.p.withNZ (o.value s) }) ∧
    (∀ o : Src, RunsTo (.ldy o) s { s.regs with y := o.value s, p := s.p.withNZ (o.value s) }) ∧
    (∀ m : Mem, RunsTo (.lax m) s
      { s.regs with a := s.spypeek (m.ea s), x := s.spypeek (m.ea s), p := s.p.withNZ (s.spypeek (m.ea s)) })

/-- STA, STX, STY (R144 to R146) and SAX (R255), for every operand form: the byte goes to the effective address, no register or
flag changes. -/
def Obligations.StoresStoreTheRegister : Prop :=
  ∀ s : State, s.Calm → s.mem.wf = true → ∀ m : Mem,
    RunsStoring (.sta m) s (m.ea s) s.a s.regs ∧
    RunsStoring (.stx m) s (m.ea s) s.x s.regs ∧
    RunsStoring (.sty m) s (m.ea s) s.y s.regs ∧
    RunsStoring (.sax m) s (m.ea s) (s.a &&& s.x) s.regs

/-- The six transfers with their opcodes (R147 to R152): the destination gets the source, N and Z of it, except TXS, which writes
no flag. -/
def Obligations.TransfersCopyTheRegister : Prop :=
  (encode .tax = [0xAA] ∧ encode .tay = [0xA8] ∧ encode .txa = [0x8A] ∧ encode .tya = [0x98] ∧ encode .tsx = [0xBA] ∧
    encode .txs = [0x9A]) ∧
  ∀ s : State, s.Calm →
    RunsTo .tax s { s.regs with x := s.a, p := s.p.withNZ s.a } ∧
    RunsTo .tay s { s.regs with y := s.a, p := s.p.withNZ s.a } ∧
    RunsTo .txa s { s.regs with a := s.x, p := s.p.withNZ s.x } ∧
    RunsTo .tya s { s.regs with a := s.y, p := s.p.withNZ s.y } ∧
    RunsTo .tsx s { s.regs with x := s.sp, p := s.p.withNZ s.sp } ∧
    RunsTo .txs s { s.regs with sp := s.x }

/-- The pushed image of `P` and its inverse (R35): N, V, 1, b, D, I, Z, C from bit 7 down; loading takes the six flags back from
their bits and ignores bits 5 and 4. -/
def Obligations.StatusImageAndItsInverse : Prop :=
  (∀ (f : Flags) (b : Bool), (f.image b).toNat =
    128 * f.n.toNat + 64 * f.v.toNat + 32 + 16 * b.toNat + 8 * f.d.toNat + 4 * f.i.toNat + 2 * f.z.toNat + f.c.toNat) ∧
  ∀ v : Byte, Flags.ofByte v =
    { n := v.getLsbD 7, v := v.getLsbD 6, d := v.getLsbD 3, i := v.getLsbD 2, z := v.getLsbD 1, c := v.getLsbD 0 }

/-- PHA and PHP (R161, R162): `A`, or the image of `P` with B = 1, is stored at $0100 + `SP`, then `SP` is decremented modulo 256;
no flag changes. -/
def Obligations.PushesStoreBelowTheStack : Prop :=
  ∀ s : State, s.Calm → s.mem.wf = true →
    RunsStoring .pha s (stackByte s.sp) s.a { s.regs with sp := s.sp - 1 } ∧
    RunsStoring .php s (stackByte s.sp) (s.p.image true) { s.regs with sp := s.sp - 1 }

/-- PLA and PLP (R163, R164): `SP` is incremented modulo 256 and the byte at $0100 + `SP` goes to `A`, with N and Z of it, or to
the six flags. -/
def Obligations.PullsLoadAboveTheStack : Prop :=
  ∀ s : State, s.Calm →
    RunsTo .pla s { s.regs with
      a := s.spypeek (stackByte (s.sp + 1)), sp := s.sp + 1, p := s.p.withNZ (s.spypeek (stackByte (s.sp + 1))) } ∧
    RunsTo .plp s { s.regs with sp := s.sp + 1, p := Flags.ofByte (s.spypeek (stackByte (s.sp + 1))) }

/-- ADC and SBC (R171, R173), and SBC under $EB (R267), for every operand form and both modes: `A` and the flags N, V, Z, C are
what the ALU of the mode that `D` chooses gives for `A`, the operand and `C`. (`BinaryAluIsSignedAndUnsignedArithmetic` and
`DecimalModeByteAndFlags` say what that is.) -/
def Obligations.AdcAndSbcWriteTheAluResult : Prop :=
  ∀ s : State, s.Calm →
    (∀ o : Src,
      let r := if s.p.d then addDecimal s.a (o.value s) s.p.c else addBinary s.a (o.value s) s.p.c
      RunsTo (.adc o) s { s.regs with a := r.val, p := s.p.withAlu r }) ∧
    (∀ o : Src,
      let r := if s.p.d then subDecimal s.a (o.value s) s.p.c else subBinary s.a (o.value s) s.p.c
      RunsTo (.sbc o) s { s.regs with a := r.val, p := s.p.withAlu r }) ∧
    (∀ b : Byte,
      let r := if s.p.d then subDecimal s.a b s.p.c else subBinary s.a b s.p.c
      RunsTo (.usbc b) s { s.regs with a := r.val, p := s.p.withAlu r })

/-- Binary addition and subtraction (R170, R171, R173): the byte is the exact sum or difference modulo 256, C is the carry out or
the absence of a borrow, V is 1 exactly when the signed result lies outside -128 to 127, N and Z are those of the byte. -/
def Obligations.BinaryAluIsSignedAndUnsignedArithmetic : Prop :=
  ∀ (a m : Byte) (c : Bool),
    (addBinary a m c).val.toNat = (a.toNat + m.toNat + c.toNat) % 256 ∧
    ((addBinary a m c).c = true ↔ a.toNat + m.toNat + c.toNat > 255) ∧
    ((addBinary a m c).v = true ↔ a.toInt + m.toInt + c.toNat < -128 ∨ a.toInt + m.toInt + c.toNat > 127) ∧
    ((addBinary a m c).n = true ↔ (addBinary a m c).val.toInt < 0) ∧
    ((addBinary a m c).z = true ↔ (addBinary a m c).val = 0) ∧
    ((subBinary a m c).val.toNat : Int) = ((a.toNat : Int) - m.toNat - (1 - c.toNat)) % 256 ∧
    ((subBinary a m c).c = true ↔ a.toNat ≥ m.toNat + (1 - c.toNat)) ∧
    ((subBinary a m c).v = true ↔
      a.toInt - m.toInt - (1 - c.toNat) < -128 ∨ a.toInt - m.toInt - (1 - c.toNat) > 127) ∧
    ((subBinary a m c).n = true ↔ (subBinary a m c).val.toInt < 0) ∧
    ((subBinary a m c).z = true ↔ (subBinary a m c).val = 0)

/-- The equivalences of R183: binary subtraction is addition of the complement in the byte and all four flags; a comparison gives
the C, Z, N of a subtraction with carry-in 1; for valid BCD operands the decimal results are the decimal sum and difference
modulo 100 with their carry.
(The spec marks R183 as derived from R171 to R174 and R182.) -/
def Obligations.AluEquivalences : Prop :=
  (∀ (a m : Byte) (c : Bool), subBinary a m c = addBinary a (~~~m) c) ∧
  (∀ (f : Flags) (r m : Byte),
    (f.compare r m).c = (subBinary r m true).c ∧ (f.compare r m).z = (subBinary r m true).z ∧
    (f.compare r m).n = (subBinary r m true).n) ∧
  (∀ (a b : Nat) (c : Bool), a < 100 → b < 100 →
    (addDecimal (bcd a) (bcd b) c).val = bcd ((a + b + c.toNat) % 100) ∧
    ((addDecimal (bcd a) (bcd b) c).c = true ↔ a + b + c.toNat > 99)) ∧
  (∀ (a b : Nat) (c : Bool), a < 100 → b < 100 →
    (subDecimal (bcd a) (bcd b) c).val = bcd ((a + 100 - b - (1 - c.toNat)) % 100) ∧
    ((subDecimal (bcd a) (bcd b) c).c = true ↔ a ≥ b + (1 - c.toNat)))

/-- The byte and the flags of the NMOS decimal mode for every operand byte, valid BCD or not (U11). An addition (R172) corrects its
low digit with a carry into the high one and then the high digit; its Z is that of the binary sum, its N and V are those of the sum
before the high digit is corrected, its C says that it was. A subtraction (R174) corrects each digit that needed a borrow by
six; its four flags are the binary ones. -/
def Obligations.DecimalModeByteAndFlags : Prop :=
  ∀ (a m : Byte) (c : Bool),
    let low := a.toNat % 16 + m.toNat % 16 + c.toNat
    let t := a.toNat / 16 * 16 + m.toNat / 16 * 16 + if low ≥ 10 then (low + 6) % 16 + 16 else low
    let lowDiff : Int := a.toNat % 16 - m.toNat % 16 - (1 - c.toNat)
    let lowDigit := (if lowDiff < 0 then lowDiff - 6 else lowDiff) % 16
    let highDiff : Int := a.toNat / 16 - m.toNat / 16 - if lowDiff < 0 then 1 else 0
    let highDigit := (if highDiff < 0 then highDiff - 6 else highDiff) % 16
    (addDecimal a m c).val.toNat = (if t ≥ 160 then t + 96 else t) % 256 ∧
    ((subDecimal a m c).val.toNat : Int) = 16 * highDigit + lowDigit ∧
    (addDecimal a m c).z = (addBinary a m c).z ∧
    ((addDecimal a m c).n = true ↔ t % 256 ≥ 128) ∧
    ((addDecimal a m c).v = true ↔
      (a.toNat ≥ 128 ↔ m.toNat ≥ 128) ∧ ¬(a.toNat ≥ 128 ↔ t % 256 ≥ 128)) ∧
    ((addDecimal a m c).c = true ↔ t ≥ 160) ∧
    (subDecimal a m c).n = (subBinary a m c).n ∧ (subDecimal a m c).v = (subBinary a m c).v ∧
    (subDecimal a m c).z = (subBinary a m c).z ∧ (subDecimal a m c).c = (subBinary a m c).c

/-- AND, ORA, EOR (R175 to R177), for every operand form. -/
def Obligations.LogicWorksBitwise : Prop :=
  ∀ (s : State) (o : Src), s.Calm →
    RunsTo (.and o) s { s.regs with a := s.a &&& o.value s, p := s.p.withNZ (s.a &&& o.value s) } ∧
    RunsTo (.ora o) s { s.regs with a := s.a ||| o.value s, p := s.p.withNZ (s.a ||| o.value s) } ∧
    RunsTo (.eor o) s { s.regs with a := s.a ^^^ o.value s, p := s.p.withNZ (s.a ^^^ o.value s) }

/-- CMP, CPX, CPY (R178 to R180, R182), for every operand form: N, Z and C of the comparison, nothing else. -/
def Obligations.ComparesSetThreeFlags : Prop :=
  ∀ (s : State) (o : Src), s.Calm →
    RunsTo (.cmp o) s { s.regs with p := s.p.withCompare s.a (o.value s) } ∧
    RunsTo (.cpx o) s { s.regs with p := s.p.withCompare s.x (o.value s) } ∧
    RunsTo (.cpy o) s { s.regs with p := s.p.withCompare s.y (o.value s) }

/-- BIT (R181): Z from `A & operand`, N and V from bits 7 and 6 of the operand, C, D, I kept. -/
def Obligations.BitTestsTheOperand : Prop :=
  ∀ (s : State) (m : Mem), s.Calm →
    RunsTo (.bit m) s { s.regs with p :=
      { s.p with
        z := decide (s.a &&& s.spypeek (m.ea s) = 0)
        n := (s.spypeek (m.ea s)).getLsbD 7
        v := (s.spypeek (m.ea s)).getLsbD 6 } }

/-- ASL, LSR, ROL, ROR (R190 to R194), on the accumulator and in memory, for every memory form: the shifted byte is written to the
accumulator, or stored at the effective address. -/
def Obligations.ShiftsAndRotations : Prop :=
  ∀ s : State, s.Calm →
    (let r := Rule.asl s.p.c s.a; RunsTo (.asl .acc) s { s.regs with a := r.1, p := s.p.withShift r }) ∧
    (let r := Rule.lsr s.p.c s.a; RunsTo (.lsr .acc) s { s.regs with a := r.1, p := s.p.withShift r }) ∧
    (let r := Rule.rol s.p.c s.a; RunsTo (.rol .acc) s { s.regs with a := r.1, p := s.p.withShift r }) ∧
    (let r := Rule.ror s.p.c s.a; RunsTo (.ror .acc) s { s.regs with a := r.1, p := s.p.withShift r }) ∧
    ∀ m : Mem, s.mem.wf = true →
      let old := s.spypeek (m.ea s)
      (let r := Rule.asl s.p.c old; RunsStoring (.asl (.mem m)) s (m.ea s) r.1 { s.regs with p := s.p.withShift r }) ∧
      (let r := Rule.lsr s.p.c old; RunsStoring (.lsr (.mem m)) s (m.ea s) r.1 { s.regs with p := s.p.withShift r }) ∧
      (let r := Rule.rol s.p.c old; RunsStoring (.rol (.mem m)) s (m.ea s) r.1 { s.regs with p := s.p.withShift r }) ∧
      (let r := Rule.ror s.p.c old; RunsStoring (.ror (.mem m)) s (m.ea s) r.1 { s.regs with p := s.p.withShift r })

/-- INX, INY, DEX, DEY (R197 to R200), and INC and DEC (R195, R196) for every memory form: modulo 256, N and Z of the result, C and
V kept. -/
def Obligations.IncrementsAndDecrements : Prop :=
  ∀ s : State, s.Calm →
    RunsTo .inx s { s.regs with x := s.x + 1, p := s.p.withNZ (s.x + 1) } ∧
    RunsTo .iny s { s.regs with y := s.y + 1, p := s.p.withNZ (s.y + 1) } ∧
    RunsTo .dex s { s.regs with x := s.x - 1, p := s.p.withNZ (s.x - 1) } ∧
    RunsTo .dey s { s.regs with y := s.y - 1, p := s.p.withNZ (s.y - 1) } ∧
    ∀ m : Mem, s.mem.wf = true →
      let old := s.spypeek (m.ea s)
      RunsStoring (.inc m) s (m.ea s) (old + 1) { s.regs with p := s.p.withNZ (old + 1) } ∧
      RunsStoring (.dec m) s (m.ea s) (old - 1) { s.regs with p := s.p.withNZ (old - 1) }

/-- The bus sees a read-modify-write instruction write the unmodified byte back before the new one (R190): its last three cycles
are the read, the write of the byte read and the write of the result, all at the effective address. -/
def Obligations.ReadModifyWriteWritesTwice : Prop :=
  ∀ (s : State) (m : Mem) (i : Instr),
    i ∈ [.asl (.mem m), .lsr (.mem m), .rol (.mem m), .ror (.mem m), .inc m, .dec m, .slo m, .rla m, .sre m, .rra m, .dcp m,
      .isc m] →
    s.Calm →
    Completes (exec i s) fun t => ∃ before c1 c2 c3,
      t.trace = before ++ [c1, c2, c3] ∧
      c1.write = false ∧ c1.addr = m.ea s ∧ c1.data = s.spypeek (m.ea s) ∧
      c2.write = true ∧ c2.addr = m.ea s ∧ c2.data = s.spypeek (m.ea s) ∧
      c3.write = true ∧ c3.addr = m.ea s ∧
      (m.ea s ≠ 0x0000 → m.ea s ≠ 0x0001 → s.mem.wf = true → c3.data = t.spypeek (m.ea s))

/-- JMP (R210) and JMP indirect (R211, R112), whose pointer's high byte comes from the same page as its low byte. -/
def Obligations.JumpsSetPc : Prop :=
  ∀ (s : State) (w : Word), s.Calm →
    RunsTo (.jmp w) s { s.regs with pc := w } ∧
    RunsTo (.jmpInd w) s { s.regs with pc := Word.ofBytes (s.spypeek (Word.ofBytes w.hi (w.lo + 1))) (s.spypeek w) }

/-- JSR (R212), with `PC` at its third byte: that address is pushed, high byte first; the target's high byte is the third byte as
it stands after the pushes.
(The high byte of the term's own operand plays no part, log 14.) -/
def Obligations.JsrPushesTheReturnAddress : Prop :=
  ∀ (s : State) (w : Word), s.Calm → s.mem.wf = true →
    Completes (exec (.jsr w) s) fun t =>
      t.regs = { s.regs with sp := s.sp - 2, pc := Word.ofBytes (t.spypeek s.pc) w.lo } ∧
      t.spypeek (stackByte s.sp) = s.pc.hi ∧ t.spypeek (stackByte (s.sp - 1)) = s.pc.lo ∧
      BytesKeptBut [stackByte s.sp, stackByte (s.sp - 1)] s t ∧ t.port = s.port ∧ RestKept s t

/-- RTS (R213): the two pulled bytes, low byte first, plus one modulo 65536. -/
def Obligations.RtsReturnsPastThePulledAddress : Prop :=
  ∀ s : State, s.Calm →
    RunsTo .rts s { s.regs with
      sp := s.sp + 2
      pc := Word.ofBytes (s.spypeek (stackByte (s.sp + 2))) (s.spypeek (stackByte (s.sp + 1))) + 1 }

/-- BRK (R215), with `PC` at its padding byte: the address after that byte and the flags with B = 1 are pushed, `I` is set, `D`
and the other flags are kept, `PC` is the word at $FFFE; at $FFFA if an NMI is pending in time (R347), and with none coming
none is pending afterwards: the choice of $FFFA has cleared it (R338). -/
def Obligations.BrkEntersItsHandler : Prop :=
  ∀ s : State, s.Calm → s.mem.wf = true →
    Completes (exec .brk s) fun t => ∃ vec,
      (vec = 0xFFFA ∨ vec = 0xFFFE) ∧ (s.sig.nmiPending = true → vec = 0xFFFA) ∧ (s.sig.noNmi → vec = 0xFFFE) ∧
      ((∀ l ∈ s.sig.inputs, l.nmi = false) → t.sig.nmiPending = false) ∧
      Entered s t (s.pc + 1) true vec ∧ RestKept s t

/-- RTI (R214): the flags, then `PC` low and high are pulled; no increment. -/
def Obligations.RtiRestoresFlagsAndPc : Prop :=
  ∀ s : State, s.Calm →
    RunsTo .rti s { s.regs with
      sp := s.sp + 3
      p := Flags.ofByte (s.spypeek (stackByte (s.sp + 1)))
      pc := Word.ofBytes (s.spypeek (stackByte (s.sp + 3))) (s.spypeek (stackByte (s.sp + 2))) }

/-- A subroutine or handler that returns at once (R212, R213, R341, R348, R394): RTS after JSR goes on at the byte after the JSR;
RTI after BRK goes on at the address after BRK's padding byte, RTI after an interrupt sequence at the instruction that was not
started; every other register and flag, the stack pointer among them, is as before, whatever `SP` is. -/
def Obligations.ReturnsUndoTheirEntries : Prop :=
  ∀ s : State, s.Calm → s.mem.wf = true →
    (∀ w : Word, Completes (exec (.jsr w) s) fun t => Completes (exec .rts t) fun u => u.regs = { s.regs with pc := s.pc + 1 }) ∧
    (Completes (exec .brk s) fun t => Completes (exec .rti t) fun u => u.regs = { s.regs with pc := s.pc + 1 }) ∧
    (s.jam = false → s.sig.intDecision = true →
      Completes (step s) fun t => Completes (exec .rti t) fun u => u.regs = s.regs)

/-- The eight branches (R216 to R224), with `PC` behind the instruction: the signed displacement is added modulo 65536 when the
condition holds; nothing else changes. -/
def Obligations.BranchesAddTheDisplacement : Prop :=
  ∀ (s : State) (off : Byte), s.Calm →
    let taken := s.pc + off.signExtend 16
    RunsTo (.bpl off) s { s.regs with pc := if s.p.n = false then taken else s.pc } ∧
    RunsTo (.bmi off) s { s.regs with pc := if s.p.n = true then taken else s.pc } ∧
    RunsTo (.bvc off) s { s.regs with pc := if s.p.v = false then taken else s.pc } ∧
    RunsTo (.bvs off) s { s.regs with pc := if s.p.v = true then taken else s.pc } ∧
    RunsTo (.bcc off) s { s.regs with pc := if s.p.c = false then taken else s.pc } ∧
    RunsTo (.bcs off) s { s.regs with pc := if s.p.c = true then taken else s.pc } ∧
    RunsTo (.bne off) s { s.regs with pc := if s.p.z = false then taken else s.pc } ∧
    RunsTo (.beq off) s { s.regs with pc := if s.p.z = true then taken else s.pc }

/-- The flag instructions with their opcodes: CLC, SEC, CLI, SEI, CLV, CLD, SED (R240 to R246): one flag each. -/
def Obligations.FlagInstructionsWriteOneFlag : Prop :=
  (encode .clc = [0x18] ∧ encode .sec = [0x38] ∧ encode .cli = [0x58] ∧ encode .sei = [0x78] ∧ encode .clv = [0xB8] ∧
    encode .cld = [0xD8] ∧ encode .sed = [0xF8]) ∧
  ∀ s : State, s.Calm →
    RunsTo .clc s { s.regs with p := { s.p with c := false } } ∧
    RunsTo .sec s { s.regs with p := { s.p with c := true } } ∧
    RunsTo .cli s { s.regs with p := { s.p with i := false } } ∧
    RunsTo .sei s { s.regs with p := { s.p with i := true } } ∧
    RunsTo .clv s { s.regs with p := { s.p with v := false } } ∧
    RunsTo .cld s { s.regs with p := { s.p with d := false } } ∧
    RunsTo .sed s { s.regs with p := { s.p with d := true } }

/-- NOP in every form, documented or not (R247, R264 to R266): no register, flag or memory byte changes. -/
def Obligations.NopsChangeNothing : Prop :=
  ∀ s : State, s.Calm →
    (∀ k, RunsTo (.nop k) s s.regs) ∧ (∀ k b, RunsTo (.nopImm k b) s s.regs) ∧ (∀ k m, RunsTo (.nopRead k m) s s.regs)

/-- SLO, RLA, SRE, RRA, DCP, ISC (R251 to R254, R257, R258), for every memory form: the byte is shifted, rotated, decremented or
incremented in memory, and `A` and the flags are those of the second operation on the new byte; RRA adds with the carry that its
rotation produced, ISC subtracts with the carry from before. -/
def Obligations.CombinedReadModifyWrite : Prop :=
  ∀ (s : State) (m : Mem), s.Calm → s.mem.wf = true →
    let old := s.spypeek (m.ea s)
    (let r := Rule.asl s.p.c old
     RunsStoring (.slo m) s (m.ea s) r.1
      { s.regs with a := s.a ||| r.1, p := { s.p with c := r.2 }.withNZ (s.a ||| r.1) }) ∧
    (let r := Rule.rol s.p.c old
     RunsStoring (.rla m) s (m.ea s) r.1
      { s.regs with a := s.a &&& r.1, p := { s.p with c := r.2 }.withNZ (s.a &&& r.1) }) ∧
    (let r := Rule.lsr s.p.c old
     RunsStoring (.sre m) s (m.ea s) r.1
      { s.regs with a := s.a ^^^ r.1, p := { s.p with c := r.2 }.withNZ (s.a ^^^ r.1) }) ∧
    (let r := Rule.ror s.p.c old
     let sum := if s.p.d then addDecimal s.a r.1 r.2 else addBinary s.a r.1 r.2
     RunsStoring (.rra m) s (m.ea s) r.1 { s.regs with a := sum.val, p := s.p.withAlu sum }) ∧
    RunsStoring (.dcp m) s (m.ea s) (old - 1) { s.regs with p := s.p.withCompare s.a (old - 1) } ∧
    (let diff := if s.p.d then subDecimal s.a (old + 1) s.p.c else subBinary s.a (old + 1) s.p.c
     RunsStoring (.isc m) s (m.ea s) (old + 1) { s.regs with a := diff.val, p := s.p.withAlu diff })

/-- ANC under both opcodes, ALR and AXS (R259, R260, R262). -/
def Obligations.ImmediateCombinations : Prop :=
  ∀ (s : State) (b : Byte), s.Calm →
    (∀ k, RunsTo (.anc k b) s
      { s.regs with a := s.a &&& b, p := { s.p with c := (s.a &&& b).getLsbD 7 }.withNZ (s.a &&& b) }) ∧
    (let r := Rule.lsr s.p.c (s.a &&& b); RunsTo (.alr b) s { s.regs with a := r.1, p := s.p.withShift r }) ∧
    RunsTo (.axs b) s { s.regs with x := (s.a &&& s.x) - b, p := s.p.withCompare (s.a &&& s.x) b }

/-- ARR (R261): with `D` = 0 a rotation of `A & b` whose C is bit 6 and whose V is bit 6 xor bit 5 of the result; with `D` = 1, N is
the old C, Z and V are those before the two digits are corrected, and C is that of the high digit's correction. -/
def Obligations.ArrRotatesWithAdderFlags : Prop :=
  ∀ (s : State) (b : Byte), s.Calm →
    let t := s.a &&& b
    let r := (Rule.ror s.p.c t).1
    let high : Bool := t.toNat / 16 * 16 + t.toNat / 16 % 2 * 16 > 80
    let low : Bool := t.toNat % 16 + t.toNat % 2 > 5
    let digits := (if high then (r.toNat / 16 + 6) % 16 else r.toNat / 16) * 16 +
      if low then (r.toNat + 6) % 16 else r.toNat % 16
    (s.p.d = false → RunsTo (.arr b) s
      { s.regs with a := r, p := { s.p with c := r.getLsbD 6, v := r.getLsbD 6 ^^ r.getLsbD 5 }.withNZ r }) ∧
    (s.p.d = true → RunsTo (.arr b) s
      { s.regs with
        a := BitVec.ofNat 8 digits
        p := { s.p with n := s.p.c, z := decide (r = 0), v := t.getLsbD 6 ^^ r.getLsbD 6, c := high } })

/-- LAS (R263), and ANE and LXA with the parameters ANE_CONST and LXA_CONST at any value (R268, R269). -/
def Obligations.LasAneLxa : Prop :=
  ∀ s : State, s.Calm →
    (∀ w : Word,
      let v := s.spypeek ((Mem.aby w).ea s) &&& s.sp
      RunsTo (.las w) s { s.regs with a := v, x := v, sp := v, p := s.p.withNZ v }) ∧
    (∀ b : Byte,
      let v := (s.a ||| s.params.aneConst) &&& s.x &&& b
      RunsTo (.ane b) s { s.regs with a := v, p := s.p.withNZ v }) ∧
    (∀ b : Byte,
      let v := (s.a ||| s.params.lxaConst) &&& b
      RunsTo (.lxa b) s { s.regs with a := v, x := v, p := s.p.withNZ v })

/-- SHA, SHX, SHY, TAS (R270 to R274), every form: the register term and one more than the high byte of the base address is
stored at the indexed address; on a page crossing, with SH_PAGECROSS_MODE `and_high`, the stored value replaces the high byte of
the address. TAS sets `SP` to `A & X` first. -/
def Obligations.ShStoresUseTheHighByte : Prop :=
  ∀ s : State, s.Calm → s.mem.wf = true →
    let value := fun (base : Word) (reg : Byte) => reg &&& (base.hi + 1)
    let address := fun (base : Word) (index reg : Byte) =>
      if base.lo.toNat + index.toNat > 255 ∧ s.params.shPageCross = .andHigh
        then Word.ofBytes (value base reg) (base.lo + index) else base + index.zeroExtend 16
    (∀ w : Word, RunsStoring (.sha (.aby w)) s (address w s.y (s.a &&& s.x)) (value w (s.a &&& s.x)) s.regs) ∧
    (∀ b : Byte,
      let base := Word.ofBytes (s.spypeek (zeroPage (b + 1))) (s.spypeek (zeroPage b))
      RunsStoring (.sha (.izy b)) s (address base s.y (s.a &&& s.x)) (value base (s.a &&& s.x)) s.regs) ∧
    (∀ w : Word, RunsStoring (.shx w) s (address w s.y s.x) (value w s.x) s.regs) ∧
    (∀ w : Word, RunsStoring (.shy w) s (address w s.x s.y) (value w s.y) s.regs) ∧
    (∀ w : Word, RunsStoring (.tas w) s (address w s.y (s.a &&& s.x)) (value w (s.a &&& s.x))
      { s.regs with sp := s.a &&& s.x })

/-- JAM under each of its twelve opcodes (R275, R353): `jam` is set, and nothing else changes: nothing is pushed, no vector is
read, no cycle is performed. -/
def Obligations.JamSetsJamOnly : Prop := ∀ (s : State) (k : Fin 12), exec (.jam k) s = .next { s with jam := true }
end

