-- ==== Sys2Proof/Laws/Memory.lean ====
section
/-! SUPPORT. Memory: a read after a write, and every operation keeps the canonical form. -/

namespace Sys2Proof.Machine.Memory

/-- Nothing below the first address of a canonical memory is listed. -/
theorem read_below (m : Memory) (low c : Nat) (h : canonicalFrom low m = true) (hc : c < low) :
    read m c = Config.unlisted := by
  induction m generalizing low with
  | nil => rfl
  | cons e rest ih =>
    simp only [canonicalFrom, Bool.and_eq_true, decide_eq_true_eq] at h
    rw [read, if_neg (by omega)]
    exact ih _ h.2 (by omega)

theorem read_write_same (m : Memory) (a : Nat) (b : Byte) (low : Nat) (h : canonicalFrom low m = true) :
    read (write m a b) a = b := by
  induction m generalizing low with
  | nil => by_cases hb : b = Config.unlisted <;> simp [write, read, hb]
  | cons e rest ih =>
    simp only [canonicalFrom, Bool.and_eq_true, decide_eq_true_eq] at h
    rw [write]
    split_ifs with h1 h2 h3 h4
    · rw [read, if_neg (by omega), read_below rest _ a h.2 (by omega), h2]
    · simp [read]
    · rw [read_below rest _ a h.2 (by omega), h4]
    · simp [read]
    · rw [read, if_neg (by omega)]
      exact ih _ h.2

theorem read_write_other (m : Memory) (a c : Nat) (b : Byte) (hc : c ≠ a) : read (write m a b) c = read m c := by
  induction m with
  | nil => by_cases hb : b = Config.unlisted <;> simp [write, read, hb, Ne.symm hc]
  | cons e rest ih =>
    rw [write]
    split_ifs with h1 h2 h3 h4
    · rfl
    · simp [read, Ne.symm hc]
    · rw [read, if_neg (by omega)]
    · rw [read, if_neg (by omega), read, if_neg (by omega)]
    · rw [read, read, ih]

/-- A canonical memory is canonical from every lower bound that its first address meets. -/
theorem canonicalFrom_mono (m : Memory) (low low' : Nat) (h : canonicalFrom low m = true) (hl : low' ≤ low) :
    canonicalFrom low' m = true := by
  cases m with
  | nil => rfl
  | cons e rest =>
    simp only [canonicalFrom, Bool.and_eq_true, decide_eq_true_eq] at h ⊢
    exact ⟨⟨⟨by omega, h.1.1.2⟩, h.1.2⟩, h.2⟩

theorem write_canonicalFrom (m : Memory) (a : Nat) (b : Byte) (low : Nat) (h : canonicalFrom low m = true)
    (ha : low ≤ a) (ha' : a < 65536) : canonicalFrom low (write m a b) = true := by
  induction m generalizing low with
  | nil => by_cases hb : b = Config.unlisted <;> simp [write, canonicalFrom, hb, ha, ha']
  | cons e rest ih =>
    have h' := h
    simp only [canonicalFrom, Bool.and_eq_true, decide_eq_true_eq] at h
    rw [write]
    split_ifs with h1 h2 h3 h4
    · exact h'
    · simp only [canonicalFrom, Bool.and_eq_true, decide_eq_true_eq]
      exact ⟨⟨⟨ha, ha'⟩, h2⟩, ⟨⟨by omega, h.1.1.2⟩, h.1.2⟩, h.2⟩
    · exact canonicalFrom_mono rest _ _ h.2 (by omega)
    · simp only [canonicalFrom, Bool.and_eq_true, decide_eq_true_eq]
      exact ⟨⟨⟨ha, ha'⟩, h4⟩, h3 ▸ h.2⟩
    · simp only [canonicalFrom, Bool.and_eq_true, decide_eq_true_eq]
      exact ⟨h.1, ih _ h.2 (by omega)⟩

/-- Every write keeps the canonical form. -/
theorem write_wf (m : Memory) (a : Nat) (b : Byte) (h : m.wf = true) (ha : a < 65536) : (m.write a b).wf = true :=
  write_canonicalFrom m a b 0 h (by omega) ha

/-- Every write that the CPU delivers to memory keeps it off the port's addresses. -/
theorem write_offPort (m : Memory) (a : Nat) (b : Byte) (h : m.offPort = true) (ha : 2 ≤ a) (ha' : a < 65536) :
    (m.write a b).offPort = true :=
  write_canonicalFrom m a b 2 h ha ha'

theorem wf_of_offPort (m : Memory) (h : m.offPort = true) : m.wf = true := canonicalFrom_mono m 2 0 h (by omega)

/-- Two canonical memories that read alike are the same list. -/
theorem ext_read (m m' : Memory) (low low' : Nat) (h : canonicalFrom low m = true) (h' : canonicalFrom low' m' = true)
    (hr : ∀ c, read m c = read m' c) : m = m' := by
  induction m generalizing low low' m' with
  | nil =>
    cases m' with
    | nil => rfl
    | cons e rest =>
      simp only [canonicalFrom, Bool.and_eq_true, decide_eq_true_eq] at h'
      have := hr e.1
      simp only [read, if_true] at this
      exact absurd this.symm h'.1.2
  | cons e rest ih =>
    simp only [canonicalFrom, Bool.and_eq_true, decide_eq_true_eq] at h
    cases m' with
    | nil =>
      have := hr e.1
      simp only [read, if_true] at this
      exact absurd this h.1.2
    | cons e' rest' =>
      simp only [canonicalFrom, Bool.and_eq_true, decide_eq_true_eq] at h'
      have hk : e.1 = e'.1 := by
        rcases Nat.lt_trichotomy e.1 e'.1 with hlt | heq | hgt
        · have := hr e.1
          rw [read, if_pos rfl, read, if_neg (by omega), read_below rest' _ _ h'.2 (by omega)] at this
          exact absurd this h.1.2
        · exact heq
        · have := hr e'.1
          rw [read, if_neg (by omega), read_below rest _ _ h.2 (by omega), read, if_pos rfl] at this
          exact absurd this.symm h'.1.2
      have hv : e.2 = e'.2 := by
        have := hr e.1
        rwa [read, if_pos rfl, read, if_pos hk.symm] at this
      have hrest : rest = rest' := by
        refine ih rest' _ _ h.2 h'.2 fun c => ?_
        by_cases hc : e.1 = c
        · rw [read_below rest _ c h.2 (by omega), read_below rest' _ c h'.2 (by omega)]
        · have := hr c
          rwa [read, if_neg hc, read, if_neg (by omega)] at this
      exact List.cons_eq_cons.2 ⟨Prod.ext hk hv, hrest⟩

end Sys2Proof.Machine.Memory
end

