-- ==== Sys2Proof/Laws/Signals.lean ====
section
/-! SUPPORT. What one master clock cycle does to the signals, and when a cycle starts without being abandoned. -/

namespace Sys2Proof.Machine

section fields
variable (g : Signals) (l : Lines) (rest : List Lines)
@[simp] theorem Signals.begin_clock : (g.begin l rest).clock = g.clock := rfl
@[simp] theorem Signals.begin_lines : (g.begin l rest).lines = l := rfl
@[simp] theorem Signals.begin_inputs : (g.begin l rest).inputs = rest := rfl
@[simp] theorem Signals.begin_irqHist : (g.begin l rest).irqHist = g.irqHist.shift l.irq := rfl
@[simp] theorem Signals.begin_nmiPrev : (g.begin l rest).nmiPrev = g.nmiPrev := rfl
@[simp] theorem Signals.begin_nmiPending : (g.begin l rest).nmiPending = g.nmiPending := rfl
@[simp] theorem Signals.begin_irqPending : (g.begin l rest).irqPending = g.irqPending := rfl
@[simp] theorem Signals.begin_intDecision : (g.begin l rest).intDecision = g.intDecision := rfl
@[simp] theorem Signals.finish_clock : g.finish.clock = g.clock + 1 := rfl
@[simp] theorem Signals.finish_lines : g.finish.lines = g.lines := rfl
@[simp] theorem Signals.finish_inputs : g.finish.inputs = g.inputs := rfl
@[simp] theorem Signals.finish_irqHist : g.finish.irqHist = g.irqHist := rfl
@[simp] theorem Signals.finish_nmiPrev : g.finish.nmiPrev = g.lines.nmi := rfl
@[simp] theorem Signals.finish_nmiPending :
    g.finish.nmiPending = (g.nmiPending || (g.lines.nmi && !g.nmiPrev)) := rfl
@[simp] theorem Signals.finish_irqPending : g.finish.irqPending = g.irqPending := rfl
@[simp] theorem Signals.finish_intDecision : g.finish.intDecision = g.intDecision := rfl
@[simp] theorem IrqHist.shift_h0 (h : IrqHist) (b : Bool) : (h.shift b).h0 = b := rfl
@[simp] theorem IrqHist.shift_h1 (h : IrqHist) (b : Bool) : (h.shift b).h1 = h.h0 := rfl
@[simp] theorem IrqHist.shift_h2 (h : IrqHist) (b : Bool) : (h.shift b).h2 = h.h1 := rfl
end fields

/-- The start of the cycle in which a read is performed: first every cycle in which RDY holds it (R317). RESET is not looked
at. -/
def Signals.readyFrom (g : Signals) : List Lines → Signals
  | [] => g.begin .rest []
  | l :: rest => if l.rdy then g.begin l rest else (g.held l rest).readyFrom rest

/-- `Signals.readyFrom` on the coming cycles. -/
def Signals.ready (g : Signals) : Signals := g.readyFrom g.inputs

/-- With no RESET coming, a read cycle starts, after the cycles in which RDY holds it. -/
theorem Signals.startReadFrom_ok (g : Signals) (ins : List Lines) (h : ∀ l ∈ ins, l.reset = false) :
    g.startReadFrom ins = .ok (g.readyFrom ins) := by
  induction ins generalizing g with
  | nil => rfl
  | cons l rest ih =>
    have hl := h l (by simp)
    simp only [startReadFrom, readyFrom, hl]
    cases l.rdy
    · simpa using ih _ fun m hm => h m (by simp [hm])
    · rfl

theorem Signals.startRead_ok (g : Signals) (h : g.noReset) : g.startRead = .ok g.ready :=
  g.startReadFrom_ok g.inputs h

theorem Signals.resetNext_false (g : Signals) (h : g.noReset) : g.resetNext = false := by
  unfold resetNext
  cases hi : g.inputs with
  | nil => rfl
  | cons l rest => exact h l (by simp [hi])

theorem Signals.startWrite_ok (g : Signals) (h : g.noReset) : g.startWrite = .ok g.beginNext := by
  simp [startWrite, g.resetNext_false h]

/-- The cycles that are left after a read cycle has started are among those that were coming. -/
theorem Signals.readyFrom_inputs (g : Signals) (ins : List Lines) : (g.readyFrom ins).inputs.Sublist ins := by
  induction ins generalizing g with
  | nil => simp [readyFrom]
  | cons l rest ih =>
    simp only [readyFrom]
    cases l.rdy
    · simpa using (ih _).trans (List.sublist_cons_self l rest)
    · simp

theorem Signals.ready_noReset (g : Signals) (h : g.noReset) : g.ready.noReset :=
  fun l hl => h l ((g.readyFrom_inputs g.inputs).subset hl)

theorem Signals.beginNext_noReset (g : Signals) (h : g.noReset) : g.beginNext.noReset := by
  intro l hl
  unfold beginNext at hl
  cases hi : g.inputs with
  | nil => simp [hi] at hl
  | cons m rest =>
    simp only [hi, begin_inputs] at hl
    exact h l (by simp [hi, hl])

theorem Signals.readyFrom_clock (g : Signals) (ins : List Lines) : g.clock ≤ (g.readyFrom ins).clock := by
  induction ins generalizing g with
  | nil => simp [readyFrom]
  | cons l rest ih =>
    simp only [readyFrom]
    cases l.rdy
    · have := ih (g.held l rest)
      simp only [held, finish_clock, begin_clock] at this
      simp only [Bool.false_eq_true, if_false, held]
      omega
    · simp

theorem Signals.ready_clock (g : Signals) : g.clock ≤ g.ready.clock := g.readyFrom_clock g.inputs

@[simp] theorem Signals.beginNext_clock (g : Signals) : g.beginNext.clock = g.clock := by
  unfold beginNext; cases g.inputs <;> rfl

@[simp] theorem Signals.beginNext_nmiPending (g : Signals) : g.beginNext.nmiPending = g.nmiPending := by
  unfold beginNext; cases g.inputs <;> rfl

@[simp] theorem Signals.beginNext_intDecision (g : Signals) : g.beginNext.intDecision = g.intDecision := by
  unfold beginNext; cases g.inputs <;> rfl

@[simp] theorem Signals.readyFrom_intDecision (g : Signals) (ins : List Lines) :
    (g.readyFrom ins).intDecision = g.intDecision := by
  induction ins generalizing g with
  | nil => rfl
  | cons l rest ih =>
    simp only [readyFrom]
    cases l.rdy
    · simpa [held] using ih (g.held l rest)
    · simp

@[simp] theorem Signals.ready_intDecision (g : Signals) : g.ready.intDecision = g.intDecision :=
  g.readyFrom_intDecision g.inputs

/-- With every line ready, a read cycle starts in the next cycle. -/
theorem Signals.ready_eq_beginNext (g : Signals) (h : ∀ l ∈ g.inputs, l.rdy = true) : g.ready = g.beginNext := by
  unfold ready beginNext
  cases hi : g.inputs with
  | nil => rfl
  | cons l rest => simp [readyFrom, h l (by simp [hi])]

/-- A cycle that starts and ends leaves line records that agree, whatever they were before. -/
theorem Signals.begin_finish_recorded (g : Signals) (l : Lines) (rest : List Lines) : (g.begin l rest).finish.recorded :=
  ⟨rfl, rfl⟩

/-- A started read cycle has the level of its own cycle in `irqHist[0]`. -/
theorem Signals.readyFrom_h0 (g : Signals) (ins : List Lines) :
    (g.readyFrom ins).irqHist.h0 = (g.readyFrom ins).lines.irq := by
  induction ins generalizing g with
  | nil => rfl
  | cons l rest ih =>
    simp only [readyFrom]
    cases l.rdy
    · simpa using ih (g.held l rest)
    · rfl

theorem Signals.ready_h0 (g : Signals) : g.ready.irqHist.h0 = g.ready.lines.irq := g.readyFrom_h0 g.inputs

theorem Signals.beginNext_h0 (g : Signals) : g.beginNext.irqHist.h0 = g.beginNext.lines.irq := by
  unfold beginNext; cases g.inputs <;> rfl

/-- A read cycle that starts has the level of its own cycle in `irqHist[0]`; one that is abandoned leaves records that agree. -/
theorem Signals.startReadFrom_cases (g : Signals) (ins : List Lines) (hr : g.recorded) :
    (∃ g', g.startReadFrom ins = .ok g' ∧ g'.irqHist.h0 = g'.lines.irq) ∨
    (∃ g', g.startReadFrom ins = .error g' ∧ g'.recorded) := by
  induction ins generalizing g with
  | nil => exact .inl ⟨_, rfl, rfl⟩
  | cons l rest ih =>
    unfold startReadFrom
    split_ifs with h1 h2
    · exact .inr ⟨_, rfl, hr⟩
    · exact .inl ⟨_, rfl, rfl⟩
    · exact ih _ (begin_finish_recorded g l rest)

/-- Time passing does not take a charge back or give one: a settled bit's level is the same at every later cycle. -/
theorem Discharge.charged_of_settled (d : Discharge) (now later : Nat) (h : d.settled now) (hl : now ≤ later) :
    d.charged later = d.charged now := by
  cases d with
  | never => rfl
  | already => rfl
  | due c => simp only [settled] at h; simp [charged, show ¬later < c by omega, show ¬now < c by omega]

theorem Discharge.settled_mono (d : Discharge) (now later : Nat) (h : d.settled now) (hl : now ≤ later) :
    d.settled later := by
  cases d with
  | never => trivial
  | already => trivial
  | due c => simp only [settled] at h ⊢; omega

theorem Port.settled_mono (p : Port) (now later : Nat) (h : p.settled now) (hl : now ≤ later) : p.settled later :=
  ⟨p.float3.settled_mono _ _ h.1 hl, p.float6.settled_mono _ _ h.2.1 hl, p.float7.settled_mono _ _ h.2.2 hl⟩

theorem Port.level_of_settled (p : Port) (now later : Nat) (params : Params) (i : Nat) (h : p.settled now) (hl : now ≤ later) :
    p.level later params i = p.level now params i := by
  unfold level
  split
  · exact p.float3.charged_of_settled _ _ h.1 hl
  · exact p.float6.charged_of_settled _ _ h.2.1 hl
  · exact p.float7.charged_of_settled _ _ h.2.2 hl
  · rfl

theorem Port.read_of_settled (p : Port) (now later : Nat) (params : Params) (h : p.settled now) (hl : now ≤ later) :
    p.read later params = p.read now params := by
  simp only [read, external, p.level_of_settled _ _ _ _ h hl]

end Sys2Proof.Machine
end

