-- ==== Sys2Proof/Laws/State.lean ====
section
/-! SUPPORT. One lemma per field per update of State, so that no proof unfolds a record update. -/

namespace Sys2Proof.Machine

/-- The reset value of `PC` is the word at the reset vector (R51, R384). -/
theorem reset_pc_is_the_vector :
    State.reset.pc =
      Word.ofBytes (State.reset.spypeek (vectorReset + 1)) (State.reset.spypeek vectorReset) := by decide

section setA
variable (s : State) (v : Byte)
@[simp] theorem State.setA_a : (s.setA v).a = v := rfl
@[simp] theorem State.setA_x : (s.setA v).x = s.x := rfl
@[simp] theorem State.setA_y : (s.setA v).y = s.y := rfl
@[simp] theorem State.setA_sp : (s.setA v).sp = s.sp := rfl
@[simp] theorem State.setA_pc : (s.setA v).pc = s.pc := rfl
@[simp] theorem State.setA_p : (s.setA v).p = s.p := rfl
@[simp] theorem State.setA_ir : (s.setA v).ir = s.ir := rfl
@[simp] theorem State.setA_t : (s.setA v).t = s.t := rfl
@[simp] theorem State.setA_jam : (s.setA v).jam = s.jam := rfl
@[simp] theorem State.setA_latch : (s.setA v).latch = s.latch := rfl
@[simp] theorem State.setA_port : (s.setA v).port = s.port := rfl
@[simp] theorem State.setA_mem : (s.setA v).mem = s.mem := rfl
@[simp] theorem State.setA_sig : (s.setA v).sig = s.sig := rfl
@[simp] theorem State.setA_trace : (s.setA v).trace = s.trace := rfl
@[simp] theorem State.setA_params : (s.setA v).params = s.params := rfl
@[simp] theorem State.setA_platform : (s.setA v).platform = s.platform := rfl
end setA

section setX
variable (s : State) (v : Byte)
@[simp] theorem State.setX_a : (s.setX v).a = s.a := rfl
@[simp] theorem State.setX_x : (s.setX v).x = v := rfl
@[simp] theorem State.setX_y : (s.setX v).y = s.y := rfl
@[simp] theorem State.setX_sp : (s.setX v).sp = s.sp := rfl
@[simp] theorem State.setX_pc : (s.setX v).pc = s.pc := rfl
@[simp] theorem State.setX_p : (s.setX v).p = s.p := rfl
@[simp] theorem State.setX_ir : (s.setX v).ir = s.ir := rfl
@[simp] theorem State.setX_t : (s.setX v).t = s.t := rfl
@[simp] theorem State.setX_jam : (s.setX v).jam = s.jam := rfl
@[simp] theorem State.setX_latch : (s.setX v).latch = s.latch := rfl
@[simp] theorem State.setX_port : (s.setX v).port = s.port := rfl
@[simp] theorem State.setX_mem : (s.setX v).mem = s.mem := rfl
@[simp] theorem State.setX_sig : (s.setX v).sig = s.sig := rfl
@[simp] theorem State.setX_trace : (s.setX v).trace = s.trace := rfl
@[simp] theorem State.setX_params : (s.setX v).params = s.params := rfl
@[simp] theorem State.setX_platform : (s.setX v).platform = s.platform := rfl
end setX

section setY
variable (s : State) (v : Byte)
@[simp] theorem State.setY_a : (s.setY v).a = s.a := rfl
@[simp] theorem State.setY_x : (s.setY v).x = s.x := rfl
@[simp] theorem State.setY_y : (s.setY v).y = v := rfl
@[simp] theorem State.setY_sp : (s.setY v).sp = s.sp := rfl
@[simp] theorem State.setY_pc : (s.setY v).pc = s.pc := rfl
@[simp] theorem State.setY_p : (s.setY v).p = s.p := rfl
@[simp] theorem State.setY_ir : (s.setY v).ir = s.ir := rfl
@[simp] theorem State.setY_t : (s.setY v).t = s.t := rfl
@[simp] theorem State.setY_jam : (s.setY v).jam = s.jam := rfl
@[simp] theorem State.setY_latch : (s.setY v).latch = s.latch := rfl
@[simp] theorem State.setY_port : (s.setY v).port = s.port := rfl
@[simp] theorem State.setY_mem : (s.setY v).mem = s.mem := rfl
@[simp] theorem State.setY_sig : (s.setY v).sig = s.sig := rfl
@[simp] theorem State.setY_trace : (s.setY v).trace = s.trace := rfl
@[simp] theorem State.setY_params : (s.setY v).params = s.params := rfl
@[simp] theorem State.setY_platform : (s.setY v).platform = s.platform := rfl
end setY

section setSP
variable (s : State) (v : Byte)
@[simp] theorem State.setSP_a : (s.setSP v).a = s.a := rfl
@[simp] theorem State.setSP_x : (s.setSP v).x = s.x := rfl
@[simp] theorem State.setSP_y : (s.setSP v).y = s.y := rfl
@[simp] theorem State.setSP_sp : (s.setSP v).sp = v := rfl
@[simp] theorem State.setSP_pc : (s.setSP v).pc = s.pc := rfl
@[simp] theorem State.setSP_p : (s.setSP v).p = s.p := rfl
@[simp] theorem State.setSP_ir : (s.setSP v).ir = s.ir := rfl
@[simp] theorem State.setSP_t : (s.setSP v).t = s.t := rfl
@[simp] theorem State.setSP_jam : (s.setSP v).jam = s.jam := rfl
@[simp] theorem State.setSP_latch : (s.setSP v).latch = s.latch := rfl
@[simp] theorem State.setSP_port : (s.setSP v).port = s.port := rfl
@[simp] theorem State.setSP_mem : (s.setSP v).mem = s.mem := rfl
@[simp] theorem State.setSP_sig : (s.setSP v).sig = s.sig := rfl
@[simp] theorem State.setSP_trace : (s.setSP v).trace = s.trace := rfl
@[simp] theorem State.setSP_params : (s.setSP v).params = s.params := rfl
@[simp] theorem State.setSP_platform : (s.setSP v).platform = s.platform := rfl
end setSP

section setPC
variable (s : State) (v : Word)
@[simp] theorem State.setPC_a : (s.setPC v).a = s.a := rfl
@[simp] theorem State.setPC_x : (s.setPC v).x = s.x := rfl
@[simp] theorem State.setPC_y : (s.setPC v).y = s.y := rfl
@[simp] theorem State.setPC_sp : (s.setPC v).sp = s.sp := rfl
@[simp] theorem State.setPC_pc : (s.setPC v).pc = v := rfl
@[simp] theorem State.setPC_p : (s.setPC v).p = s.p := rfl
@[simp] theorem State.setPC_ir : (s.setPC v).ir = s.ir := rfl
@[simp] theorem State.setPC_t : (s.setPC v).t = s.t := rfl
@[simp] theorem State.setPC_jam : (s.setPC v).jam = s.jam := rfl
@[simp] theorem State.setPC_latch : (s.setPC v).latch = s.latch := rfl
@[simp] theorem State.setPC_port : (s.setPC v).port = s.port := rfl
@[simp] theorem State.setPC_mem : (s.setPC v).mem = s.mem := rfl
@[simp] theorem State.setPC_sig : (s.setPC v).sig = s.sig := rfl
@[simp] theorem State.setPC_trace : (s.setPC v).trace = s.trace := rfl
@[simp] theorem State.setPC_params : (s.setPC v).params = s.params := rfl
@[simp] theorem State.setPC_platform : (s.setPC v).platform = s.platform := rfl
end setPC

section setP
variable (s : State) (v : Flags)
@[simp] theorem State.setP_a : (s.setP v).a = s.a := rfl
@[simp] theorem State.setP_x : (s.setP v).x = s.x := rfl
@[simp] theorem State.setP_y : (s.setP v).y = s.y := rfl
@[simp] theorem State.setP_sp : (s.setP v).sp = s.sp := rfl
@[simp] theorem State.setP_pc : (s.setP v).pc = s.pc := rfl
@[simp] theorem State.setP_p : (s.setP v).p = v := rfl
@[simp] theorem State.setP_ir : (s.setP v).ir = s.ir := rfl
@[simp] theorem State.setP_t : (s.setP v).t = s.t := rfl
@[simp] theorem State.setP_jam : (s.setP v).jam = s.jam := rfl
@[simp] theorem State.setP_latch : (s.setP v).latch = s.latch := rfl
@[simp] theorem State.setP_port : (s.setP v).port = s.port := rfl
@[simp] theorem State.setP_mem : (s.setP v).mem = s.mem := rfl
@[simp] theorem State.setP_sig : (s.setP v).sig = s.sig := rfl
@[simp] theorem State.setP_trace : (s.setP v).trace = s.trace := rfl
@[simp] theorem State.setP_params : (s.setP v).params = s.params := rfl
@[simp] theorem State.setP_platform : (s.setP v).platform = s.platform := rfl
end setP

section setIR
variable (s : State) (v : Byte)
@[simp] theorem State.setIR_a : (s.setIR v).a = s.a := rfl
@[simp] theorem State.setIR_x : (s.setIR v).x = s.x := rfl
@[simp] theorem State.setIR_y : (s.setIR v).y = s.y := rfl
@[simp] theorem State.setIR_sp : (s.setIR v).sp = s.sp := rfl
@[simp] theorem State.setIR_pc : (s.setIR v).pc = s.pc := rfl
@[simp] theorem State.setIR_p : (s.setIR v).p = s.p := rfl
@[simp] theorem State.setIR_ir : (s.setIR v).ir = v := rfl
@[simp] theorem State.setIR_t : (s.setIR v).t = s.t := rfl
@[simp] theorem State.setIR_jam : (s.setIR v).jam = s.jam := rfl
@[simp] theorem State.setIR_latch : (s.setIR v).latch = s.latch := rfl
@[simp] theorem State.setIR_port : (s.setIR v).port = s.port := rfl
@[simp] theorem State.setIR_mem : (s.setIR v).mem = s.mem := rfl
@[simp] theorem State.setIR_sig : (s.setIR v).sig = s.sig := rfl
@[simp] theorem State.setIR_trace : (s.setIR v).trace = s.trace := rfl
@[simp] theorem State.setIR_params : (s.setIR v).params = s.params := rfl
@[simp] theorem State.setIR_platform : (s.setIR v).platform = s.platform := rfl
end setIR

section setT
variable (s : State) (v : Nat)
@[simp] theorem State.setT_a : (s.setT v).a = s.a := rfl
@[simp] theorem State.setT_x : (s.setT v).x = s.x := rfl
@[simp] theorem State.setT_y : (s.setT v).y = s.y := rfl
@[simp] theorem State.setT_sp : (s.setT v).sp = s.sp := rfl
@[simp] theorem State.setT_pc : (s.setT v).pc = s.pc := rfl
@[simp] theorem State.setT_p : (s.setT v).p = s.p := rfl
@[simp] theorem State.setT_ir : (s.setT v).ir = s.ir := rfl
@[simp] theorem State.setT_t : (s.setT v).t = v := rfl
@[simp] theorem State.setT_jam : (s.setT v).jam = s.jam := rfl
@[simp] theorem State.setT_latch : (s.setT v).latch = s.latch := rfl
@[simp] theorem State.setT_port : (s.setT v).port = s.port := rfl
@[simp] theorem State.setT_mem : (s.setT v).mem = s.mem := rfl
@[simp] theorem State.setT_sig : (s.setT v).sig = s.sig := rfl
@[simp] theorem State.setT_trace : (s.setT v).trace = s.trace := rfl
@[simp] theorem State.setT_params : (s.setT v).params = s.params := rfl
@[simp] theorem State.setT_platform : (s.setT v).platform = s.platform := rfl
end setT

section setJam
variable (s : State) (v : Bool)
@[simp] theorem State.setJam_a : (s.setJam v).a = s.a := rfl
@[simp] theorem State.setJam_x : (s.setJam v).x = s.x := rfl
@[simp] theorem State.setJam_y : (s.setJam v).y = s.y := rfl
@[simp] theorem State.setJam_sp : (s.setJam v).sp = s.sp := rfl
@[simp] theorem State.setJam_pc : (s.setJam v).pc = s.pc := rfl
@[simp] theorem State.setJam_p : (s.setJam v).p = s.p := rfl
@[simp] theorem State.setJam_ir : (s.setJam v).ir = s.ir := rfl
@[simp] theorem State.setJam_t : (s.setJam v).t = s.t := rfl
@[simp] theorem State.setJam_jam : (s.setJam v).jam = v := rfl
@[simp] theorem State.setJam_latch : (s.setJam v).latch = s.latch := rfl
@[simp] theorem State.setJam_port : (s.setJam v).port = s.port := rfl
@[simp] theorem State.setJam_mem : (s.setJam v).mem = s.mem := rfl
@[simp] theorem State.setJam_sig : (s.setJam v).sig = s.sig := rfl
@[simp] theorem State.setJam_trace : (s.setJam v).trace = s.trace := rfl
@[simp] theorem State.setJam_params : (s.setJam v).params = s.params := rfl
@[simp] theorem State.setJam_platform : (s.setJam v).platform = s.platform := rfl
end setJam

section setSig
variable (s : State) (v : Signals)
@[simp] theorem State.setSig_a : (s.setSig v).a = s.a := rfl
@[simp] theorem State.setSig_x : (s.setSig v).x = s.x := rfl
@[simp] theorem State.setSig_y : (s.setSig v).y = s.y := rfl
@[simp] theorem State.setSig_sp : (s.setSig v).sp = s.sp := rfl
@[simp] theorem State.setSig_pc : (s.setSig v).pc = s.pc := rfl
@[simp] theorem State.setSig_p : (s.setSig v).p = s.p := rfl
@[simp] theorem State.setSig_ir : (s.setSig v).ir = s.ir := rfl
@[simp] theorem State.setSig_t : (s.setSig v).t = s.t := rfl
@[simp] theorem State.setSig_jam : (s.setSig v).jam = s.jam := rfl
@[simp] theorem State.setSig_latch : (s.setSig v).latch = s.latch := rfl
@[simp] theorem State.setSig_port : (s.setSig v).port = s.port := rfl
@[simp] theorem State.setSig_mem : (s.setSig v).mem = s.mem := rfl
@[simp] theorem State.setSig_sig : (s.setSig v).sig = v := rfl
@[simp] theorem State.setSig_trace : (s.setSig v).trace = s.trace := rfl
@[simp] theorem State.setSig_params : (s.setSig v).params = s.params := rfl
@[simp] theorem State.setSig_platform : (s.setSig v).platform = s.platform := rfl
end setSig

section setPlatform
variable (s : State) (v : Platform)
@[simp] theorem State.setPlatform_a : (s.setPlatform v).a = s.a := rfl
@[simp] theorem State.setPlatform_x : (s.setPlatform v).x = s.x := rfl
@[simp] theorem State.setPlatform_y : (s.setPlatform v).y = s.y := rfl
@[simp] theorem State.setPlatform_sp : (s.setPlatform v).sp = s.sp := rfl
@[simp] theorem State.setPlatform_pc : (s.setPlatform v).pc = s.pc := rfl
@[simp] theorem State.setPlatform_p : (s.setPlatform v).p = s.p := rfl
@[simp] theorem State.setPlatform_ir : (s.setPlatform v).ir = s.ir := rfl
@[simp] theorem State.setPlatform_t : (s.setPlatform v).t = s.t := rfl
@[simp] theorem State.setPlatform_jam : (s.setPlatform v).jam = s.jam := rfl
@[simp] theorem State.setPlatform_latch : (s.setPlatform v).latch = s.latch := rfl
@[simp] theorem State.setPlatform_port : (s.setPlatform v).port = s.port := rfl
@[simp] theorem State.setPlatform_mem : (s.setPlatform v).mem = s.mem := rfl
@[simp] theorem State.setPlatform_sig : (s.setPlatform v).sig = s.sig := rfl
@[simp] theorem State.setPlatform_trace : (s.setPlatform v).trace = s.trace := rfl
@[simp] theorem State.setPlatform_params : (s.setPlatform v).params = s.params := rfl
@[simp] theorem State.setPlatform_platform : (s.setPlatform v).platform = v := rfl
end setPlatform

section setDL
variable (s : State) (v : Byte)
@[simp] theorem State.setDL_a : (s.setDL v).a = s.a := rfl
@[simp] theorem State.setDL_x : (s.setDL v).x = s.x := rfl
@[simp] theorem State.setDL_y : (s.setDL v).y = s.y := rfl
@[simp] theorem State.setDL_sp : (s.setDL v).sp = s.sp := rfl
@[simp] theorem State.setDL_pc : (s.setDL v).pc = s.pc := rfl
@[simp] theorem State.setDL_p : (s.setDL v).p = s.p := rfl
@[simp] theorem State.setDL_ir : (s.setDL v).ir = s.ir := rfl
@[simp] theorem State.setDL_t : (s.setDL v).t = s.t := rfl
@[simp] theorem State.setDL_jam : (s.setDL v).jam = s.jam := rfl
@[simp] theorem State.setDL_latch : (s.setDL v).latch = { s.latch with dl := v } := rfl
@[simp] theorem State.setDL_port : (s.setDL v).port = s.port := rfl
@[simp] theorem State.setDL_mem : (s.setDL v).mem = s.mem := rfl
@[simp] theorem State.setDL_sig : (s.setDL v).sig = s.sig := rfl
@[simp] theorem State.setDL_trace : (s.setDL v).trace = s.trace := rfl
@[simp] theorem State.setDL_params : (s.setDL v).params = s.params := rfl
@[simp] theorem State.setDL_platform : (s.setDL v).platform = s.platform := rfl
end setDL

section clearNmi
variable (s : State)
@[simp] theorem State.clearNmi_a : s.clearNmi.a = s.a := rfl
@[simp] theorem State.clearNmi_x : s.clearNmi.x = s.x := rfl
@[simp] theorem State.clearNmi_y : s.clearNmi.y = s.y := rfl
@[simp] theorem State.clearNmi_sp : s.clearNmi.sp = s.sp := rfl
@[simp] theorem State.clearNmi_pc : s.clearNmi.pc = s.pc := rfl
@[simp] theorem State.clearNmi_p : s.clearNmi.p = s.p := rfl
@[simp] theorem State.clearNmi_ir : s.clearNmi.ir = s.ir := rfl
@[simp] theorem State.clearNmi_t : s.clearNmi.t = s.t := rfl
@[simp] theorem State.clearNmi_jam : s.clearNmi.jam = s.jam := rfl
@[simp] theorem State.clearNmi_latch : s.clearNmi.latch = s.latch := rfl
@[simp] theorem State.clearNmi_port : s.clearNmi.port = s.port := rfl
@[simp] theorem State.clearNmi_mem : s.clearNmi.mem = s.mem := rfl
@[simp] theorem State.clearNmi_sig : s.clearNmi.sig = { s.sig with nmiPending := false } := rfl
@[simp] theorem State.clearNmi_trace : s.clearNmi.trace = s.trace := rfl
@[simp] theorem State.clearNmi_params : s.clearNmi.params = s.params := rfl
@[simp] theorem State.clearNmi_platform : s.clearNmi.platform = s.platform := rfl
end clearNmi

section setNZ
variable (s : State) (v : Byte)
@[simp] theorem State.setNZ_a : (s.setNZ v).a = s.a := rfl
@[simp] theorem State.setNZ_x : (s.setNZ v).x = s.x := rfl
@[simp] theorem State.setNZ_y : (s.setNZ v).y = s.y := rfl
@[simp] theorem State.setNZ_sp : (s.setNZ v).sp = s.sp := rfl
@[simp] theorem State.setNZ_pc : (s.setNZ v).pc = s.pc := rfl
@[simp] theorem State.setNZ_ir : (s.setNZ v).ir = s.ir := rfl
@[simp] theorem State.setNZ_t : (s.setNZ v).t = s.t := rfl
@[simp] theorem State.setNZ_jam : (s.setNZ v).jam = s.jam := rfl
@[simp] theorem State.setNZ_latch : (s.setNZ v).latch = s.latch := rfl
@[simp] theorem State.setNZ_port : (s.setNZ v).port = s.port := rfl
@[simp] theorem State.setNZ_mem : (s.setNZ v).mem = s.mem := rfl
@[simp] theorem State.setNZ_sig : (s.setNZ v).sig = s.sig := rfl
@[simp] theorem State.setNZ_trace : (s.setNZ v).trace = s.trace := rfl
@[simp] theorem State.setNZ_params : (s.setNZ v).params = s.params := rfl
@[simp] theorem State.setNZ_platform : (s.setNZ v).platform = s.platform := rfl
@[simp] theorem State.setNZ_p : (s.setNZ v).p = s.p.setNZ v := rfl
end setNZ

section setNVZC
variable (f : Flags) (r : AluOut) (v m : Byte)
@[simp] theorem Flags.setNVZC_d : (f.setNVZC r).d = f.d := rfl
@[simp] theorem Flags.setNVZC_i : (f.setNVZC r).i = f.i := rfl
@[simp] theorem Flags.setNZ_n : (f.setNZ v).n = v.getLsbD 7 := rfl
@[simp] theorem Flags.setNZ_z : (f.setNZ v).z = (v == 0) := rfl
@[simp] theorem Flags.setNZ_v : (f.setNZ v).v = f.v := rfl
@[simp] theorem Flags.setNZ_d : (f.setNZ v).d = f.d := rfl
@[simp] theorem Flags.setNZ_i : (f.setNZ v).i = f.i := rfl
@[simp] theorem Flags.setNZ_c : (f.setNZ v).c = f.c := rfl
@[simp] theorem Flags.compare_v : (f.compare v m).v = f.v := rfl
@[simp] theorem Flags.compare_d : (f.compare v m).d = f.d := rfl
@[simp] theorem Flags.compare_i : (f.compare v m).i = f.i := rfl
@[simp] theorem Flags.bitTest_d : (f.bitTest v m).d = f.d := rfl
@[simp] theorem Flags.bitTest_i : (f.bitTest v m).i = f.i := rfl
@[simp] theorem Flags.bitTest_c : (f.bitTest v m).c = f.c := rfl
end setNVZC

section setAD
variable (s : State) (w : Word)
@[simp] theorem State.setAD_a : (s.setAD w).a = s.a := rfl
@[simp] theorem State.setAD_x : (s.setAD w).x = s.x := rfl
@[simp] theorem State.setAD_y : (s.setAD w).y = s.y := rfl
@[simp] theorem State.setAD_sp : (s.setAD w).sp = s.sp := rfl
@[simp] theorem State.setAD_pc : (s.setAD w).pc = s.pc := rfl
@[simp] theorem State.setAD_p : (s.setAD w).p = s.p := rfl
@[simp] theorem State.setAD_ir : (s.setAD w).ir = s.ir := rfl
@[simp] theorem State.setAD_t : (s.setAD w).t = s.t := rfl
@[simp] theorem State.setAD_jam : (s.setAD w).jam = s.jam := rfl
@[simp] theorem State.setAD_port : (s.setAD w).port = s.port := rfl
@[simp] theorem State.setAD_mem : (s.setAD w).mem = s.mem := rfl
@[simp] theorem State.setAD_sig : (s.setAD w).sig = s.sig := rfl
@[simp] theorem State.setAD_trace : (s.setAD w).trace = s.trace := rfl
@[simp] theorem State.setAD_params : (s.setAD w).params = s.params := rfl
@[simp] theorem State.setAD_platform : (s.setAD w).platform = s.platform := rfl
@[simp] theorem State.setAD_ad : (s.setAD w).latch.ad = w := rfl
@[simp] theorem State.setAD_dl : (s.setAD w).latch.dl = s.latch.dl := rfl
@[simp] theorem State.setAD_ptr : (s.setAD w).latch.ptr = s.latch.ptr := rfl
@[simp] theorem State.setAD_pageCross : (s.setAD w).latch.pageCross = s.latch.pageCross := rfl
end setAD

section setPTR
variable (s : State) (b : Byte)
@[simp] theorem State.setPTR_a : (s.setPTR b).a = s.a := rfl
@[simp] theorem State.setPTR_x : (s.setPTR b).x = s.x := rfl
@[simp] theorem State.setPTR_y : (s.setPTR b).y = s.y := rfl
@[simp] theorem State.setPTR_sp : (s.setPTR b).sp = s.sp := rfl
@[simp] theorem State.setPTR_pc : (s.setPTR b).pc = s.pc := rfl
@[simp] theorem State.setPTR_p : (s.setPTR b).p = s.p := rfl
@[simp] theorem State.setPTR_ir : (s.setPTR b).ir = s.ir := rfl
@[simp] theorem State.setPTR_t : (s.setPTR b).t = s.t := rfl
@[simp] theorem State.setPTR_jam : (s.setPTR b).jam = s.jam := rfl
@[simp] theorem State.setPTR_port : (s.setPTR b).port = s.port := rfl
@[simp] theorem State.setPTR_mem : (s.setPTR b).mem = s.mem := rfl
@[simp] theorem State.setPTR_sig : (s.setPTR b).sig = s.sig := rfl
@[simp] theorem State.setPTR_trace : (s.setPTR b).trace = s.trace := rfl
@[simp] theorem State.setPTR_params : (s.setPTR b).params = s.params := rfl
@[simp] theorem State.setPTR_platform : (s.setPTR b).platform = s.platform := rfl
@[simp] theorem State.setPTR_ptr : (s.setPTR b).latch.ptr = b := rfl
@[simp] theorem State.setPTR_ad : (s.setPTR b).latch.ad = s.latch.ad := rfl
@[simp] theorem State.setPTR_dl : (s.setPTR b).latch.dl = s.latch.dl := rfl
@[simp] theorem State.setPTR_pageCross : (s.setPTR b).latch.pageCross = s.latch.pageCross := rfl
end setPTR

section addIndex
variable (s : State) (b : Byte)
@[simp] theorem State.addIndex_a : (s.addIndex b).a = s.a := rfl
@[simp] theorem State.addIndex_x : (s.addIndex b).x = s.x := rfl
@[simp] theorem State.addIndex_y : (s.addIndex b).y = s.y := rfl
@[simp] theorem State.addIndex_sp : (s.addIndex b).sp = s.sp := rfl
@[simp] theorem State.addIndex_pc : (s.addIndex b).pc = s.pc := rfl
@[simp] theorem State.addIndex_p : (s.addIndex b).p = s.p := rfl
@[simp] theorem State.addIndex_ir : (s.addIndex b).ir = s.ir := rfl
@[simp] theorem State.addIndex_t : (s.addIndex b).t = s.t := rfl
@[simp] theorem State.addIndex_jam : (s.addIndex b).jam = s.jam := rfl
@[simp] theorem State.addIndex_port : (s.addIndex b).port = s.port := rfl
@[simp] theorem State.addIndex_mem : (s.addIndex b).mem = s.mem := rfl
@[simp] theorem State.addIndex_sig : (s.addIndex b).sig = s.sig := rfl
@[simp] theorem State.addIndex_trace : (s.addIndex b).trace = s.trace := rfl
@[simp] theorem State.addIndex_params : (s.addIndex b).params = s.params := rfl
@[simp] theorem State.addIndex_platform : (s.addIndex b).platform = s.platform := rfl
@[simp] theorem State.addIndex_ad :
    (s.addIndex b).latch.ad = Word.ofBytes s.latch.ad.hi (s.latch.ad.lo + b) := rfl
@[simp] theorem State.addIndex_pageCross :
    (s.addIndex b).latch.pageCross = decide (s.latch.ad.lo.toNat + b.toNat > 0xFF) := rfl
end addIndex

section poll
variable (s : State)
@[simp] theorem State.poll_a : (s.poll).a = s.a := rfl
@[simp] theorem State.poll_x : (s.poll).x = s.x := rfl
@[simp] theorem State.poll_y : (s.poll).y = s.y := rfl
@[simp] theorem State.poll_sp : (s.poll).sp = s.sp := rfl
@[simp] theorem State.poll_pc : (s.poll).pc = s.pc := rfl
@[simp] theorem State.poll_p : (s.poll).p = s.p := rfl
@[simp] theorem State.poll_ir : (s.poll).ir = s.ir := rfl
@[simp] theorem State.poll_t : (s.poll).t = s.t := rfl
@[simp] theorem State.poll_jam : (s.poll).jam = s.jam := rfl
@[simp] theorem State.poll_latch : (s.poll).latch = s.latch := rfl
@[simp] theorem State.poll_port : (s.poll).port = s.port := rfl
@[simp] theorem State.poll_mem : (s.poll).mem = s.mem := rfl
@[simp] theorem State.poll_trace : (s.poll).trace = s.trace := rfl
@[simp] theorem State.poll_params : (s.poll).params = s.params := rfl
@[simp] theorem State.poll_platform : (s.poll).platform = s.platform := rfl
@[simp] theorem State.poll_inputs : s.poll.sig.inputs = s.sig.inputs := rfl
@[simp] theorem State.poll_clock : s.poll.sig.clock = s.sig.clock := rfl
@[simp] theorem State.poll_nmiPending : s.poll.sig.nmiPending = s.sig.nmiPending := rfl
@[simp] theorem State.poll_irqPending :
    s.poll.sig.irqPending = (s.sig.irqHist.sample s.params.irqSample && !s.p.i) := rfl
@[simp] theorem State.poll_intDecision :
    s.poll.sig.intDecision = (s.sig.intDecision || s.sig.nmiPending ||
      (s.sig.irqHist.sample s.params.irqSample && !s.p.i)) := rfl
end poll

section endCycle
variable (s : State) (w : Bool) (a : Word) (v : Byte)
@[simp] theorem State.endCycle_a : (s.endCycle w a v).a = s.a := rfl
@[simp] theorem State.endCycle_x : (s.endCycle w a v).x = s.x := rfl
@[simp] theorem State.endCycle_y : (s.endCycle w a v).y = s.y := rfl
@[simp] theorem State.endCycle_sp : (s.endCycle w a v).sp = s.sp := rfl
@[simp] theorem State.endCycle_pc : (s.endCycle w a v).pc = s.pc := rfl
@[simp] theorem State.endCycle_p : (s.endCycle w a v).p = s.p := rfl
@[simp] theorem State.endCycle_ir : (s.endCycle w a v).ir = s.ir := rfl
@[simp] theorem State.endCycle_jam : (s.endCycle w a v).jam = s.jam := rfl
@[simp] theorem State.endCycle_latch : (s.endCycle w a v).latch = s.latch := rfl
@[simp] theorem State.endCycle_port : (s.endCycle w a v).port = s.port := rfl
@[simp] theorem State.endCycle_mem : (s.endCycle w a v).mem = s.mem := rfl
@[simp] theorem State.endCycle_params : (s.endCycle w a v).params = s.params := rfl
@[simp] theorem State.endCycle_platform : (s.endCycle w a v).platform = s.platform := rfl
@[simp] theorem State.endCycle_t : (s.endCycle w a v).t = s.t + 1 := rfl
@[simp] theorem State.endCycle_sig : (s.endCycle w a v).sig = s.sig.finish := rfl
@[simp] theorem State.endCycle_trace : (s.endCycle w a v).trace =
    s.trace ++ [{ t := s.t, clock := s.sig.clock, write := w, addr := a, data := v }] := rfl
end endCycle

section startStep
variable (s : State)
@[simp] theorem State.startStep_a : (s.startStep).a = s.a := rfl
@[simp] theorem State.startStep_x : (s.startStep).x = s.x := rfl
@[simp] theorem State.startStep_y : (s.startStep).y = s.y := rfl
@[simp] theorem State.startStep_sp : (s.startStep).sp = s.sp := rfl
@[simp] theorem State.startStep_pc : (s.startStep).pc = s.pc := rfl
@[simp] theorem State.startStep_p : (s.startStep).p = s.p := rfl
@[simp] theorem State.startStep_ir : (s.startStep).ir = s.ir := rfl
@[simp] theorem State.startStep_t : (s.startStep).t = s.t := rfl
@[simp] theorem State.startStep_jam : (s.startStep).jam = s.jam := rfl
@[simp] theorem State.startStep_latch : (s.startStep).latch = s.latch := rfl
@[simp] theorem State.startStep_port : (s.startStep).port = s.port := rfl
@[simp] theorem State.startStep_mem : (s.startStep).mem = s.mem := rfl
@[simp] theorem State.startStep_sig : (s.startStep).sig = s.sig := rfl
@[simp] theorem State.startStep_params : (s.startStep).params = s.params := rfl
@[simp] theorem State.startStep_platform : (s.startStep).platform = s.platform := rfl
@[simp] theorem State.startStep_trace : s.startStep.trace = [] := rfl
end startStep

section clearDecision
variable (s : State)
@[simp] theorem State.clearDecision_a : (s.clearDecision).a = s.a := rfl
@[simp] theorem State.clearDecision_x : (s.clearDecision).x = s.x := rfl
@[simp] theorem State.clearDecision_y : (s.clearDecision).y = s.y := rfl
@[simp] theorem State.clearDecision_sp : (s.clearDecision).sp = s.sp := rfl
@[simp] theorem State.clearDecision_pc : (s.clearDecision).pc = s.pc := rfl
@[simp] theorem State.clearDecision_p : (s.clearDecision).p = s.p := rfl
@[simp] theorem State.clearDecision_ir : (s.clearDecision).ir = s.ir := rfl
@[simp] theorem State.clearDecision_jam : (s.clearDecision).jam = s.jam := rfl
@[simp] theorem State.clearDecision_latch : (s.clearDecision).latch = s.latch := rfl
@[simp] theorem State.clearDecision_port : (s.clearDecision).port = s.port := rfl
@[simp] theorem State.clearDecision_mem : (s.clearDecision).mem = s.mem := rfl
@[simp] theorem State.clearDecision_trace : (s.clearDecision).trace = s.trace := rfl
@[simp] theorem State.clearDecision_params : (s.clearDecision).params = s.params := rfl
@[simp] theorem State.clearDecision_platform : (s.clearDecision).platform = s.platform := rfl
@[simp] theorem State.clearDecision_t : s.clearDecision.t = 0 := rfl
@[simp] theorem State.clearDecision_inputs : s.clearDecision.sig.inputs = s.sig.inputs := rfl
@[simp] theorem State.clearDecision_clock : s.clearDecision.sig.clock = s.sig.clock := rfl
@[simp] theorem State.clearDecision_nmiPending : s.clearDecision.sig.nmiPending = s.sig.nmiPending := rfl
@[simp] theorem State.clearDecision_intDecision : s.clearDecision.sig.intDecision = false := rfl
end clearDecision

section jammedCycle
variable (s : State)
@[simp] theorem State.jammedCycle_a : (s.jammedCycle).a = s.a := rfl
@[simp] theorem State.jammedCycle_x : (s.jammedCycle).x = s.x := rfl
@[simp] theorem State.jammedCycle_y : (s.jammedCycle).y = s.y := rfl
@[simp] theorem State.jammedCycle_sp : (s.jammedCycle).sp = s.sp := rfl
@[simp] theorem State.jammedCycle_pc : (s.jammedCycle).pc = s.pc := rfl
@[simp] theorem State.jammedCycle_p : (s.jammedCycle).p = s.p := rfl
@[simp] theorem State.jammedCycle_ir : (s.jammedCycle).ir = s.ir := rfl
@[simp] theorem State.jammedCycle_t : (s.jammedCycle).t = s.t := rfl
@[simp] theorem State.jammedCycle_jam : (s.jammedCycle).jam = s.jam := rfl
@[simp] theorem State.jammedCycle_latch : (s.jammedCycle).latch = s.latch := rfl
@[simp] theorem State.jammedCycle_port : (s.jammedCycle).port = s.port := rfl
@[simp] theorem State.jammedCycle_mem : (s.jammedCycle).mem = s.mem := rfl
@[simp] theorem State.jammedCycle_trace : (s.jammedCycle).trace = s.trace := rfl
@[simp] theorem State.jammedCycle_params : (s.jammedCycle).params = s.params := rfl
@[simp] theorem State.jammedCycle_platform : (s.jammedCycle).platform = s.platform := rfl
@[simp] theorem State.jammedCycle_sig : s.jammedCycle.sig = s.sig.idleCycle := rfl
end jammedCycle

section poke
variable (s : State) (a : Word) (v : Byte)
@[simp] theorem State.poke_a : (s.poke a v).a = s.a := rfl
@[simp] theorem State.poke_x : (s.poke a v).x = s.x := rfl
@[simp] theorem State.poke_y : (s.poke a v).y = s.y := rfl
@[simp] theorem State.poke_sp : (s.poke a v).sp = s.sp := rfl
@[simp] theorem State.poke_pc : (s.poke a v).pc = s.pc := rfl
@[simp] theorem State.poke_p : (s.poke a v).p = s.p := rfl
@[simp] theorem State.poke_ir : (s.poke a v).ir = s.ir := rfl
@[simp] theorem State.poke_t : (s.poke a v).t = s.t := rfl
@[simp] theorem State.poke_jam : (s.poke a v).jam = s.jam := rfl
@[simp] theorem State.poke_latch : (s.poke a v).latch = s.latch := rfl
@[simp] theorem State.poke_sig : (s.poke a v).sig = s.sig := rfl
@[simp] theorem State.poke_trace : (s.poke a v).trace = s.trace := rfl
@[simp] theorem State.poke_params : (s.poke a v).params = s.params := rfl
@[simp] theorem State.poke_platform : (s.poke a v).platform = s.platform := rfl
@[simp] theorem State.poke_port : (s.poke a v).port = s.pokePort a v := rfl
@[simp] theorem State.poke_mem : (s.poke a v).mem = s.pokeMem a v := rfl
end poke

end Sys2Proof.Machine
end

