-- ==== Sys2Proof/Laws/Bus.lean ====
section
/-! SUPPORT. One spec lemma per bus operation: what a read, a write, a push, a pull gives when no RESET comes, and what every
bus operation keeps whatever comes. -/

namespace Sys2Proof.Machine

@[simp] theorem BusRun.andThen_done {α β : Type} (v : α) (s : State) (f : α → State → BusRun β) :
    (BusRun.done v s).andThen f = f v s := rfl

@[simp] theorem BusRun.andThen_reset {α β : Type} (s : State) (f : α → State → BusRun β) :
    (BusRun.reset s : BusRun α).andThen f = .reset s := rfl

@[simp] theorem BusRun.outcome_done {α : Type} (v : α) (s : State) :
    (BusRun.done v s).outcome = .next (s.setT 0) := rfl

@[simp] theorem BusRun.outcome_reset {α : Type} (s : State) :
    (BusRun.reset s : BusRun α).outcome = .next s.resetSequence := rfl

/-- Every run of bus cycles ends in a next state. -/
theorem BusRun.outcome_next {α : Type} (r : BusRun α) : ∃ t, r.outcome = .next t := by
  cases r <;> exact ⟨_, rfl⟩

/-- `P` holds of the state a run ends in, however it ends. -/
def BusRun.Keeps {α : Type} (P : State → Prop) (r : BusRun α) : Prop :=
  match r with
  | .done _ s => P s
  | .reset s => P s

theorem BusRun.Keeps.andThen {α β : Type} {P : State → Prop} {r : BusRun α} {f : α → State → BusRun β}
    (hr : r.Keeps P) (hf : ∀ v s, P s → (f v s).Keeps P) : (r.andThen f).Keeps P := by
  cases r with
  | done v s => exact hf v s hr
  | reset s => exact hr

/-! ## What a read and a write give -/

/-- `s` in the cycle of its next read, after the poll if there is one. -/
def State.atRead (s : State) (poll : Bool) : State :=
  if poll then (s.setSig s.sig.ready).poll else s.setSig s.sig.ready

/-- `s` after a read at `a`. -/
def State.afterRead (s : State) (a : Word) (poll : Bool) : State :=
  ((s.atRead poll).setPlatform ((s.atRead poll).platformAfterRead a)).endCycle false a ((s.atRead poll).spypeek a)

/-- `s` in the cycle of its next write, after the poll if there is one. -/
def State.atWrite (s : State) (poll : Bool) : State :=
  if poll then (s.setSig s.sig.beginNext).poll else s.setSig s.sig.beginNext

/-- `s` after a write of `v` at `a`. -/
def State.afterWrite (s : State) (a : Word) (v : Byte) (poll : Bool) : State :=
  ((s.atWrite poll).poke a v).endCycle true a v

theorem State.busRead_done (s : State) (a : Word) (poll : Bool) (h : s.sig.noReset) :
    s.busRead a poll = .done ((s.atRead poll).spypeek a) (s.afterRead a poll) := by
  unfold busRead
  rw [s.sig.startRead_ok h]
  rfl

theorem State.busWrite_done (s : State) (a : Word) (v : Byte) (poll : Bool) (h : s.sig.noReset) :
    s.busWrite a v poll = .done () (s.afterWrite a v poll) := by
  unfold busWrite
  rw [s.sig.startWrite_ok h]
  rfl

/-! ## The platform's map -/

/-- With no window, RAM answers at every address but the port's. -/
theorem State.responder_flat (s : State) (a : Word) (h : s.platform.windows = []) : s.responder a = none := by
  unfold responder Platform.responder
  rw [h]
  split_ifs <;> rfl

/-- With no window, a read takes nothing from the platform. -/
theorem State.platformAfterRead_flat (s : State) (a : Word) (h : s.platform.windows = []) :
    s.platformAfterRead a = s.platform := by
  simp only [platformAfterRead, s.responder_flat a h]

/-- No access changes the windows. -/
@[simp] theorem State.platformAfterRead_windows (s : State) (a : Word) :
    (s.platformAfterRead a).windows = s.platform.windows := by
  unfold platformAfterRead
  split <;> rfl

/-- With no window, a read gives a port register or a byte of RAM. -/
theorem State.byteAt_flat (s : State) (now : Nat) (a : Word) (h : s.platform.windows = []) :
    s.byteAt now a = if a = 0x0000 then s.port.ddr else if a = 0x0001 then s.port.read now s.params else s.mem.read a.toNat := by
  simp only [byteAt, s.responder_flat a h]

/-- With no window, a write reaches RAM. -/
theorem State.pokeMem_flat (s : State) (a : Word) (v : Byte) (h : s.platform.windows = []) :
    s.pokeMem a v = if a = 0x0000 ∨ a = 0x0001 then s.mem else s.mem.write a.toNat v := by
  simp only [pokeMem, s.responder_flat a h]

section fields
variable (s : State) (a : Word) (v : Byte) (poll : Bool)
@[simp] theorem State.afterRead_a : (s.afterRead a poll).a = s.a := by cases poll <;> rfl
@[simp] theorem State.afterRead_x : (s.afterRead a poll).x = s.x := by cases poll <;> rfl
@[simp] theorem State.afterRead_y : (s.afterRead a poll).y = s.y := by cases poll <;> rfl
@[simp] theorem State.afterRead_sp : (s.afterRead a poll).sp = s.sp := by cases poll <;> rfl
@[simp] theorem State.afterRead_pc : (s.afterRead a poll).pc = s.pc := by cases poll <;> rfl
@[simp] theorem State.afterRead_p : (s.afterRead a poll).p = s.p := by cases poll <;> rfl
@[simp] theorem State.afterRead_ir : (s.afterRead a poll).ir = s.ir := by cases poll <;> rfl
@[simp] theorem State.afterRead_jam : (s.afterRead a poll).jam = s.jam := by cases poll <;> rfl
@[simp] theorem State.afterRead_latch : (s.afterRead a poll).latch = s.latch := by cases poll <;> rfl
@[simp] theorem State.afterRead_port : (s.afterRead a poll).port = s.port := by cases poll <;> rfl
@[simp] theorem State.afterRead_mem : (s.afterRead a poll).mem = s.mem := by cases poll <;> rfl
@[simp] theorem State.afterRead_params : (s.afterRead a poll).params = s.params := by cases poll <;> rfl
@[simp] theorem State.afterRead_platform : (s.afterRead a poll).platform = s.platformAfterRead a := by cases poll <;> rfl
@[simp] theorem State.afterWrite_platform : (s.afterWrite a v poll).platform = s.platform := by cases poll <;> rfl
@[simp] theorem State.afterWrite_a : (s.afterWrite a v poll).a = s.a := by cases poll <;> rfl
@[simp] theorem State.afterWrite_x : (s.afterWrite a v poll).x = s.x := by cases poll <;> rfl
@[simp] theorem State.afterWrite_y : (s.afterWrite a v poll).y = s.y := by cases poll <;> rfl
@[simp] theorem State.afterWrite_sp : (s.afterWrite a v poll).sp = s.sp := by cases poll <;> rfl
@[simp] theorem State.afterWrite_pc : (s.afterWrite a v poll).pc = s.pc := by cases poll <;> rfl
@[simp] theorem State.afterWrite_p : (s.afterWrite a v poll).p = s.p := by cases poll <;> rfl
@[simp] theorem State.afterWrite_ir : (s.afterWrite a v poll).ir = s.ir := by cases poll <;> rfl
@[simp] theorem State.afterWrite_jam : (s.afterWrite a v poll).jam = s.jam := by cases poll <;> rfl
@[simp] theorem State.afterWrite_latch : (s.afterWrite a v poll).latch = s.latch := by cases poll <;> rfl
@[simp] theorem State.afterWrite_params : (s.afterWrite a v poll).params = s.params := by cases poll <;> rfl
@[simp] theorem State.afterRead_t : (s.afterRead a poll).t = s.t + 1 := by cases poll <;> rfl
@[simp] theorem State.afterWrite_t : (s.afterWrite a v poll).t = s.t + 1 := by cases poll <;> rfl
@[simp] theorem State.atRead_clock : (s.atRead poll).sig.clock = s.sig.ready.clock := by cases poll <;> rfl
@[simp] theorem State.atWrite_clock : (s.atWrite poll).sig.clock = s.sig.clock := by
  cases poll <;> simp [State.atWrite]
@[simp] theorem State.afterRead_clock : (s.afterRead a poll).sig.clock = s.sig.ready.clock + 1 := by
  simp [State.afterRead]
@[simp] theorem State.afterWrite_clock : (s.afterWrite a v poll).sig.clock = s.sig.clock + 1 := by
  simp [State.afterWrite]
@[simp] theorem State.afterWrite_mem : (s.afterWrite a v poll).mem = s.pokeMem a v := by cases poll <;> rfl
@[simp] theorem State.afterWrite_port : (s.afterWrite a v poll).port = s.pokePort a v := by
  cases poll <;> simp [State.afterWrite, State.atWrite, State.pokePort]
@[simp] theorem State.afterRead_trace_length : (s.afterRead a poll).trace.length = s.trace.length + 1 := by
  cases poll <;> simp [State.afterRead, State.atRead]
@[simp] theorem State.afterWrite_trace_length : (s.afterWrite a v poll).trace.length = s.trace.length + 1 := by
  cases poll <;> simp [State.afterWrite, State.atWrite]
end fields

theorem State.afterRead_noReset (s : State) (a : Word) (poll : Bool) (h : s.sig.noReset) :
    (s.afterRead a poll).sig.noReset := by
  cases poll <;> exact s.sig.ready_noReset h

theorem State.afterWrite_noReset (s : State) (a : Word) (v : Byte) (poll : Bool) (h : s.sig.noReset) :
    (s.afterWrite a v poll).sig.noReset := by
  cases poll <;> exact s.sig.beginNext_noReset h

/-! ## The byte at an address -/

/-- With no window, a read depends on the port, memory, the parameters, and for $0001 the clock; with a settled port on nothing
else. -/
theorem State.spypeek_of_kept (s t : State) (a : Word) (hp : t.port = s.port) (hm : t.mem = s.mem)
    (hq : t.params = s.params) (hl : t.platform.windows = s.platform.windows) (hs : s.Calm)
    (hc : s.sig.clock ≤ t.sig.clock) : t.spypeek a = s.spypeek a := by
  simp only [spypeek, byteAt_flat _ _ _ hs.flat, byteAt_flat _ _ _ (hl.trans hs.flat), hp, hm, hq,
    Port.read_of_settled _ _ _ _ hs.settled hc]

/-! ## What a quiet stretch of cycles keeps -/

/-- From `s` to `t` only latches, signals, the record and `T` have moved, and `t` is calm. -/
structure SameCpu (s t : State) : Prop where
  a      : t.a = s.a
  x      : t.x = s.x
  y      : t.y = s.y
  sp     : t.sp = s.sp
  pc     : t.pc = s.pc
  p      : t.p = s.p
  ir     : t.ir = s.ir
  jam    : t.jam = s.jam
  port   : t.port = s.port
  mem    : t.mem = s.mem
  params : t.params = s.params
  platform : t.platform = s.platform
  clock  : s.sig.clock ≤ t.sig.clock
  calm   : t.Calm

theorem SameCpu.refl {s : State} (h : s.Calm) : SameCpu s s :=
  ⟨rfl, rfl, rfl, rfl, rfl, rfl, rfl, rfl, rfl, rfl, rfl, rfl, Nat.le_refl _, h⟩

theorem SameCpu.trans {s t u : State} (h : SameCpu s t) (k : SameCpu t u) : SameCpu s u :=
  ⟨k.a.trans h.a, k.x.trans h.x, k.y.trans h.y, k.sp.trans h.sp, k.pc.trans h.pc, k.p.trans h.p, k.ir.trans h.ir,
   k.jam.trans h.jam, k.port.trans h.port, k.mem.trans h.mem, k.params.trans h.params,
   k.platform.trans h.platform, h.clock.trans k.clock, k.calm⟩

/-- A calm stretch keeps every byte a read can see. -/
theorem SameCpu.spypeek {s t : State} (h : SameCpu s t) (hs : s.Calm) (a : Word) : t.spypeek a = s.spypeek a :=
  State.spypeek_of_kept s t a h.port h.mem h.params (by rw [h.platform]) hs h.clock

/-- Latches are no part of what `SameCpu` compares. -/
theorem SameCpu.latch {s t : State} (h : SameCpu s t) (l : Latches) : SameCpu s { t with latch := l } :=
  ⟨h.a, h.x, h.y, h.sp, h.pc, h.p, h.ir, h.jam, h.port, h.mem, h.params, h.platform, h.clock,
   ⟨h.calm.noReset, h.calm.settled, h.calm.flat⟩⟩

theorem State.afterRead_same (s : State) (a : Word) (poll : Bool) (h : s.Calm) : SameCpu s (s.afterRead a poll) := by
  have hc : s.sig.clock ≤ (s.afterRead a poll).sig.clock := by
    have := s.sig.ready_clock
    simp only [afterRead_clock]
    omega
  have hl : (s.afterRead a poll).platform = s.platform := by rw [afterRead_platform, s.platformAfterRead_flat a h.flat]
  refine ⟨?_, ?_, ?_, ?_, ?_, ?_, ?_, ?_, ?_, ?_, ?_, hl, hc, s.afterRead_noReset a poll h.noReset, ?_, by rw [hl, h.flat]⟩ <;>
    try simp
  exact Port.settled_mono _ _ _ h.settled (by have := s.sig.ready_clock; omega)

/-- A read in calm: its byte is the one a debugger sees before it, and nothing of the CPU or memory moves. -/
theorem State.busRead_calm (s : State) (a : Word) (poll : Bool) (h : s.Calm) :
    ∃ t, s.busRead a poll = .done (s.spypeek a) t ∧ SameCpu s t ∧ t.latch = s.latch := by
  refine ⟨s.afterRead a poll, ?_, s.afterRead_same a poll h, by simp⟩
  rw [s.busRead_done a poll h.noReset]
  congr 1
  apply State.spypeek_of_kept _ _ _ _ _ _ _ h
  · simp [s.sig.ready_clock]
  all_goals cases poll <;> rfl

/-- A write in calm to a memory address: that byte is stored and nothing else of the CPU, the port or memory moves. -/
theorem State.busWrite_calm (s : State) (a : Word) (v : Byte) (poll : Bool) (h : s.Calm) (h0 : a ≠ 0x0000)
    (h1 : a ≠ 0x0001) :
    ∃ t, s.busWrite a v poll = .done () t ∧ SameCpu { s with mem := s.mem.write a.toNat v } t ∧ t.latch = s.latch := by
  refine ⟨s.afterWrite a v poll, s.busWrite_done a v poll h.noReset, ?_, by simp⟩
  have hm : (s.afterWrite a v poll).mem = s.mem.write a.toNat v := by
    rw [afterWrite_mem, pokeMem_flat _ _ _ h.flat, if_neg (not_or.mpr ⟨h0, h1⟩)]
  have hp : (s.afterWrite a v poll).port = s.port := by
    rw [afterWrite_port, pokePort, if_neg h0, if_neg h1]
  have hc : s.sig.clock ≤ (s.afterWrite a v poll).sig.clock := by rw [afterWrite_clock]; omega
  refine ⟨?_, ?_, ?_, ?_, ?_, ?_, ?_, ?_, hp, hm, ?_, ?_, hc, s.afterWrite_noReset a v poll h.noReset,
    by rw [hp]; exact Port.settled_mono _ _ _ h.settled hc,
    by rw [afterWrite_platform]; exact h.flat⟩ <;> simp

/-! ## What a store leaves -/

/-- Memory addresses apart, a byte of memory reads the same before and after a store elsewhere. -/
theorem State.spypeek_poke_other (s : State) (a b : Word) (v : Byte) (hf : s.platform.windows = []) (hb : b ≠ a)
    (h0 : b ≠ 0x0000) (h1 : b ≠ 0x0001) : (s.poke a v).spypeek b = s.spypeek b := by
  have hn : b.toNat ≠ a.toNat := fun h => hb (BitVec.eq_of_toNat_eq h)
  simp only [spypeek, byteAt_flat s _ _ hf, byteAt_flat (s.poke a v) _ _ hf, h0, h1, if_false, poke_mem,
    pokeMem_flat s _ _ hf]
  split_ifs
  · rfl
  · exact Memory.read_write_other _ _ _ _ hn

/-- A byte stored in memory reads back. -/
theorem State.spypeek_poke_same (s : State) (a : Word) (v : Byte) (hf : s.platform.windows = []) (h : s.mem.wf = true)
    (h0 : a ≠ 0x0000) (h1 : a ≠ 0x0001) : (s.poke a v).spypeek a = v := by
  simp only [spypeek, byteAt_flat (s.poke a v) _ _ hf, h0, h1, if_false, poke_mem, pokeMem_flat s _ _ hf, or_self]
  exact Memory.read_write_same _ _ _ 0 h

/-! ## What every bus operation keeps -/

theorem Discharge.afterWrite_consistent (d : Discharge) (now decay : Nat) (od oD nd nD : Bool)
    (h : if od then d = (if oD then .never else .already) else d ≠ .never) :
    if nd then d.afterWrite now decay od oD nd nD = (if nD then .never else .already)
    else d.afterWrite now decay od oD nd nD ≠ .never := by
  cases od <;> cases oD <;> cases nd <;> cases nD <;> simp_all [afterWrite]

theorem Port.write_consistent (p : Port) (now decay : Nat) (ddr data : Byte) (h : p.consistent) :
    (p.write now decay ddr data).consistent := by
  obtain ⟨h3, h6, h7⟩ := h
  exact ⟨p.float3.afterWrite_consistent now decay _ _ _ _ h3, p.float6.afterWrite_consistent now decay _ _ _ _ h6,
    p.float7.afterWrite_consistent now decay _ _ _ _ h7⟩

theorem State.pokePort_consistent (s : State) (a : Word) (v : Byte) (h : s.port.consistent) :
    (s.pokePort a v).consistent := by
  unfold pokePort
  split_ifs
  · exact Port.write_consistent _ _ _ _ _ h
  · exact Port.write_consistent _ _ _ _ _ h
  · exact h

theorem State.pokeMem_offPort (s : State) (a : Word) (v : Byte) (h : s.mem.offPort = true) :
    (s.pokeMem a v).offPort = true := by
  unfold pokeMem
  split_ifs with ha
  · exact h
  · rw [not_or] at ha
    have h0 : a.toNat ≠ 0 := fun e => ha.1 (BitVec.eq_of_toNat_eq e)
    have h1 : a.toNat ≠ 1 := fun e => ha.2 (BitVec.eq_of_toNat_eq e)
    split
    · exact h
    exact Memory.write_offPort _ _ _ h (by omega) a.isLt

/-- A read keeps the machine sound, however it ends. -/
theorem State.busRead_sound (s : State) (a : Word) (poll : Bool) (h : s.Sound) : (s.busRead a poll).Keeps State.Sound := by
  unfold busRead
  rcases Signals.startReadFrom_cases s.sig s.sig.inputs h.sig with ⟨g, hg, h0⟩ | ⟨g, hg, hr⟩
  · rw [show s.sig.startRead = .ok g from hg]
    cases poll <;> exact ⟨h.mem, h.port, rfl, h0⟩
  · rw [show s.sig.startRead = .error g from hg]
    exact ⟨h.mem, h.port, hr⟩

/-- A write keeps the machine sound, however it ends. -/
theorem State.busWrite_sound (s : State) (a : Word) (v : Byte) (poll : Bool) (h : s.Sound) :
    (s.busWrite a v poll).Keeps State.Sound := by
  unfold busWrite Signals.startWrite
  cases s.sig.resetNext
  · cases poll <;>
      exact ⟨State.pokeMem_offPort _ _ _ h.mem, State.pokePort_consistent _ _ _ h.port, rfl, s.sig.beginNext_h0⟩
  · exact h

end Sys2Proof.Machine
end

