-- ==== Sys2Proof/Laws/Decode.lean ====
section
/-! SUPPORT. The two bytes of a word, and the size of the opcode matrix. -/

namespace Sys2Proof

theorem Word.toNat_ofBytes (h l : Byte) : (Word.ofBytes h l).toNat = h.toNat * 256 + l.toNat := by
  have := l.isLt
  unfold Word.ofBytes
  rw [BitVec.toNat_append, ← Nat.shiftLeft_add_eq_or_of_lt (by omega), Nat.shiftLeft_eq]

theorem Word.toNat_hi (w : Word) : w.hi.toNat = w.toNat / 256 := by
  have := w.isLt
  simp only [Word.hi, BitVec.extractLsb'_toNat, Nat.shiftRight_eq_div_pow]
  omega

theorem Word.toNat_lo (w : Word) : w.lo.toNat = w.toNat % 256 := by
  simp [Word.lo, BitVec.extractLsb'_toNat]

theorem Word.toNat_eq (w : Word) : w.toNat = w.hi.toNat * 256 + w.lo.toNat := by
  rw [Word.toNat_hi, Word.toNat_lo]; omega

@[simp] theorem Word.ofBytes_hi_lo (w : Word) : Word.ofBytes w.hi w.lo = w :=
  BitVec.eq_of_toNat_eq (by rw [Word.toNat_ofBytes, ← Word.toNat_eq])

@[simp] theorem Word.hi_ofBytes (h l : Byte) : (Word.ofBytes h l).hi = h := by
  have := l.isLt
  apply BitVec.eq_of_toNat_eq
  rw [Word.toNat_hi, Word.toNat_ofBytes]
  omega

@[simp] theorem Word.lo_ofBytes (h l : Byte) : (Word.ofBytes h l).lo = l := by
  have := l.isLt
  apply BitVec.eq_of_toNat_eq
  rw [Word.toNat_lo, Word.toNat_ofBytes]
  omega

theorem Opcode.matrix_length : Opcode.matrix.length = 256 := by
  simp only [Opcode.matrix, List.length_append]; rfl

end Sys2Proof
end

