-- ==== Sys2Proof/Machine/HostInterface.lean ====
section
/-! DEFINITION. What the emulator around the CPU sees of it (60_exceptions.md, section 5): the debugger's view, breakpoints and
watchpoints, the run loop with its flags and frame boundaries, the stepping commands, inspection and snapshots. Nothing here changes the
CPU but `step` and the loading of a snapshot (logs 20, 27). -/

namespace Sys2Proof.Machine

/-- `P` as a debugger shows it (R363, R32, R33): bit 5 is 1 and bit 4 (B) is 0. -/
def State.debugP (s : State) : Byte := s.p.image false

/-- The registers as a debugger shows them (R363: those of R21 to R35, `P` with bit 5 at 1 and B at 0). -/
structure RegisterView where
  a  : Byte
  x  : Byte
  y  : Byte
  sp : Byte
  pc : Word
  p  : Byte
  deriving DecidableEq, Repr

/-- The debugger's view of the registers (R363). -/
def State.registerView (s : State) : RegisterView := { a := s.a, x := s.x, y := s.y, sp := s.sp, pc := s.pc, p := s.debugP }

/-- What `inspect()` is configured for (R363): the CPU, a stretch of memory, or a component outside this block (R4). The spec lists
no targets (DESIGN CHOICE, log 27). -/
inductive InspectTarget where
  | cpu
  | memory (first : Word) (count : Nat)
  | outside
  deriving DecidableEq, Repr

/-- What an inspection shows. -/
inductive Inspection where
  | registers (view : RegisterView)
  | bytes (first : Word) (values : List Byte)
  deriving DecidableEq, Repr

/-- `inspect()` for a target (R363): the registers, or memory as `spypeek` reads it, without side effects (R63). A target outside this
block shows nothing of it. -/
def State.inspect (s : State) (target : InspectTarget) : Option Inspection :=
  match target with
  | .cpu => some (.registers s.registerView)
  | .memory first count => some (.bytes first ((List.range count).map fun k => s.spypeek (first + BitVec.ofNat 16 k)))
  | .outside => none

/-- The next step is an instruction: its T0 is an opcode fetch, not a cycle of an interrupt or reset sequence (R361). -/
def State.fetchesNext (s : State) : Bool := !s.sig.resetNext && !s.jam && !s.sig.intDecision

/-- The master clock cycle in which the next step fetches its opcode: T0, after every cycle in which RDY holds it (R317); none where
it fetches none, also because a RESET comes while T0 is held (R380). -/
def State.opcodeFetch (s : State) : Option Nat :=
  if s.fetchesNext then
    match s.sig.startRead with
    | .ok g => some g.clock
    | .error _ => none
  else none

/-- A breakpoint is reached in the next step (R361, D30): its address is compared with `PC` at the opcode fetch of an instruction. -/
def State.atBreakpoint (s : State) (breakpoints : List Word) : Bool := s.opcodeFetch.isSome && breakpoints.contains s.pc

/-- A watchpoint is reached in the step that ended in `s` (R361): its address is compared with that of every bus access. -/
def State.hitWatchpoint (s : State) (watchpoints : List Word) : Bool := s.trace.any fun c => watchpoints.contains c.addr

/-- Where `stepOver()` sets its one-shot breakpoint (R362): `PC` plus the instruction's length. -/
def State.stepOverAddress (s : State) : Word := s.pc + BitVec.ofNat 16 (Opcode.length (s.spypeek s.pc))

/-- The flags of the run loop's control word, in the order of their priority (R360, R361). -/
inductive RunLoopFlag where
  | stop | jammed | breakpoint | watchpoint | inspect | autoSnapshot | userSnapshot
  deriving DecidableEq, Repr

/-- R360: "STOP > JAMMED > BREAKPOINT > WATCHPOINT > INSPECT > AUTO_SNAPSHOT > USER_SNAPSHOT". -/
def RunLoopFlag.byPriority : List RunLoopFlag :=
  [.stop, .jammed, .breakpoint, .watchpoint, .inspect, .autoSnapshot, .userSnapshot]

/-- The flags set, in the order in which one frame boundary serves them (R360). -/
def RunLoopFlag.served (flags : List RunLoopFlag) : List RunLoopFlag := byPriority.filter fun f => flags.contains f

/-- The flag breaks the run loop: a jam (R360), a breakpoint, a watchpoint ("both → break", R361); and STOP, by its name
(DEDUCED, log 20). -/
def RunLoopFlag.breaks : RunLoopFlag → Bool
  | .stop | .jammed | .breakpoint | .watchpoint => true
  | .inspect | .autoSnapshot | .userSnapshot => false

/-- The messages that R360 and R361 name. -/
inductive Message where
  | cpuJammed | breakpointReached
  deriving DecidableEq, Repr

/-- The message that serving a flag emits: `CPU_JAMMED` (R360), `BREAKPOINT_REACHED` (R361); a watchpoint has none
(DESIGN CHOICE, log 20). -/
def RunLoopFlag.message : RunLoopFlag → Option Message
  | .jammed => some .cpuJammed
  | .breakpoint => some .breakpointReached
  | .stop | .watchpoint | .inspect | .autoSnapshot | .userSnapshot => none

/-- The run loop around a CPU (R360 to R364). -/
structure RunLoop where
  cpu         : State
  /-- The control word: the flags set since they were last served. -/
  flags       : List RunLoopFlag
  paused      : Bool
  breakpoints : List Word
  watchpoints : List Word
  /-- The one-shot soft breakpoint of `stepOver()` (R362). -/
  soft        : Option Word
  /-- The messages emitted, oldest first. -/
  messages    : List Message
  /-- The configured target of `inspect()` (R363). -/
  target      : InspectTarget
  /-- What `inspect()` showed, oldest first. -/
  inspections : List Inspection
  /-- The CPU side of the snapshots taken, oldest first: the whole state (R364). -/
  snapshots   : List State
  deriving DecidableEq, Repr

/-- The breakpoints in force, the soft one among them. -/
def RunLoop.allBreakpoints (r : RunLoop) : List Word := r.soft.toList ++ r.breakpoints

/-- The flags that the CPU's step to `t` sets, each with its cycle of the master clock (R360, R361): a breakpoint at the opcode
fetch, a watchpoint at each access of its address, a jam in the cycle of the JAM opcode. -/
def RunLoop.raised (r : RunLoop) (t : State) : List (Nat × RunLoopFlag) :=
  (if r.allBreakpoints.contains r.cpu.pc then r.cpu.opcodeFetch.toList.map (fun clock => (clock, .breakpoint)) else []) ++
    (t.trace.filter fun c => r.watchpoints.contains c.addr).map (fun c => (c.clock, .watchpoint)) ++
    if t.jam && !r.cpu.jam then [(t.sig.clock - 1, .jammed)] else []

/-- Setting flags in the control word: those of the CPU side; STOP, INSPECT and the snapshots are set by the host. -/
def RunLoop.setFlags (r : RunLoop) (flags : List RunLoopFlag) : RunLoop := { r with flags := r.flags ++ flags }

/-- What serving a flag inspects: INSPECT calls `inspect()` for the configured target (R363). -/
def RunLoop.inspected (r : RunLoop) : RunLoopFlag → Option Inspection
  | .inspect => r.cpu.inspect r.target
  | .stop | .jammed | .breakpoint | .watchpoint | .autoSnapshot | .userSnapshot => none

/-- What serving a flag saves: a snapshot holds the CPU's state (R364). -/
def RunLoop.saved (r : RunLoop) : RunLoopFlag → Option State
  | .autoSnapshot | .userSnapshot => some r.cpu
  | .stop | .jammed | .breakpoint | .watchpoint | .inspect => none

/-- `endFrame()` (R360): at a frame boundary the flags set are served in the order of their priority: messages are emitted, the
configured target is inspected (R363), snapshots are taken (R364); a flag that breaks pauses the loop. All of them
are served and cleared, also after one that breaks (DESIGN CHOICE, log 20). -/
def RunLoop.endFrame (r : RunLoop) : RunLoop :=
  let served := RunLoopFlag.served r.flags
  { r with flags := [], paused := r.paused || served.any RunLoopFlag.breaks,
           messages := r.messages ++ served.filterMap RunLoopFlag.message
           inspections := r.inspections ++ served.filterMap r.inspected
           snapshots := r.snapshots ++ served.filterMap r.saved }

/-- Loading a snapshot: the CPU's state is the one saved (R364: "load(save(state)) == state"). -/
def RunLoop.load (r : RunLoop) (snapshot : State) : RunLoop := { r with cpu := snapshot }

/-- The CPU after a step, in the run loop; a soft breakpoint that was reached is used up (R362: "one-shot"). -/
def RunLoop.setCpu (r : RunLoop) (t : State) : RunLoop :=
  { r with cpu := t, soft := if r.cpu.atBreakpoint r.soft.toList then none else r.soft }

/-- One step of the CPU in the run loop, with `frame` master clock cycles in a frame, so that the frame boundaries are the multiples
of `frame` (95_test_vectors.md: "master_clock == frames · cycles_per_frame"). A flag never stops the CPU before the boundary: the
loop "sets a run-loop flag and finishes at the next frame boundary" (R360). A boundary inside the step is served at its end,
with the flags of the cycles before it (DESIGN CHOICE, log 20). -/
def RunLoop.advance (frame : Nat) (r : RunLoop) : RunLoop :=
  match step r.cpu with
  | .next t =>
    let boundary := t.sig.clock / frame * frame
    let before := (r.raised t).filter fun e => e.1 < boundary
    let after := (r.raised t).filter fun e => !(e.1 < boundary)
    let r' := (r.setCpu t).setFlags (before.map Prod.snd)
    (if r.cpu.sig.clock < boundary then r'.endFrame else r').setFlags (after.map Prod.snd)
  | .fault _ | .refused _ => { r with paused := true }

/-- The run loop until it pauses, at most `fuel` steps. -/
def RunLoop.run (frame : Nat) : Nat → RunLoop → RunLoop
  | 0, r => r
  | fuel + 1, r => if r.paused then r else (r.advance frame).run frame fuel

/-- A paused loop goes on. -/
def RunLoop.resume (r : RunLoop) : RunLoop := { r with paused := false }

/-- The steps of `stepInto()` after it has resumed the loop. -/
def RunLoop.stepIntoFrom (frame : Nat) : Nat → RunLoop → RunLoop
  | 0, r => r
  | fuel + 1, r =>
    let r := r.advance frame
    if r.paused then r
    else if r.cpu.opcodeFetch.isSome then { r with paused := true }
    else r.stepIntoFrom frame fuel

/-- `stepInto()` (R362): "runs until the current CPU instruction retires and one more fetch begins, then pauses"; interrupt and
reset sequences in between are run, and a fetch that RDY holds until a RESET comes does not begin. A jam has no more
fetch: the loop pauses at the frame boundary (R360). -/
def RunLoop.stepInto (frame fuel : Nat) (r : RunLoop) : RunLoop := r.resume.stepIntoFrom frame fuel

/-- `stepOver()` (R362): "sets a one-shot soft breakpoint at PC + instruction-length and runs". The soft breakpoint is served like
any other; it "may never be reached", and then the loop runs on, at most `fuel` steps. -/
def RunLoop.stepOver (frame fuel : Nat) (r : RunLoop) : RunLoop :=
  RunLoop.run frame fuel { r.resume with soft := some r.cpu.stepOverAddress }

end Sys2Proof.Machine
end

