-- ==== Sys2Proof/Laws/HostInterface.lean ====
section
/-! SUPPORT. What the run loop does: it steps the CPU and changes nothing of it; it pauses at frame boundaries, and a flag that
breaks is served at the next one. -/

namespace Sys2Proof.Machine

section fields
variable (r : RunLoop) (t : State) (flags : List RunLoopFlag)
@[simp] theorem RunLoop.setFlags_cpu : (r.setFlags flags).cpu = r.cpu := rfl
@[simp] theorem RunLoop.setFlags_paused : (r.setFlags flags).paused = r.paused := rfl
@[simp] theorem RunLoop.setFlags_flags : (r.setFlags flags).flags = r.flags ++ flags := rfl
@[simp] theorem RunLoop.setFlags_messages : (r.setFlags flags).messages = r.messages := rfl
@[simp] theorem RunLoop.setCpu_cpu : (r.setCpu t).cpu = t := rfl
@[simp] theorem RunLoop.setCpu_paused : (r.setCpu t).paused = r.paused := rfl
@[simp] theorem RunLoop.setCpu_flags : (r.setCpu t).flags = r.flags := rfl
@[simp] theorem RunLoop.endFrame_cpu : r.endFrame.cpu = r.cpu := rfl
@[simp] theorem RunLoop.load_cpu : (r.load t).cpu = t := rfl
@[simp] theorem RunLoop.endFrame_flags : r.endFrame.flags = [] := rfl
@[simp] theorem RunLoop.resume_cpu : r.resume.cpu = r.cpu := rfl
@[simp] theorem RunLoop.resume_paused : r.resume.paused = false := rfl
end fields

theorem RunLoopFlag.mem_served (f : RunLoopFlag) (flags : List RunLoopFlag) : f ∈ served flags ↔ f ∈ flags := by
  cases f <;> simp [served, byPriority]

/-- With no RESET coming an instruction's opcode is fetched, in the first cycle that RDY does not hold. -/
theorem State.opcodeFetch_ok (s : State) (hf : s.fetchesNext = true) (h : s.sig.noReset) :
    s.opcodeFetch = some s.sig.ready.clock := by
  simp only [opcodeFetch, hf, if_true, s.sig.startRead_ok h]

/-- The cycle of the opcode fetch is the cycle of a read at `PC` that the step performs first. -/
theorem State.opcodeFetch_performed (s : State) (clock : Nat) (h : s.opcodeFetch = some clock) :
    ∃ v t, s.busRead s.pc = .done v t ∧
      t.trace = s.trace ++ [{ t := s.t, clock := clock, write := false, addr := s.pc, data := v }] := by
  unfold opcodeFetch at h
  split_ifs at h
  cases hs : s.sig.startRead with
  | error g => rw [hs] at h; cases h
  | ok g =>
    rw [hs] at h
    cases h
    exact ⟨_, _, by simp only [busRead, hs]; rfl, rfl⟩

/-- A frame boundary with INSPECT set shows the configured target once; one without it shows nothing (R363). -/
theorem RunLoop.endFrame_inspections (r : RunLoop) :
    r.endFrame.inspections =
      r.inspections ++ if RunLoopFlag.inspect ∈ r.flags then (r.cpu.inspect r.target).toList else [] := by
  simp only [endFrame, RunLoopFlag.served, List.filterMap_filter, RunLoopFlag.byPriority, List.contains_eq_mem,
    List.filterMap_cons, List.filterMap_nil, inspected, ite_self, decide_eq_true_eq]
  by_cases h : RunLoopFlag.inspect ∈ r.flags <;> cases r.cpu.inspect r.target <;> simp [h]

/-- A frame boundary saves the CPU's state for each snapshot flag set (R364). -/
theorem RunLoop.endFrame_snapshots (r : RunLoop) :
    r.endFrame.snapshots = r.snapshots ++ ((if RunLoopFlag.autoSnapshot ∈ r.flags then [r.cpu] else []) ++
      if RunLoopFlag.userSnapshot ∈ r.flags then [r.cpu] else []) := by
  simp only [endFrame, RunLoopFlag.served, List.filterMap_filter, RunLoopFlag.byPriority, List.contains_eq_mem,
    List.filterMap_cons, List.filterMap_nil, saved, ite_self, decide_eq_true_eq]
  by_cases h : RunLoopFlag.autoSnapshot ∈ r.flags <;> by_cases k : RunLoopFlag.userSnapshot ∈ r.flags <;> simp [h, k]

/-- A step sets the breakpoint flag exactly if a breakpoint is reached: no other step does, one abandoned before its fetch among
them (R361). -/
theorem RunLoop.raised_breakpoint (r : RunLoop) (t : State) :
    RunLoopFlag.breakpoint ∈ (r.raised t).map Prod.snd ↔ r.cpu.atBreakpoint r.allBreakpoints = true := by
  simp only [raised, State.atBreakpoint, List.map_append, List.mem_append, List.map_map]
  cases r.cpu.opcodeFetch <;> split_ifs <;> simp_all

/-- A step sets the watchpoint flag exactly if it accesses a watched address (R361). -/
theorem RunLoop.raised_watchpoint (r : RunLoop) (t : State) :
    RunLoopFlag.watchpoint ∈ (r.raised t).map Prod.snd ↔ t.hitWatchpoint r.watchpoints = true := by
  simp only [raised, State.hitWatchpoint, List.map_append, List.mem_append, List.map_map, List.any_eq_true]
  split_ifs <;> simp

/-- A frame boundary pauses the loop exactly if a flag that breaks is set (R360, R361). -/
theorem RunLoop.endFrame_paused (r : RunLoop) (h : r.paused = false) :
    r.endFrame.paused = true ↔ ∃ f ∈ r.flags, f.breaks = true := by
  simp [endFrame, h, RunLoopFlag.mem_served]

/-- The CPU is stepped and nothing else (R361: "never change CPU state"). -/
theorem RunLoop.advance_cpu (frame : Nat) (r : RunLoop) (t : State) (h : step r.cpu = .next t) :
    (r.advance frame).cpu = t := by
  simp only [advance, h, setFlags_cpu]
  split <;> simp

/-- Inside a frame no flag pauses the loop: it "finishes at the next frame boundary" (R360). -/
theorem RunLoop.advance_inside (frame : Nat) (r : RunLoop) (t : State) (h : step r.cpu = .next t)
    (hb : t.sig.clock / frame * frame ≤ r.cpu.sig.clock) : (r.advance frame).paused = r.paused := by
  simp only [advance, h, setFlags_paused, if_neg (Nat.not_lt.2 hb), setCpu_paused]

/-- A flag that breaks, set before a frame boundary, pauses the loop at it. -/
theorem RunLoop.advance_breaks (frame : Nat) (r : RunLoop) (t : State) (h : step r.cpu = .next t)
    (hb : r.cpu.sig.clock < t.sig.clock / frame * frame) (hf : ∃ f ∈ r.flags, f.breaks = true) :
    (r.advance frame).paused = true := by
  obtain ⟨f, hf, hbr⟩ := hf
  simp only [advance, h, setFlags_paused, if_pos hb, endFrame, Bool.or_eq_true, List.any_eq_true]
  exact .inr ⟨f, (f.mem_served _).2 (by simp [hf]), hbr⟩

/-- Whatever the outcome, the CPU afterwards is that of at most one step of the machine. -/
theorem RunLoop.advance_steps (frame : Nat) (r : RunLoop) :
    (∃ t, step r.cpu = .next t ∧ (r.advance frame).cpu = t) ∨
    (∃ e, step r.cpu = .refused e) ∧ r.advance frame = { r with paused := true } := by
  cases h : step r.cpu with
  | next t => exact .inl ⟨t, rfl, r.advance_cpu frame t h⟩
  | fault e => nomatch e
  | refused e => exact .inr ⟨⟨e, rfl⟩, by simp only [advance, h]⟩

/-- A run of the loop is a run of the machine. -/
theorem RunLoop.run_cpu (frame fuel : Nat) (r : RunLoop) :
    ∃ k ≤ fuel, Sys2Proof.core.run k r.cpu = .next (r.run frame fuel).cpu := by
  induction fuel generalizing r with
  | zero => exact ⟨0, Nat.le_refl 0, rfl⟩
  | succ fuel ih =>
    unfold run
    split_ifs
    · exact ⟨0, Nat.zero_le _, rfl⟩
    · rcases r.advance_steps frame with ⟨t, ht, hc⟩ | ⟨-, he⟩
      · obtain ⟨k, hk, hr⟩ := ih (r.advance frame)
        rw [hc] at hr
        exact ⟨k + 1, by omega, by
          simp only [Host.Core.run, show Sys2Proof.core.step r.cpu = .next t from ht]; exact hr⟩
      · exact ⟨0, Nat.zero_le _, by rw [he]; cases fuel <;> rfl⟩

/-- `stepOver()` only steps the machine (R361, R362). -/
theorem RunLoop.stepOver_cpu (frame fuel : Nat) (r : RunLoop) :
    ∃ k ≤ fuel, Sys2Proof.core.run k r.cpu = .next (r.stepOver frame fuel).cpu :=
  RunLoop.run_cpu frame fuel { r.resume with soft := some r.cpu.stepOverAddress }

end Sys2Proof.Machine
end

