-- ==== Sys2Proof/Laws/Operands.lean ====
section
/-! SUPPORT. The addressing modes in calm: the cycles of `Mem.resolve` leave the effective address of the mode's rule in `AD`,
and the shapes of instruction give their operation on the operand. -/

namespace Sys2Proof.Machine

/-- Adding an index and correcting the high byte is the 16-bit addition of R110, R111, R114. -/
theorem fixHigh_addIndex (s : State) (b : Byte) :
    (s.addIndex b).fixHigh.latch.ad = s.latch.ad + b.zeroExtend 16 := by
  have key : s.latch.ad.toNat = s.latch.ad.hi.toNat * 256 + s.latch.ad.lo.toNat := Word.toNat_eq s.latch.ad
  have hb := b.isLt
  have hl := s.latch.ad.lo.isLt
  have hh := s.latch.ad.hi.isLt
  have h1 : (1 : Byte).toNat = 1 := rfl
  apply BitVec.eq_of_toNat_eq
  unfold State.fixHigh
  split_ifs with h
  · simp only [State.addIndex_pageCross, decide_eq_true_eq] at h
    simp only [State.setAD_ad, State.addIndex_ad, Word.hi_ofBytes, Word.lo_ofBytes, Word.toNat_ofBytes, BitVec.toNat_add,
      BitVec.toNat_setWidth, key, h1]
    omega
  · simp only [State.addIndex_pageCross, decide_eq_true_eq] at h
    simp only [State.addIndex_ad, Word.toNat_ofBytes, BitVec.toNat_add, BitVec.toNat_setWidth, key]
    omega

/-- Without a carry the address needs no correction. -/
theorem fixHigh_of_not_pageCross (s : State) (h : s.latch.pageCross = false) : s.fixHigh = s := by
  simp [State.fixHigh, h]

theorem SameCpu.fixHigh {s t : State} (h : SameCpu s t) : SameCpu s t.fixHigh := by
  unfold State.fixHigh
  split_ifs
  · exact h.latch _
  · exact h

/-- The index addition with its dummy read leaves `AD + idx`. -/
theorem indexed_calm (s : State) (always : Bool) (idx : Byte) (h : s.Calm) :
    ∃ t, s.indexed always idx = .done () t ∧ SameCpu s t ∧ t.latch.ad = s.latch.ad + idx.zeroExtend 16 ∧
      t.latch.pageCross = decide (s.latch.ad.lo.toNat + idx.toNat > 0xFF) := by
  have hs : SameCpu s (s.addIndex idx) := (SameCpu.refl h).latch _
  simp only [State.indexed]
  split_ifs with hc
  · obtain ⟨t, ht, hst, hl⟩ := State.busRead_calm (s.addIndex idx) (s.addIndex idx).latch.ad false hs.calm
    refine ⟨t.fixHigh, by rw [ht]; rfl, hs.trans hst.fixHigh, ?_, ?_⟩
    · rw [← fixHigh_addIndex]
      simp only [State.fixHigh, hl]
      split_ifs <;> simp [hl]
    · simp only [State.fixHigh, hl]
      split_ifs <;> simp [hl]
  · simp only [Bool.or_eq_true, not_or, Bool.not_eq_true] at hc
    refine ⟨_, rfl, hs, ?_, rfl⟩
    rw [← fixHigh_addIndex, fixHigh_of_not_pageCross _ hc.2]

/-- The two pointer reads leave the 16-bit pointer in `AD`, its high byte from the next address of page zero (R68). -/
theorem readPointer_calm (s : State) (h : s.Calm) :
    ∃ t, s.readPointer = .done () t ∧ SameCpu s t ∧
      t.latch.ad = Word.ofBytes (s.spypeek (zeroPage (s.latch.ptr + 1))) (s.spypeek (zeroPage s.latch.ptr)) := by
  unfold State.readPointer
  obtain ⟨t, ht, hst, hl⟩ := State.busRead_calm s (zeroPage s.latch.ptr) false h
  have hst' : SameCpu s (t.setAD (Word.ofBytes t.latch.ad.hi (s.spypeek (zeroPage s.latch.ptr)))) := hst.latch _
  obtain ⟨u, hu, htu, hlu⟩ := State.busRead_calm _ (zeroPage (t.latch.ptr + 1)) false hst'.calm
  refine ⟨u.setAD (Word.ofBytes ((t.setAD (Word.ofBytes t.latch.ad.hi (s.spypeek (zeroPage s.latch.ptr)))).spypeek
    (zeroPage (t.latch.ptr + 1))) u.latch.ad.lo), ?_, (hst'.trans htu).latch _, ?_⟩
  · rw [ht]
    simp only [BusRun.andThen_done, State.setAD_ptr]
    rw [hu]
    rfl
  rw [State.setAD_ad, hlu, State.setAD_ad, Word.lo_ofBytes, hst'.spypeek h, hl]

theorem zeroPageIndexed_calm (s : State) (b idx : Byte) (h : s.Calm) :
    ∃ t, s.zeroPageIndexed b idx = .done () t ∧ SameCpu s t ∧ t.latch.ad = zeroPage (b + idx) := by
  unfold State.zeroPageIndexed
  have hs : SameCpu s (s.setAD (zeroPage b)) := (SameCpu.refl h).latch _
  obtain ⟨t, ht, hst, hl⟩ := State.busRead_calm _ (s.setAD (zeroPage b)).latch.ad false hs.calm
  refine ⟨_, by simp only [ht, BusRun.andThen_done]; rfl, (hs.trans hst).latch _, ?_⟩
  simp [hl, zeroPage]

/-- The cycles before the access leave the mode's effective address in `AD` (R106 to R114), whether the instruction reads,
writes or modifies, and nothing else of the CPU or memory moves. -/
theorem ea_resolve (m : Mem) (always : Bool) (s : State) (h : s.Calm) :
    ∃ t, m.resolve always s = .done () t ∧ SameCpu s t ∧ t.latch.ad = m.ea s := by
  cases m with
  | zp b => exact ⟨_, rfl, (SameCpu.refl h).latch _, rfl⟩
  | zpx b => exact zeroPageIndexed_calm s b s.x h
  | zpy b => exact zeroPageIndexed_calm s b s.y h
  | abs w => exact ⟨_, rfl, (SameCpu.refl h).latch _, rfl⟩
  | abx w =>
    have hs : SameCpu s (s.setAD w) := (SameCpu.refl h).latch _
    obtain ⟨t, ht, hst, had, -⟩ := indexed_calm (s.setAD w) always s.x hs.calm
    exact ⟨t, ht, hs.trans hst, had⟩
  | aby w =>
    have hs : SameCpu s (s.setAD w) := (SameCpu.refl h).latch _
    obtain ⟨t, ht, hst, had, -⟩ := indexed_calm (s.setAD w) always s.y hs.calm
    exact ⟨t, ht, hs.trans hst, had⟩
  | izx b =>
    have hs : SameCpu s (s.setPTR b) := (SameCpu.refl h).latch _
    obtain ⟨t, ht, hst, hl⟩ := State.busRead_calm (s.setPTR b) (zeroPage (s.setPTR b).latch.ptr) false hs.calm
    have hst' : SameCpu s (t.setPTR (t.latch.ptr + t.x)) := (hs.trans hst).latch _
    obtain ⟨u, hu, htu, had⟩ := readPointer_calm _ hst'.calm
    refine ⟨u, by simp only [Mem.resolve, ht, BusRun.andThen_done, hu], hst'.trans htu, ?_⟩
    rw [had, hst'.spypeek h, hst'.spypeek h]
    simp [hl, hst.x, Mem.ea]
  | izy b =>
    have hs : SameCpu s (s.setPTR b) := (SameCpu.refl h).latch _
    obtain ⟨t, ht, hst, had⟩ := readPointer_calm (s.setPTR b) hs.calm
    obtain ⟨u, hu, htu, hau, -⟩ := indexed_calm t always t.y hst.calm
    refine ⟨u, by simp only [Mem.resolve, ht, BusRun.andThen_done, hu], (hs.trans hst).trans htu, ?_⟩
    rw [hau, had, hst.y, hs.spypeek h, hs.spypeek h]
    rfl

end Sys2Proof.Machine

namespace Sys2Proof

open Machine

/-- A read instruction's operand in calm (R116). -/
theorem Mem.load_calm (m : Mem) (s : State) (h : s.Calm) :
    ∃ t, m.load s = .done (s.spypeek (m.ea s)) t ∧ SameCpu s t := by
  obtain ⟨t, ht, hst, had⟩ := ea_resolve m false s h
  obtain ⟨u, hu, htu, -⟩ := State.busRead_calm t t.latch.ad true hst.calm
  refine ⟨u, by simp only [Mem.load, ht, BusRun.andThen_done, hu, hst.spypeek h]; rw [had], hst.trans htu⟩

theorem Src.load_calm (o : Src) (s : State) (h : s.Calm) : ∃ t, o.load s = .done (o.value s) t ∧ SameCpu s t := by
  cases o with
  | imm b => exact ⟨s, rfl, SameCpu.refl h⟩
  | mem m => exact Mem.load_calm m s h

end Sys2Proof

namespace Sys2Proof.Machine

/-- What a read instruction gives in calm: its operation on the operand, in a state that differs from `s` in latches and signals
only. -/
theorem readInstr_src (o : Src) (f : Byte → State → State) (s : State) (h : s.Calm) :
    ∃ t, SameCpu s t ∧ readInstr o.load f s = .next ((f (o.value s) t).setT 0) := by
  obtain ⟨t, ht, hst⟩ := o.load_calm s h
  exact ⟨t, hst, by simp only [readInstr, ht, BusRun.andThen_done, BusRun.outcome_done]⟩

theorem readInstr_mem (m : Mem) (f : Byte → State → State) (s : State) (h : s.Calm) :
    ∃ t, SameCpu s t ∧ readInstr m.load f s = .next ((f (s.spypeek (m.ea s)) t).setT 0) := by
  obtain ⟨t, ht, hst⟩ := Mem.load_calm m s h
  exact ⟨t, hst, by simp only [readInstr, ht, BusRun.andThen_done, BusRun.outcome_done]⟩

/-- What an implied instruction gives in calm. -/
theorem impliedInstr_calm (f : State → State) (s : State) (h : s.Calm) :
    ∃ t, SameCpu s t ∧ impliedInstr f s = .next ((f t).setT 0) := by
  obtain ⟨t, ht, hst, -⟩ := State.busRead_calm s s.pc true h
  exact ⟨t, hst, by simp only [impliedInstr, ht, BusRun.andThen_done, BusRun.outcome_done]⟩

/-- What a write instruction gives in calm: the store at the effective address, in a state `t` that differs from `s` in latches
and signals only. -/
theorem writeInstr_calm (m : Mem) (v : Byte) (s : State) (h : s.Calm) :
    ∃ t, SameCpu s t ∧ t.latch.ad = m.ea s ∧ writeInstr m v s = .next ((t.afterWrite (m.ea s) v true).setT 0) := by
  obtain ⟨t, ht, hst, had⟩ := ea_resolve m true s h
  refine ⟨t, hst, had, ?_⟩
  simp only [writeInstr, ht, BusRun.andThen_done, had, State.busWrite_done t _ _ _ hst.calm.noReset, BusRun.outcome_done]

/-- What a read-modify-write instruction gives in calm (R190): in a state `t` that differs from `s` in latches and signals only,
the old byte is written back and then the new one, and the accumulator part is made last. -/
theorem modifyInstr_calm (m : Mem) (f : Flags → Byte → Byte × Flags) (acc : Byte → State → State) (s : State) (h : s.Calm) :
    ∃ t, SameCpu s t ∧ t.latch.ad = m.ea s ∧ t.latch.dl = s.spypeek (m.ea s) ∧
      modifyInstr m f acc s = .next ((acc (f s.p (s.spypeek (m.ea s))).1
        (((t.afterWrite (m.ea s) (s.spypeek (m.ea s)) false).setP (f s.p (s.spypeek (m.ea s))).2).afterWrite
          (m.ea s) (f s.p (s.spypeek (m.ea s))).1 true)).setT 0) := by
  obtain ⟨t, ht, hst, had⟩ := ea_resolve m true s h
  obtain ⟨u, hu, htu, hl⟩ := State.busRead_calm t t.latch.ad false hst.calm
  have hold : t.spypeek t.latch.ad = s.spypeek (m.ea s) := by rw [had, hst.spypeek h]
  have hsu : SameCpu s (u.setDL (s.spypeek (m.ea s))) := (hst.trans htu).latch _
  refine ⟨_, hsu, by simp [hl, had], rfl, ?_⟩
  simp only [modifyInstr, ht, BusRun.andThen_done, hu, hold]
  rw [State.setDL_latch, hl, had, State.busWrite_done _ _ _ _ hsu.calm.noReset]
  simp only [BusRun.andThen_done, State.afterWrite_latch, State.afterWrite_p, State.setDL_latch, State.setDL_p,
    (hst.trans htu).p, hl, had, State.setP_latch]
  have hw := State.afterWrite_noReset (u.setDL (s.spypeek (m.ea s))) (m.ea s) (s.spypeek (m.ea s)) false hsu.calm.noReset
  have hd := State.busWrite_done
    (((u.setDL (s.spypeek (m.ea s))).afterWrite (m.ea s) (s.spypeek (m.ea s)) false).setP (f s.p (s.spypeek (m.ea s))).2)
    (m.ea s) (f s.p (s.spypeek (m.ea s))).1 true hw
  rw [hd]
  rfl

end Sys2Proof.Machine
end

