-- ==== Sys2Proof/Laws/Stores.lean ====
section
/-! SUPPORT. What one write, and a chain of writes at one address, leaves of memory and the port; and the two shapes of statement,
`RunsTo` and `RunsStoring`, from the shapes of instruction. -/

namespace Sys2Proof.Machine

@[simp] theorem SameCpu.regs {s t : State} (h : SameCpu s t) : t.regs = s.regs := by
  simp only [State.regs, h.a, h.x, h.y, h.sp, h.pc, h.p]

/-- Memory and port as before and time not gone back: every byte reads as before. -/
theorem NothingStored.of_same {s t : State} (hs : s.Calm) (hm : t.mem = s.mem) (hp : t.port = s.port)
    (hq : t.params = s.params) (hl : t.platform.windows = s.platform.windows) (hc : s.sig.clock ≤ t.sig.clock) :
    NothingStored s t := ⟨fun a _ => State.spypeek_of_kept s t a hp hm hq hl hs hc, hm, hp⟩

theorem SameCpu.nothingStored {s t : State} (h : SameCpu s t) (hs : s.Calm) : NothingStored s t :=
  .of_same hs h.mem h.port h.params (by rw [h.platform]) h.clock

theorem BytesKeptBut.trans {l : List Word} {s t u : State} (h : BytesKeptBut l s t) (k : BytesKeptBut l t u) :
    BytesKeptBut l s u := fun a ha => (k a ha).trans (h a ha)

theorem BytesKeptBut.mono {l m : List Word} {s t : State} (h : BytesKeptBut l s t) (hl : ∀ a ∈ l, a ∈ m) :
    BytesKeptBut m s t := fun a ha => h a fun hal => ha (hl a hal)

theorem NothingStored.stored {s t u : State} {a : Word} {v : Byte} (h : NothingStored s t) (k : StoredByte t u a v) :
    StoredByte s u a v where
  memory h0 h1 := by
    obtain ⟨k1, k2, k3⟩ := k.memory h0 h1
    exact ⟨k1, (h.bytes.mono (by simp)).trans k2, k3.trans h.port⟩
  ddr h0 := by
    obtain ⟨k1, k2, k3, k4⟩ := k.ddr h0
    exact ⟨k1, by rw [k2, h.port], (h.bytes.mono (by simp)).trans k3, k4.trans h.mem⟩
  data h1 := by
    obtain ⟨k1, k2, k3, k4⟩ := k.data h1
    exact ⟨k1, by rw [k2, h.port], (h.bytes.mono (by simp)).trans k3, k4.trans h.mem⟩

theorem StoredByte.trans {s t u : State} {a : Word} {v w : Byte} (h : StoredByte s t a v) (k : StoredByte t u a w) :
    StoredByte s u a w where
  memory h0 h1 := by
    obtain ⟨-, h2, h3⟩ := h.memory h0 h1
    obtain ⟨k1, k2, k3⟩ := k.memory h0 h1
    exact ⟨k1, h2.trans k2, k3.trans h3⟩
  ddr h0 := by
    obtain ⟨-, h2, h3, h4⟩ := h.ddr h0
    obtain ⟨k1, k2, k3, k4⟩ := k.ddr h0
    exact ⟨k1, k2.trans h2, h3.trans k3, k4.trans h4⟩
  data h1 := by
    obtain ⟨-, h2, h3, h4⟩ := h.data h1
    obtain ⟨k1, k2, k3, k4⟩ := k.data h1
    exact ⟨k1, k2.trans h2, h3.trans k3, k4.trans h4⟩

/-- What a read sees of a state depends on its port, memory, parameters, platform and clock only. -/
theorem State.spypeek_congr {s t : State} (hp : t.port = s.port) (hm : t.mem = s.mem) (hq : t.params = s.params)
    (hl : t.platform = s.platform) (hc : t.sig.clock = s.sig.clock) (a : Word) : t.spypeek a = s.spypeek a := by
  simp only [spypeek, byteAt, responder, hp, hm, hq, hl, hc]

theorem Port.write_ddr (p : Port) (now decay : Nat) (ddr data : Byte) : (p.write now decay ddr data).ddr = ddr := rfl
theorem Port.write_data (p : Port) (now decay : Nat) (ddr data : Byte) : (p.write now decay ddr data).data = data := rfl

theorem State.pokeMem_wf (s : State) (a : Word) (v : Byte) (h : s.mem.wf = true) : (s.pokeMem a v).wf = true := by
  unfold pokeMem
  split_ifs
  · exact h
  · split
    · exact h
    · exact Memory.write_wf _ _ _ h a.isLt

/-- One write cycle. -/
theorem State.afterWrite_stored (s : State) (a : Word) (v : Byte) (poll : Bool) (hf : s.platform.windows = [])
    (hw : s.mem.wf = true) (hset : a ≠ 0x0000 → a ≠ 0x0001 → s.port.settled s.sig.clock) :
    StoredByte s (s.afterWrite a v poll) a v where
  memory h0 h1 := by
    have hf' : (s.afterWrite a v poll).platform.windows = [] := by rw [afterWrite_platform]; exact hf
    have hp : (s.afterWrite a v poll).port = s.port := by rw [afterWrite_port, pokePort, if_neg h0, if_neg h1]
    have hm : (s.afterWrite a v poll).mem = s.mem.write a.toNat v := by
      rw [afterWrite_mem, s.pokeMem_flat _ _ hf, if_neg (not_or.mpr ⟨h0, h1⟩)]
    refine ⟨?_, fun b hb => ?_, hp⟩
    · rw [spypeek, byteAt_flat (s.afterWrite a v poll) _ _ hf', if_neg h0, if_neg h1, hm]
      exact Memory.read_write_same _ _ _ 0 hw
    · have hn : b.toNat ≠ a.toNat := fun h => hb (by simp [BitVec.eq_of_toNat_eq h])
      simp only [spypeek, byteAt_flat s _ _ hf, byteAt_flat (s.afterWrite a v poll) _ _ hf', hp, hm, afterWrite_params,
        Memory.read_write_other _ _ _ _ hn,
        Port.read_of_settled _ _ _ _ (hset h0 h1) (show s.sig.clock ≤ (s.afterWrite a v poll).sig.clock by
          rw [afterWrite_clock]; omega)]
  ddr h0 := by
    have hf' : (s.afterWrite a v poll).platform.windows = [] := by rw [afterWrite_platform]; exact hf
    have hp : (s.afterWrite a v poll).port = s.port.write s.sig.clock s.params.portDecay v s.port.data := by
      rw [afterWrite_port, pokePort, if_pos h0]
    have hm : (s.afterWrite a v poll).mem = s.mem := by rw [afterWrite_mem, s.pokeMem_flat _ _ hf, if_pos (.inl h0)]
    refine ⟨by rw [hp]; rfl, by rw [hp]; rfl, fun b hb => ?_, hm⟩
    simp only [List.mem_cons, List.not_mem_nil, or_false, not_or] at hb
    simp only [spypeek, byteAt_flat s _ _ hf, byteAt_flat (s.afterWrite a v poll) _ _ hf', hm, if_neg hb.1, if_neg hb.2]
  data h1 := by
    have hf' : (s.afterWrite a v poll).platform.windows = [] := by rw [afterWrite_platform]; exact hf
    have h0 : a ≠ 0x0000 := by rw [h1]; decide
    have hp : (s.afterWrite a v poll).port = s.port.write s.sig.clock s.params.portDecay s.port.ddr v := by
      rw [afterWrite_port, pokePort, if_neg h0, if_pos h1]
    have hm : (s.afterWrite a v poll).mem = s.mem := by rw [afterWrite_mem, s.pokeMem_flat _ _ hf, if_pos (.inr h1)]
    refine ⟨by rw [hp]; rfl, by rw [hp]; rfl, fun b hb => ?_, hm⟩
    simp only [List.mem_cons, List.not_mem_nil, or_false] at hb
    simp only [spypeek, byteAt_flat s _ _ hf, byteAt_flat (s.afterWrite a v poll) _ _ hf', hm, hp, if_neg hb, Port.write_ddr]

end Sys2Proof.Machine
end

