-- ==== Sys2Proof/Laws/Shapes.lean ====
section
/-! SUPPORT. One lemma per shape of instruction: from what its last operation does to the registers, the statement that the
instruction runs to its end and changes nothing else. -/

namespace Sys2Proof.Machine

/-- `t` is `s` with other program-visible registers and latches at most. -/
structure RegsOnly (s t : State) : Prop where
  mem    : t.mem = s.mem
  port   : t.port = s.port
  params : t.params = s.params
  platform : t.platform = s.platform
  ir     : t.ir = s.ir
  jam    : t.jam = s.jam
  sig    : t.sig = s.sig

theorem RegsOnly.refl (s : State) : RegsOnly s s := ⟨rfl, rfl, rfl, rfl, rfl, rfl, rfl⟩

/-- The registers of `t` one by one, when they are those of `s`. -/
theorem State.regs_eq_iff {s t : State} :
    t.regs = s.regs ↔ t.a = s.a ∧ t.x = s.x ∧ t.y = s.y ∧ t.sp = s.sp ∧ t.pc = s.pc ∧ t.p = s.p := by
  simp [State.regs]

theorem RegsOnly.nothingStored {s t u : State} (hs : s.Calm) (h : SameCpu s t) (k : RegsOnly t u) :
    NothingStored s (u.setT 0) ∧ RestKept s (u.setT 0) :=
  ⟨.of_same hs (k.mem.trans h.mem) (k.port.trans h.port) (k.params.trans h.params)
      (by rw [State.setT_platform, k.platform, h.platform]) (by rw [State.setT_sig, k.sig]; exact h.clock),
    k.ir.trans h.ir, k.jam.trans h.jam, k.params.trans h.params, k.platform.trans h.platform, rfl⟩

theorem RunsTo.of_next {i : Instr} {s t u : State} {r : Registers} (hs : s.Calm) (h : SameCpu s t) (k : RegsOnly t u)
    (hi : exec i s = .next (u.setT 0)) (hr : u.regs = r) : RunsTo i s r :=
  ⟨_, hi, hr, (k.nothingStored hs h).1, (k.nothingStored hs h).2⟩

theorem RunsTo.of_read {i : Instr} {s : State} {o : Src} {f : Byte → State → State} {r : Registers}
    (hi : exec i s = readInstr o.load f s) (hs : s.Calm) (hf : ∀ v t, RegsOnly t (f v t))
    (hr : ∀ t, SameCpu s t → (f (o.value s) t).regs = r) : RunsTo i s r := by
  obtain ⟨t, ht, he⟩ := readInstr_src o f s hs
  exact .of_next hs ht (hf _ _) (hi.trans he) (hr t ht)

theorem RunsTo.of_readMem {i : Instr} {s : State} {m : Mem} {f : Byte → State → State} {r : Registers}
    (hi : exec i s = readInstr m.load f s) (hs : s.Calm) (hf : ∀ v t, RegsOnly t (f v t))
    (hr : ∀ t, SameCpu s t → (f (s.spypeek (m.ea s)) t).regs = r) : RunsTo i s r := by
  obtain ⟨t, ht, he⟩ := readInstr_mem m f s hs
  exact .of_next hs ht (hf _ _) (hi.trans he) (hr t ht)

theorem RunsTo.of_implied {i : Instr} {s : State} {f : State → State} {r : Registers}
    (hi : exec i s = impliedInstr f s) (hs : s.Calm) (hf : ∀ t, RegsOnly t (f t))
    (hr : ∀ t, SameCpu s t → (f t).regs = r) : RunsTo i s r := by
  obtain ⟨t, ht, he⟩ := impliedInstr_calm f s hs
  exact .of_next hs ht (hf _) (hi.trans he) (hr t ht)

theorem RunsTo.of_immediate {i : Instr} {s : State} {f : State → State} {r : Registers}
    (hi : exec i s = immediateInstr f s) (hs : s.Calm) (hf : RegsOnly s (f s)) (hr : (f s).regs = r) : RunsTo i s r :=
  .of_next hs (.refl hs) hf (hi.trans rfl) hr

theorem RunsStoring.of_write {i : Instr} {s : State} {m : Mem} {v : Byte} (hi : exec i s = writeInstr m v s) (hs : s.Calm)
    (hw : s.mem.wf = true) : RunsStoring i s (m.ea s) v s.regs := by
  obtain ⟨t, ht, -, he⟩ := writeInstr_calm m v s hs
  have k := t.afterWrite_stored (m.ea s) v true ht.calm.flat (by rw [ht.mem]; exact hw) fun _ _ => ht.calm.settled
  refine ⟨_, hi.trans he, ?_, (ht.nothingStored hs).stored ⟨k.memory, k.ddr, k.data⟩, ?_, ?_, ?_, ?_, rfl⟩
  · simp [State.regs, ht.a, ht.x, ht.y, ht.sp, ht.pc, ht.p]
  all_goals simp [ht.ir, ht.jam, ht.params, ht.platform]

/-- Two writes at one address in a row, with flags written between them. -/
theorem State.afterWrite_twice_stored (s : State) (a : Word) (v w : Byte) (p : Flags) (b c : Bool)
    (hf : s.platform.windows = []) (hw : s.mem.wf = true) (hs : s.port.settled s.sig.clock) :
    StoredByte s (((s.afterWrite a v b).setP p).afterWrite a w c) a w := by
  refine (s.afterWrite_stored a v b hf hw fun _ _ => hs).trans ?_
  have h := ((s.afterWrite a v b).setP p).afterWrite_stored a w c
    (by rw [setP_platform, afterWrite_platform]; exact hf)
    (by rw [setP_mem, afterWrite_mem]; exact s.pokeMem_wf a v hw) fun h0 h1 => by
      rw [setP_port, setP_sig, afterWrite_port, afterWrite_clock, pokePort, if_neg h0, if_neg h1]
      exact Port.settled_mono _ _ _ hs (by omega)
  exact ⟨h.memory, h.ddr, h.data⟩

theorem RunsStoring.of_modify {i : Instr} {s : State} {m : Mem} {f : Flags → Byte → Byte × Flags}
    {acc : Byte → State → State} {r : Registers} (hi : exec i s = modifyInstr m f acc s) (hs : s.Calm)
    (hw : s.mem.wf = true) (hf : ∀ v t, RegsOnly t (acc v t))
    (hr : ∀ t : State, t.regs = { s.regs with p := (f s.p (s.spypeek (m.ea s))).2 } →
      (acc (f s.p (s.spypeek (m.ea s))).1 t).regs = r) :
    RunsStoring i s (m.ea s) (f s.p (s.spypeek (m.ea s))).1 r := by
  obtain ⟨t, ht, -, -, he⟩ := modifyInstr_calm m f acc s hs
  have k := t.afterWrite_twice_stored (m.ea s) (s.spypeek (m.ea s)) (f s.p (s.spypeek (m.ea s))).1
    (f s.p (s.spypeek (m.ea s))).2 false true ht.calm.flat (by rw [ht.mem]; exact hw) ht.calm.settled
  obtain ⟨a1, a2, a3, a7, a4, a5, a6⟩ := hf (f s.p (s.spypeek (m.ea s))).1
    (((t.afterWrite (m.ea s) (s.spypeek (m.ea s)) false).setP (f s.p (s.spypeek (m.ea s))).2).afterWrite (m.ea s)
      (f s.p (s.spypeek (m.ea s))).1 true)
  have hb := State.spypeek_congr a2 a1 a3 a7 (by rw [a6])
  refine ⟨_, hi.trans he, hr _ (by simp [State.regs, ht.a, ht.x, ht.y, ht.sp, ht.pc]),
    (ht.nothingStored hs).stored ⟨fun h0 h1 => ?_, fun h0 => ?_, fun h1 => ?_⟩, ?_, ?_, ?_, ?_, rfl⟩
  · obtain ⟨k1, k2, k3⟩ := k.memory h0 h1
    exact ⟨(hb _).trans k1, fun b hb' => (hb b).trans (k2 b hb'), a2.trans k3⟩
  · obtain ⟨k1, k2, k3, k4⟩ := k.ddr h0
    exact ⟨by rw [State.setT_port, a2]; exact k1, by rw [State.setT_port, a2]; exact k2,
      fun b hb' => (hb b).trans (k3 b hb'), a1.trans k4⟩
  · obtain ⟨k1, k2, k3, k4⟩ := k.data h1
    exact ⟨by rw [State.setT_port, a2]; exact k1, by rw [State.setT_port, a2]; exact k2,
      fun b hb' => (hb b).trans (k3 b hb'), a1.trans k4⟩
  · rw [State.setT_ir, a4]; simp [ht.ir]
  · rw [State.setT_jam, a5]; simp [ht.jam]
  · rw [State.setT_params, a3]; simp [ht.params]
  · rw [State.setT_platform, a7]; simp [ht.platform]

end Sys2Proof.Machine
end

