-- ==== Sys2Proof/Laws/Stack.lean ====
section
/-! SUPPORT. The stack in calm: what a push, a pull, the entry sequence and the return give. -/

namespace Sys2Proof.Machine

theorem stackAddr_eq (s : State) : s.stackAddr = stackByte s.sp := by
  have h := s.sp.isLt
  apply BitVec.eq_of_toNat_eq
  simp only [State.stackAddr, stackByte, Word.toNat_ofBytes, BitVec.toNat_add, BitVec.toNat_setWidth,
    show (0x0100 : Word).toNat = 256 from rfl, show (0x01 : Byte).toNat = 1 from rfl]
  omega

theorem stackByte_toNat (sp : Byte) : (stackByte sp).toNat = 256 + sp.toNat := by
  have h := sp.isLt
  simp only [stackByte, BitVec.toNat_add, BitVec.toNat_setWidth, show (0x0100 : Word).toNat = 256 from rfl]
  omega

/-- The stack is memory, not the port. -/
theorem stackByte_ne_low (sp : Byte) (n : Nat) (hn : n < 256) : stackByte sp ≠ BitVec.ofNat 16 n := by
  intro h
  have := congrArg BitVec.toNat h
  rw [stackByte_toNat, BitVec.toNat_ofNat] at this
  omega

theorem stackByte_inj {p q : Byte} (h : stackByte p = stackByte q) : p = q := by
  have := congrArg BitVec.toNat h
  simp only [stackByte_toNat] at this
  exact BitVec.eq_of_toNat_eq (by omega)

/-- The vectors are not on the stack. -/
theorem vector_ne_stackByte (a : Word) (sp : Byte) (h : 512 ≤ a.toNat) : a ≠ stackByte sp := by
  rintro rfl
  have hs := sp.isLt
  rw [stackByte_toNat] at h
  omega

/-- From `s` to `t` only `SP`, latches, signals, the record, `T` and the bytes at the addresses of `l` have moved, and `t` is
calm with a canonical memory. -/
structure MovedBut (l : List Word) (s t : State) : Prop where
  a      : t.a = s.a
  x      : t.x = s.x
  y      : t.y = s.y
  pc     : t.pc = s.pc
  p      : t.p = s.p
  ir     : t.ir = s.ir
  jam    : t.jam = s.jam
  port   : t.port = s.port
  params : t.params = s.params
  platform : t.platform = s.platform
  bytes  : BytesKeptBut l s t
  wf     : t.mem.wf = true
  calm   : t.Calm

theorem SameCpu.moved {s t : State} (h : SameCpu s t) (hs : s.Calm) (hw : s.mem.wf = true) : MovedBut [] s t :=
  ⟨h.a, h.x, h.y, h.pc, h.p, h.ir, h.jam, h.port, h.params, h.platform, (h.nothingStored hs).bytes, by rw [h.mem]; exact hw, h.calm⟩

theorem MovedBut.mono {l m : List Word} {s t : State} (h : MovedBut l s t) (hl : ∀ a ∈ l, a ∈ m) : MovedBut m s t :=
  ⟨h.a, h.x, h.y, h.pc, h.p, h.ir, h.jam, h.port, h.params, h.platform, h.bytes.mono hl, h.wf, h.calm⟩

theorem MovedBut.trans {l : List Word} {s t u : State} (h : MovedBut l s t) (k : MovedBut l t u) : MovedBut l s u :=
  ⟨k.a.trans h.a, k.x.trans h.x, k.y.trans h.y, k.pc.trans h.pc, k.p.trans h.p, k.ir.trans h.ir, k.jam.trans h.jam,
   k.port.trans h.port, k.params.trans h.params, k.platform.trans h.platform, h.bytes.trans k.bytes, k.wf, k.calm⟩

theorem State.push_done (s : State) (v : Byte) (poll : Bool) (h : s.sig.noReset) :
    s.push v poll = .done () ((s.afterWrite s.stackAddr v poll).setSP (s.sp - 1)) := by
  simp only [push, s.busWrite_done _ _ _ h, BusRun.andThen_done, afterWrite_sp]

/-- A push in calm. -/
theorem State.push_calm (s : State) (v : Byte) (poll : Bool) (h : s.Calm) (hw : s.mem.wf = true) :
    ∃ t, s.push v poll = .done () t ∧ MovedBut [stackByte s.sp] s t ∧ t.sp = s.sp - 1 ∧
      t.spypeek (stackByte s.sp) = v ∧ t.latch = s.latch := by
  have h0 := stackByte_ne_low s.sp 0 (by omega)
  have h1 := stackByte_ne_low s.sp 1 (by omega)
  obtain ⟨k1, k2, k3⟩ := (s.afterWrite_stored (stackByte s.sp) v poll h.flat hw fun _ _ => h.settled).memory h0 h1
  refine ⟨_, s.push_done v poll h.noReset, ?_, rfl, ?_, ?_⟩
  · rw [stackAddr_eq]
    refine ⟨?_, ?_, ?_, ?_, ?_, ?_, ?_, k3, ?_, ?_, k2, ?_, s.afterWrite_noReset _ v poll h.noReset, ?_,
      by rw [setSP_platform, afterWrite_platform]; exact h.flat⟩
    case refine_10 => rw [setSP_mem, afterWrite_mem]; exact s.pokeMem_wf _ v hw
    case refine_11 =>
      rw [setSP_port, setSP_sig, k3, afterWrite_clock]
      exact Port.settled_mono _ _ _ h.settled (by omega)
    all_goals simp
  · rw [stackAddr_eq]; exact k1
  · simp

/-- A pull in calm: `SP` is incremented, the byte at the new stack address is read, nothing else moves. -/
theorem State.pull_calm (s : State) (poll : Bool) (h : s.Calm) :
    ∃ t, s.pull poll = .done (s.spypeek (stackByte (s.sp + 1))) t ∧ SameCpu (s.setSP (s.sp + 1)) t ∧ t.latch = s.latch := by
  have hs : (s.setSP (s.sp + 1)).Calm := ⟨h.noReset, h.settled, h.flat⟩
  obtain ⟨t, ht, hst, hl⟩ := State.busRead_calm (s.setSP (s.sp + 1)) (s.setSP (s.sp + 1)).stackAddr poll hs
  refine ⟨t, ?_, hst, hl⟩
  rw [stackAddr_eq] at ht
  simp only [pull, stackAddr_eq]
  exact ht

end Sys2Proof.Machine
end

