-- ==== Sys2Proof/Laws/Interrupts.lean ====
section
/-! SUPPORT. The NMI flip-flop over bus cycles, and the entry and return sequences in calm. -/

namespace Sys2Proof.Machine

/-! ## The NMI flip-flop -/

theorem Signals.readyFrom_pending (g : Signals) (ins : List Lines) (h : g.nmiPending = true) :
    (g.readyFrom ins).nmiPending = true := by
  induction ins generalizing g with
  | nil => exact h
  | cons l rest ih =>
    simp only [readyFrom]
    cases l.rdy
    · exact ih _ (by simp [held, h])
    · exact h

theorem Signals.readyFrom_noNmi (g : Signals) (ins : List Lines) (h : g.nmiPending = false)
    (hi : ∀ l ∈ ins, l.nmi = false) :
    (g.readyFrom ins).nmiPending = false ∧ (g.readyFrom ins).lines.nmi = false := by
  induction ins generalizing g with
  | nil => exact ⟨h, rfl⟩
  | cons l rest ih =>
    have hl := hi l (by simp)
    simp only [readyFrom]
    cases l.rdy
    · exact ih _ (by simp [held, h, hl]) fun m hm => hi m (by simp [hm])
    · exact ⟨h, hl⟩

/-- No NMI comes (R337). -/
def Signals.noneComes (g : Signals) : Prop := ∀ l ∈ g.inputs, l.nmi = false

theorem Signals.ready_noneComes (g : Signals) (h : g.noneComes) : g.ready.noneComes :=
  fun l hl => h l ((g.readyFrom_inputs g.inputs).subset hl)

theorem Signals.beginNext_noneComes (g : Signals) (h : g.noneComes) :
    g.beginNext.noneComes ∧ g.beginNext.lines.nmi = false := by
  unfold noneComes beginNext
  cases hi : g.inputs with
  | nil => exact ⟨fun l hl => by simp at hl, rfl⟩
  | cons m rest =>
    exact ⟨fun l hl => h l (by rw [hi]; exact List.mem_cons_of_mem _ hl), h m (by rw [hi]; exact List.mem_cons_self)⟩

theorem Signals.ready_noNmi (g : Signals) (h : g.noNmi) : g.ready.noNmi ∧ g.ready.lines.nmi = false := by
  obtain ⟨h1, h2⟩ := g.readyFrom_noNmi g.inputs h.1 h.2
  exact ⟨⟨h1, fun l hl => h.2 l ((g.readyFrom_inputs g.inputs).subset hl)⟩, h2⟩

theorem Signals.beginNext_noNmi (g : Signals) (h : g.noNmi) : g.beginNext.noNmi ∧ g.beginNext.lines.nmi = false :=
  ⟨⟨by simp [h.1], (g.beginNext_noneComes h.2).1⟩, (g.beginNext_noneComes h.2).2⟩

theorem Signals.finish_noNmi (g : Signals) (h : g.noNmi) (hl : g.lines.nmi = false) : g.finish.noNmi :=
  ⟨by simp [h.1, hl], h.2⟩

section cycles
variable (s : State) (a : Word) (v : Byte) (poll : Bool)

theorem State.afterRead_pending (h : s.sig.nmiPending = true) : (s.afterRead a poll).sig.nmiPending = true := by
  have := s.sig.readyFrom_pending s.sig.inputs h
  cases poll <;> simp [afterRead, atRead, Signals.ready, this]

theorem State.afterWrite_pending (h : s.sig.nmiPending = true) : (s.afterWrite a v poll).sig.nmiPending = true := by
  cases poll <;> simp [afterWrite, atWrite, h]

theorem State.afterRead_noNmi (h : s.sig.noNmi) : (s.afterRead a poll).sig.noNmi := by
  obtain ⟨h1, h2⟩ := s.sig.ready_noNmi h
  cases poll <;> exact Signals.finish_noNmi _ ⟨h1.1, h1.2⟩ h2

theorem State.afterWrite_noNmi (h : s.sig.noNmi) : (s.afterWrite a v poll).sig.noNmi := by
  obtain ⟨h1, h2⟩ := s.sig.beginNext_noNmi h
  cases poll <;> exact Signals.finish_noNmi _ ⟨h1.1, h1.2⟩ h2

@[simp] theorem State.afterRead_intDecision : (s.afterRead a false).sig.intDecision = s.sig.intDecision := by
  simp [afterRead, atRead]

@[simp] theorem State.afterWrite_intDecision : (s.afterWrite a v false).sig.intDecision = s.sig.intDecision := by
  simp [afterWrite, atWrite]
end cycles

/-! ## The entry sequence -/

/-- What a stretch of cycles without a poll does to the NMI flip-flop, unless it takes a vector: a pending NMI stays pending, and
with none coming none is; no interrupt is decided. -/
structure NmiKept (s t : State) : Prop where
  pending  : s.sig.nmiPending = true → t.sig.nmiPending = true
  noNmi    : s.sig.noNmi → t.sig.noNmi
  comes    : s.sig.noneComes → t.sig.noneComes
  decision : t.sig.intDecision = s.sig.intDecision

theorem NmiKept.trans {s t u : State} (h : NmiKept s t) (k : NmiKept t u) : NmiKept s u :=
  ⟨fun h0 => k.pending (h.pending h0), fun h0 => k.noNmi (h.noNmi h0), fun h0 => k.comes (h.comes h0),
   k.decision.trans h.decision⟩

theorem State.afterRead_nmiKept (s : State) (a : Word) : NmiKept s (s.afterRead a false) :=
  ⟨s.afterRead_pending a false, s.afterRead_noNmi a false, s.sig.ready_noneComes, s.afterRead_intDecision a⟩

theorem State.afterPush_nmiKept (s : State) (a : Word) (v sp : Byte) : NmiKept s ((s.afterWrite a v false).setSP sp) :=
  ⟨s.afterWrite_pending a v false, s.afterWrite_noNmi a v false, fun h => (s.sig.beginNext_noneComes h).1,
   s.afterWrite_intDecision a v⟩

theorem Signals.beginNext_vector (g : Signals) : g.beginNext.vector = g.vector := by
  simp [vector]

/-- The push of the status byte in calm: a push, with the vector that `nmiPending` chooses, which it clears. -/
theorem State.pushStatus_calm (s : State) (b : Bool) (h : s.Calm) (hw : s.mem.wf = true) :
    ∃ t, s.pushStatusChooseVector b = .done s.sig.vector t ∧ MovedBut [stackByte s.sp] s t ∧ t.sp = s.sp - 1 ∧
      t.spypeek (stackByte s.sp) = s.p.image b ∧ (s.sig.noneComes → t.sig.noNmi) ∧ t.sig.intDecision = s.sig.intDecision := by
  obtain ⟨u, hu, hm, -, hb, -⟩ := s.push_calm (s.p.image b) false h hw
  rw [s.push_done _ _ h.noReset, BusRun.done.injEq] at hu
  obtain ⟨r, hr⟩ : ∃ r, r = (((s.setSig s.sig.beginNext).poke s.stackAddr (s.p.image b)).setSP (s.sp - 1)).clearNmi.endCycle
    true s.stackAddr (s.p.image b) := ⟨_, rfl⟩
  have hmem : r.mem = u.mem := by rw [hr, ← hu.2]; simp [State.pokeMem, State.responder]
  have hport : r.port = u.port := by
    rw [hr, ← hu.2, setSP_port, afterWrite_port]
    simp [State.pokePort]
  have hclock : r.sig.clock = u.sig.clock := by rw [hr, ← hu.2]; simp [clearNmi]
  have hinputs : r.sig.inputs = s.sig.beginNext.inputs := by rw [hr]; rfl
  have hparams : r.params = u.params := by rw [hr, ← hu.2]; simp
  have hplatform : r.platform = u.platform := by rw [hr, ← hu.2]; simp
  have hbyte := State.spypeek_congr hport hmem hparams hplatform hclock
  refine ⟨r, ?_, ⟨?_, ?_, ?_, ?_, ?_, ?_, ?_, hport.trans hm.port, hparams.trans hm.params, hplatform.trans hm.platform,
    fun a ha => (hbyte a).trans (hm.bytes a ha), hmem ▸ hm.wf, ?_, ?_, ?_⟩, ?_, (hbyte _).trans hb, fun hn => ?_, ?_⟩
  · unfold pushStatusChooseVector
    rw [s.sig.startWrite_ok h.noReset, ← s.sig.beginNext_vector, hr]
    rfl
  case refine_9 => intro l hl; rw [hinputs] at hl; exact s.sig.beginNext_noReset h.noReset l hl
  case refine_10 => rw [hport, hclock]; exact hm.calm.settled
  case refine_11 => rw [hplatform]; exact hm.calm.flat
  case refine_13 =>
    obtain ⟨h1, h2⟩ := s.sig.beginNext_noneComes hn
    rw [hr]
    exact Signals.finish_noNmi _ ⟨rfl, h1⟩ h2
  all_goals rw [hr]; simp [clearNmi]

/-- The word at an address in calm is the same after cycles that do not store there. -/
theorem MovedBut.wordAt {l : List Word} {s t : State} (h : MovedBut l s t) (a : Word) (h0 : a ∉ l) (h1 : a + 1 ∉ l) :
    t.wordAt a = s.wordAt a := by simp only [State.wordAt, h.bytes _ h0, h.bytes _ h1]

/-- The vector load in calm: `PC` is the word at the vector, `I` is set, nothing else moves. -/
theorem State.loadVector_calm (s : State) (vec : Word) (h : s.Calm) :
    ∃ t, s.loadVector vec = .done () t ∧ SameCpu ((s.setPC (s.wordAt vec)).setP { s.p with i := true }) t ∧
      NmiKept s t := by
  obtain ⟨t, ht, hst, -⟩ := State.busRead_calm s vec false h
  have hk : NmiKept s t := by
    rw [s.busRead_done _ _ h.noReset, BusRun.done.injEq] at ht
    exact ht.2 ▸ s.afterRead_nmiKept vec
  have hc : ((t.setPC (Word.ofBytes t.pc.hi (s.spypeek vec))).setP { t.p with i := true }).Calm :=
    ⟨hst.calm.noReset, hst.calm.settled, hst.calm.flat⟩
  obtain ⟨u, hu, htu, -⟩ := State.busRead_calm _ (vec + 1) false hc
  have hb : State.spypeek ((t.setPC (Word.ofBytes t.pc.hi (s.spypeek vec))).setP { t.p with i := true }) (vec + 1) =
      s.spypeek (vec + 1) := hst.spypeek h (vec + 1)
  rw [hb] at hu
  have hk' : NmiKept ((t.setPC (Word.ofBytes t.pc.hi (s.spypeek vec))).setP { t.p with i := true }) u := by
    rw [State.busRead_done _ _ _ hc.noReset, BusRun.done.injEq] at hu
    rw [← hu.2]
    exact State.afterRead_nmiKept _ _
  refine ⟨u.setPC (Word.ofBytes (s.spypeek (vec + 1)) u.pc.lo), ?_, ?_, ⟨fun a => hk'.pending (hk.pending a),
    fun a => hk'.noNmi (hk.noNmi a), fun a => hk'.comes (hk.comes a), hk'.decision.trans hk.decision⟩⟩
  · simp only [loadVector, ht, BusRun.andThen_done, hu]
  refine ⟨by simp [htu.a, hst.a], by simp [htu.x, hst.x], by simp [htu.y, hst.y], by simp [htu.sp, hst.sp], ?_, ?_,
    by simp [htu.ir, hst.ir], by simp [htu.jam, hst.jam], by simp [htu.port, hst.port], by simp [htu.mem, hst.mem],
    by simp [htu.params, hst.params],
    by simp [htu.platform, hst.platform], ?_, ⟨htu.calm.noReset, htu.calm.settled, htu.calm.flat⟩⟩
  · simp only [setPC_pc, setP_pc, htu.pc, Word.lo_ofBytes, wordAt]
  · simp only [setPC_p, setP_p, htu.p, hst.p]
  · exact hst.clock.trans htu.clock

/-- The entry sequence in calm (R344, R215). -/
theorem State.enter_calm (s : State) (b : Bool) (h : s.Calm) (hw : s.mem.wf = true) :
    ∃ t vec, s.enter b = .done () t ∧ (vec = 0xFFFA ∨ vec = 0xFFFE) ∧ (s.sig.nmiPending = true → vec = 0xFFFA) ∧
      (s.sig.noNmi → vec = 0xFFFE) ∧ (s.sig.noneComes → t.sig.noNmi) ∧ Entered s t s.pc b vec ∧ t.ir = s.ir ∧ t.jam = s.jam ∧
      t.params = s.params ∧ t.platform = s.platform ∧ t.Calm ∧ t.mem.wf = true ∧ t.sig.intDecision = s.sig.intDecision := by
  obtain ⟨s1, h1, m1, p1, b1, -⟩ := s.push_calm s.pc.hi false h hw
  have k1 : NmiKept s s1 := by
    rw [s.push_done _ _ h.noReset, BusRun.done.injEq] at h1
    rw [← h1.2]
    exact s.afterPush_nmiKept _ _ _
  obtain ⟨s2, h2, m2, p2, b2, -⟩ := s1.push_calm s1.pc.lo false m1.calm m1.wf
  have k2 : NmiKept s1 s2 := by
    rw [s1.push_done _ _ m1.calm.noReset, BusRun.done.injEq] at h2
    rw [← h2.2]
    exact s1.afterPush_nmiKept _ _ _
  obtain ⟨s3, h3, m3, p3, b3, n3, d3⟩ := s2.pushStatus_calm b m2.calm m2.wf
  obtain ⟨s4, h4, c4, k4⟩ := s3.loadVector_calm s2.sig.vector m3.calm
  have e1 : s1.sp = s.sp - 1 := p1
  have e2 : s2.sp = s.sp - 2 := by rw [p2, e1, BitVec.sub_sub]; rfl
  have e3 : s3.sp = s.sp - 3 := by rw [p3, e2, BitVec.sub_sub]; rfl
  rw [e1] at m2 b2
  rw [e2] at m3 b3
  have n12 : stackByte s.sp ≠ stackByte (s.sp - 1) := fun e => by have := stackByte_inj e; bv_omega
  have n13 : stackByte s.sp ≠ stackByte (s.sp - 2) := fun e => by have := stackByte_inj e; bv_omega
  have n23 : stackByte (s.sp - 1) ≠ stackByte (s.sp - 2) := fun e => by have := stackByte_inj e; bv_omega
  have mm : MovedBut [stackByte s.sp, stackByte (s.sp - 1), stackByte (s.sp - 2)] s s3 :=
    ((m1.mono (by simp)).trans (m2.mono (by simp))).trans (m3.mono (by simp))
  have hv : s2.sig.vector = 0xFFFA ∨ s2.sig.vector = 0xFFFE := by
    unfold Signals.vector vectorNmi vectorIrq; split <;> simp
  have hb4 : ∀ a, s4.spypeek a = s3.spypeek a := fun a => c4.spypeek ⟨m3.calm.noReset, m3.calm.settled, m3.calm.flat⟩ a
  have hword : s3.wordAt s2.sig.vector = s.wordAt s2.sig.vector := by
    apply mm.wordAt
    all_goals
      rcases hv with e | e <;> rw [e] <;>
      simp only [List.mem_cons, List.not_mem_nil, or_false, not_or] <;>
      exact ⟨vector_ne_stackByte _ _ (by decide), vector_ne_stackByte _ _ (by decide), vector_ne_stackByte _ _ (by decide)⟩
  refine ⟨s4, s2.sig.vector, by simp only [enter, h1, h2, h3, h4, BusRun.andThen_done], hv, ?_, ?_,
    fun hn => k4.noNmi (n3 (k2.comes (k1.comes hn))), ?_, c4.ir.trans mm.ir, c4.jam.trans mm.jam,
    c4.params.trans mm.params, c4.platform.trans mm.platform, c4.calm, by rw [c4.mem]; exact m3.wf,
    by rw [k4.decision, d3, k2.decision, k1.decision]⟩
  · intro hp
    simp [Signals.vector, k2.pending (k1.pending hp), vectorNmi]
  · intro hn
    have := k2.noNmi (k1.noNmi hn)
    simp [Signals.vector, this.1, vectorIrq]
  · refine ⟨?_, ?_, ?_, fun a ha => (hb4 a).trans (mm.bytes a ha), c4.port.trans mm.port, ?_⟩
    · rw [hb4, m3.bytes _ (by simpa using n13), m2.bytes _ (by simpa using n12), b1]
    · rw [hb4, m3.bytes _ (by simpa using n23), b2, m1.pc]
    · rw [hb4, b3, m2.p, m1.p]
    · simp only [regs, c4.a, c4.x, c4.y, c4.sp, c4.pc, c4.p, setPC_a, setPC_x, setPC_y, setPC_sp, setPC_pc, setP_a,
        setP_x, setP_y, setP_sp, setP_pc, setP_p, hword, mm.a, mm.x, mm.y, mm.p, e3]

/-- The return in calm (R214): flags, `PC` low and `PC` high are pulled. -/
theorem State.returnFromInterrupt_calm (s : State) (h : s.Calm) :
    ∃ t, s.returnFromInterrupt = .done () t ∧
      SameCpu (((s.setSP (s.sp + 3)).setP (Flags.ofByte (s.spypeek (stackByte (s.sp + 1))))).setPC
        (Word.ofBytes (s.spypeek (stackByte (s.sp + 3))) (s.spypeek (stackByte (s.sp + 2))))) t := by
  obtain ⟨s0, h0, c0, -⟩ := State.busRead_calm s s.stackAddr false h
  obtain ⟨s1, h1, c1, -⟩ := s0.pull_calm false c0.calm
  have b1 : ∀ a, s1.spypeek a = s.spypeek a := fun a =>
    (c1.spypeek ⟨c0.calm.noReset, c0.calm.settled, c0.calm.flat⟩ a).trans (c0.spypeek h a)
  have e1 : s1.sp = s.sp + 1 := by rw [c1.sp, setSP_sp, c0.sp]
  rw [c0.spypeek h, c0.sp] at h1
  obtain ⟨f, hf⟩ : ∃ f, f = Flags.ofByte (s.spypeek (stackByte (s.sp + 1))) := ⟨_, rfl⟩
  obtain ⟨s2, h2, c2, -⟩ := State.pull_calm (s1.setP f) false ⟨c1.calm.noReset, c1.calm.settled, c1.calm.flat⟩
  have b2 : ∀ a, s2.spypeek a = s.spypeek a := fun a =>
    (c2.spypeek ⟨c1.calm.noReset, c1.calm.settled, c1.calm.flat⟩ a).trans (b1 a)
  have e2 : s2.sp = s.sp + 2 := by rw [c2.sp, setSP_sp, setP_sp, e1, BitVec.add_assoc]; rfl
  rw [show State.spypeek (s1.setP f) _ = _ from b1 _, setP_sp, e1, BitVec.add_assoc,
    show (1 : Byte) + 1 = 2 from rfl] at h2
  obtain ⟨w, hw⟩ : ∃ w, w = Word.ofBytes s2.pc.hi (s.spypeek (stackByte (s.sp + 2))) := ⟨_, rfl⟩
  obtain ⟨s3, h3, c3, -⟩ := State.pull_calm (s2.setPC w) true ⟨c2.calm.noReset, c2.calm.settled, c2.calm.flat⟩
  rw [show State.spypeek (s2.setPC w) _ = _ from b2 _, setPC_sp, e2, BitVec.add_assoc,
    show (2 : Byte) + 1 = 3 from rfl] at h3
  refine ⟨s3.setPC (Word.ofBytes (s.spypeek (stackByte (s.sp + 3))) s3.pc.lo), ?_, ?_⟩
  · simp only [returnFromInterrupt, h0, h1, h2, h3, BusRun.andThen_done, ← hf, ← hw]
  refine ⟨by simp [c3.a, c2.a, c1.a, c0.a], by simp [c3.x, c2.x, c1.x, c0.x], by simp [c3.y, c2.y, c1.y, c0.y], ?_, ?_, ?_,
    by simp [c3.ir, c2.ir, c1.ir, c0.ir], by simp [c3.jam, c2.jam, c1.jam, c0.jam],
    by simp [c3.port, c2.port, c1.port, c0.port], by simp [c3.mem, c2.mem, c1.mem, c0.mem],
    by simp [c3.params, c2.params, c1.params, c0.params],
    by simp [c3.platform, c2.platform, c1.platform, c0.platform], ?_, ⟨c3.calm.noReset, c3.calm.settled, c3.calm.flat⟩⟩
  · simp only [setPC_sp, setP_sp, c3.sp, setSP_sp, e2, BitVec.add_assoc]; rfl
  · simp only [setPC_pc, c3.pc, setSP_pc, hw, Word.lo_ofBytes]
  · simp only [setPC_p, setP_p, c3.p, setSP_p, c2.p, hf]
  · exact ((c0.clock.trans c1.clock).trans c2.clock).trans c3.clock

end Sys2Proof.Machine
end

