-- ==== Sys2Proof/Laws/PerInstr.lean ====
section
/-! SUPPORT. The family `EncodedLength`: the encoding of a well-formed instruction has the length of its format (R100, R102). -/

namespace Sys2Proof.Laws.EncodedLength

/-- The encoding of a well-formed instruction has the length of its addressing mode. -/
def Statement (i : Instr) : Prop := WellFormed i → (encode i).length = i.length

/-- A form that the opcode matrix does not have is not well-formed. -/
theorem of_false {i : Instr} (h : i.wellFormed = false) : Statement i := fun hw => by
  rw [WellFormed, h] at hw
  exact absurd hw (by decide)

theorem lda (o : Src) : Statement (.lda o) := by
  cases o with
  | imm b => exact fun _ => rfl
  | mem m => cases m <;> first | exact fun _ => rfl | exact of_false rfl
theorem ldx (o : Src) : Statement (.ldx o) := by
  cases o with
  | imm b => exact fun _ => rfl
  | mem m => cases m <;> first | exact fun _ => rfl | exact of_false rfl
theorem ldy (o : Src) : Statement (.ldy o) := by
  cases o with
  | imm b => exact fun _ => rfl
  | mem m => cases m <;> first | exact fun _ => rfl | exact of_false rfl
theorem sta (m : Mem) : Statement (.sta m) := by
  cases m <;> first | exact fun _ => rfl | exact of_false rfl
theorem stx (m : Mem) : Statement (.stx m) := by
  cases m <;> first | exact fun _ => rfl | exact of_false rfl
theorem sty (m : Mem) : Statement (.sty m) := by
  cases m <;> first | exact fun _ => rfl | exact of_false rfl
theorem tax : Statement .tax := fun _ => rfl
theorem tay : Statement .tay := fun _ => rfl
theorem txa : Statement .txa := fun _ => rfl
theorem tya : Statement .tya := fun _ => rfl
theorem tsx : Statement .tsx := fun _ => rfl
theorem txs : Statement .txs := fun _ => rfl
theorem pha : Statement .pha := fun _ => rfl
theorem php : Statement .php := fun _ => rfl
theorem pla : Statement .pla := fun _ => rfl
theorem plp : Statement .plp := fun _ => rfl
theorem adc (o : Src) : Statement (.adc o) := by
  cases o with
  | imm b => exact fun _ => rfl
  | mem m => cases m <;> first | exact fun _ => rfl | exact of_false rfl
theorem sbc (o : Src) : Statement (.sbc o) := by
  cases o with
  | imm b => exact fun _ => rfl
  | mem m => cases m <;> first | exact fun _ => rfl | exact of_false rfl
theorem and (o : Src) : Statement (.and o) := by
  cases o with
  | imm b => exact fun _ => rfl
  | mem m => cases m <;> first | exact fun _ => rfl | exact of_false rfl
theorem ora (o : Src) : Statement (.ora o) := by
  cases o with
  | imm b => exact fun _ => rfl
  | mem m => cases m <;> first | exact fun _ => rfl | exact of_false rfl
theorem eor (o : Src) : Statement (.eor o) := by
  cases o with
  | imm b => exact fun _ => rfl
  | mem m => cases m <;> first | exact fun _ => rfl | exact of_false rfl
theorem cmp (o : Src) : Statement (.cmp o) := by
  cases o with
  | imm b => exact fun _ => rfl
  | mem m => cases m <;> first | exact fun _ => rfl | exact of_false rfl
theorem cpx (o : Src) : Statement (.cpx o) := by
  cases o with
  | imm b => exact fun _ => rfl
  | mem m => cases m <;> first | exact fun _ => rfl | exact of_false rfl
theorem cpy (o : Src) : Statement (.cpy o) := by
  cases o with
  | imm b => exact fun _ => rfl
  | mem m => cases m <;> first | exact fun _ => rfl | exact of_false rfl
theorem bit (m : Mem) : Statement (.bit m) := by
  cases m <;> first | exact fun _ => rfl | exact of_false rfl
theorem asl (t : Target) : Statement (.asl t) := by
  cases t with
  | acc => exact fun _ => rfl
  | mem m => cases m <;> first | exact fun _ => rfl | exact of_false rfl
theorem lsr (t : Target) : Statement (.lsr t) := by
  cases t with
  | acc => exact fun _ => rfl
  | mem m => cases m <;> first | exact fun _ => rfl | exact of_false rfl
theorem rol (t : Target) : Statement (.rol t) := by
  cases t with
  | acc => exact fun _ => rfl
  | mem m => cases m <;> first | exact fun _ => rfl | exact of_false rfl
theorem ror (t : Target) : Statement (.ror t) := by
  cases t with
  | acc => exact fun _ => rfl
  | mem m => cases m <;> first | exact fun _ => rfl | exact of_false rfl
theorem inc (m : Mem) : Statement (.inc m) := by
  cases m <;> first | exact fun _ => rfl | exact of_false rfl
theorem dec (m : Mem) : Statement (.dec m) := by
  cases m <;> first | exact fun _ => rfl | exact of_false rfl
theorem inx : Statement .inx := fun _ => rfl
theorem iny : Statement .iny := fun _ => rfl
theorem dex : Statement .dex := fun _ => rfl
theorem dey : Statement .dey := fun _ => rfl
theorem jmp (target : Word) : Statement (.jmp target) := fun _ => rfl
theorem jmpInd (pointer : Word) : Statement (.jmpInd pointer) := fun _ => rfl
theorem jsr (target : Word) : Statement (.jsr target) := fun _ => rfl
theorem rts : Statement .rts := fun _ => rfl
theorem rti : Statement .rti := fun _ => rfl
theorem brk : Statement .brk := fun _ => rfl
theorem bpl (off : Byte) : Statement (.bpl off) := fun _ => rfl
theorem bmi (off : Byte) : Statement (.bmi off) := fun _ => rfl
theorem bvc (off : Byte) : Statement (.bvc off) := fun _ => rfl
theorem bvs (off : Byte) : Statement (.bvs off) := fun _ => rfl
theorem bcc (off : Byte) : Statement (.bcc off) := fun _ => rfl
theorem bcs (off : Byte) : Statement (.bcs off) := fun _ => rfl
theorem bne (off : Byte) : Statement (.bne off) := fun _ => rfl
theorem beq (off : Byte) : Statement (.beq off) := fun _ => rfl
theorem clc : Statement .clc := fun _ => rfl
theorem sec : Statement .sec := fun _ => rfl
theorem cli : Statement .cli := fun _ => rfl
theorem sei : Statement .sei := fun _ => rfl
theorem clv : Statement .clv := fun _ => rfl
theorem cld : Statement .cld := fun _ => rfl
theorem sed : Statement .sed := fun _ => rfl
theorem nop (which : Fin 7) : Statement (.nop which) := by
  fin_cases which <;> exact fun _ => rfl
theorem slo (m : Mem) : Statement (.slo m) := by
  cases m <;> first | exact fun _ => rfl | exact of_false rfl
theorem rla (m : Mem) : Statement (.rla m) := by
  cases m <;> first | exact fun _ => rfl | exact of_false rfl
theorem sre (m : Mem) : Statement (.sre m) := by
  cases m <;> first | exact fun _ => rfl | exact of_false rfl
theorem rra (m : Mem) : Statement (.rra m) := by
  cases m <;> first | exact fun _ => rfl | exact of_false rfl
theorem dcp (m : Mem) : Statement (.dcp m) := by
  cases m <;> first | exact fun _ => rfl | exact of_false rfl
theorem isc (m : Mem) : Statement (.isc m) := by
  cases m <;> first | exact fun _ => rfl | exact of_false rfl
theorem sax (m : Mem) : Statement (.sax m) := by
  cases m <;> first | exact fun _ => rfl | exact of_false rfl
theorem lax (m : Mem) : Statement (.lax m) := by
  cases m <;> first | exact fun _ => rfl | exact of_false rfl
theorem anc (which : Fin 2) (b : Byte) : Statement (.anc which b) := by
  fin_cases which <;> exact fun _ => rfl
theorem alr (b : Byte) : Statement (.alr b) := fun _ => rfl
theorem arr (b : Byte) : Statement (.arr b) := fun _ => rfl
theorem axs (b : Byte) : Statement (.axs b) := fun _ => rfl
theorem las (base : Word) : Statement (.las base) := fun _ => rfl
theorem nopImm (which : Fin 5) (b : Byte) : Statement (.nopImm which b) := by
  fin_cases which <;> exact fun _ => rfl
theorem nopRead (which : Fin 6) (m : Mem) : Statement (.nopRead which m) := by
  cases m <;> fin_cases which <;> first | exact fun _ => rfl | exact of_false rfl
theorem usbc (b : Byte) : Statement (.usbc b) := fun _ => rfl
theorem ane (b : Byte) : Statement (.ane b) := fun _ => rfl
theorem lxa (b : Byte) : Statement (.lxa b) := fun _ => rfl
theorem sha (m : Mem) : Statement (.sha m) := by
  cases m <;> first | exact fun _ => rfl | exact of_false rfl
theorem shx (base : Word) : Statement (.shx base) := fun _ => rfl
theorem shy (base : Word) : Statement (.shy base) := fun _ => rfl
theorem tas (base : Word) : Statement (.tas base) := fun _ => rfl
theorem jam (which : Fin 12) : Statement (.jam which) := by
  fin_cases which <;> exact fun _ => rfl

end Sys2Proof.Laws.EncodedLength
end

