-- ==== Sys2Proof/Laws/Reset.lean ====
section
/-! SUPPORT. The reset sequence is started again by every RESET that comes while it runs: the bound on the restarts in
`State.resetSequence` is never reached. -/

namespace Sys2Proof.Machine

/-- At most `n` coming cycles are left after the run; if it was abandoned, the cycle of the RESET is among them. -/
def BusRun.Leaves {α : Type} (n : Nat) (r : BusRun α) : Prop :=
  match r with
  | .done _ s => s.sig.inputs.length ≤ n
  | .reset s => 0 < s.sig.inputs.length ∧ s.sig.inputs.length ≤ n

theorem BusRun.Leaves.andThen {α β : Type} {n : Nat} {r : BusRun α} {f : α → State → BusRun β} (hr : r.Leaves n)
    (hf : ∀ v s, s.sig.inputs.length ≤ n → (f v s).Leaves n) : (r.andThen f).Leaves n := by
  cases r with
  | done v s => exact hf v s hr
  | reset s => exact hr

/-- The start of a read uses up coming cycles; an abandoned one leaves that of its RESET. -/
theorem Signals.startReadFrom_inputs (g : Signals) (ins : List Lines) :
    match g.startReadFrom ins with
    | .ok g' => g'.inputs.length ≤ ins.length
    | .error g' => 0 < g'.inputs.length ∧ g'.inputs.length ≤ ins.length := by
  induction ins generalizing g with
  | nil => exact Nat.le_refl 0
  | cons l rest ih =>
    unfold startReadFrom
    cases l.reset <;> cases l.rdy <;> simp only [if_true, Bool.false_eq_true, if_false]
    · have := ih (g.held l rest)
      split at this
      · simp only [List.length_cons]; omega
      · simp only [List.length_cons]; omega
    · exact Nat.le_succ _
    all_goals exact ⟨Nat.succ_pos _, Nat.le_refl _⟩

theorem State.accessRead_leaves (s : State) (a : Word) (n : Nat) (h : s.sig.inputs.length ≤ n) :
    (s.accessRead a).Leaves n := h

theorem State.busRead_leaves (s : State) (a : Word) (n : Nat) (h : s.sig.inputs.length ≤ n) : (s.busRead a).Leaves n := by
  have := s.sig.startReadFrom_inputs s.sig.inputs
  unfold busRead Signals.startRead
  split at this <;> rename_i g hg <;> rw [hg]
  · exact State.accessRead_leaves _ a n (by simpa using this.trans h)
  · exact ⟨this.1, this.2.trans h⟩

theorem State.resetPush_leaves (s : State) (n : Nat) (h : s.sig.inputs.length ≤ n) : s.resetPush.Leaves n :=
  (s.busRead_leaves _ n h).andThen fun _ _ ht => ht

theorem State.loadVector_leaves (s : State) (vec : Word) (n : Nat) (h : s.sig.inputs.length ≤ n) :
    (s.loadVector vec).Leaves n :=
  (s.busRead_leaves _ n h).andThen fun _ _ ht => BusRun.Leaves.andThen (State.busRead_leaves _ _ n ht) fun _ _ hu => hu

/-- The first cycle of the sequence uses up that of its RESET. -/
theorem State.resetAccept_leaves (s : State) : s.resetAccept.Leaves (s.sig.inputs.length - 1) := by
  unfold resetAccept Signals.acceptReset
  cases hi : s.sig.inputs with
  | nil => exact Nat.le_refl 0
  | cons l rest =>
    dsimp only
    cases l.rdy
    · have := (s.sig.held l rest).startReadFrom_inputs rest
      simp only [Bool.false_eq_true, if_false]
      split at this <;> rename_i g hg <;> rw [hg]
      · exact State.accessRead_leaves _ _ _ (by simpa using this)
      · exact this
    · exact State.accessRead_leaves _ _ _ (Nat.le_refl _)

theorem State.resetCycles_leaves (s : State) : s.resetCycles.Leaves (s.sig.inputs.length - 1) :=
  s.resetClear.resetAccept_leaves.andThen fun _ t ht => (t.busRead_leaves _ _ ht).andThen fun _ u hu =>
    (u.resetPush_leaves _ hu).andThen fun _ v hv => (v.resetPush_leaves _ hv).andThen fun _ w hw =>
      (w.resetPush_leaves _ hw).andThen fun _ x hx => x.loadVector_leaves _ _ hx

/-- Once the restarts allowed are as many as the coming cycles can hold, more make no difference. -/
theorem State.resetFrom_enough (n m : Nat) (s : State) (hn : s.sig.inputs.length - 1 ≤ n)
    (hm : s.sig.inputs.length - 1 ≤ m) : s.resetFrom n = s.resetFrom m := by
  induction n generalizing s m with
  | zero =>
    have h := s.resetCycles_leaves
    unfold resetFrom
    cases hc : s.resetCycles with
    | done v t => simp
    | reset t => rw [hc] at h; obtain ⟨h1, h2⟩ := h; omega
  | succ n ih =>
    have h := s.resetCycles_leaves
    unfold resetFrom
    cases hc : s.resetCycles with
    | done v t => simp
    | reset t =>
      rw [hc] at h
      obtain ⟨h1, h2⟩ := h
      cases m with
      | zero => omega
      | succ m => exact ih m t (by omega) (by omega)

/-- The reset sequence: its seven cycles, or, when a RESET comes in one of them, the reset sequence again (R334, R380). -/
theorem State.resetSequence_eq (s : State) :
    s.resetSequence = match s.resetCycles with
      | .done _ t => t.resetEnd
      | .reset t => t.resetSequence := by
  have h := s.resetCycles_leaves
  unfold resetSequence
  cases hc : s.resetCycles with
  | done v t => unfold resetFrom; simp [hc]
  | reset t =>
    rw [hc] at h
    obtain ⟨h1, h2⟩ := h
    obtain ⟨k, hk⟩ : ∃ k, s.sig.inputs.length = k + 1 := ⟨s.sig.inputs.length - 1, by omega⟩
    refine Eq.trans (b := t.resetFrom k) ?_ (State.resetFrom_enough _ _ t (by omega) (by omega))
    rw [hk, resetFrom, hc]

end Sys2Proof.Machine
end

