-- ==== Sys2Proof/Laws/Sound.lean ====
section
/-! SUPPORT. Every shared operation keeps the machine sound (`State.Sound`), whatever the input lines do and however the run
ends. -/

namespace Sys2Proof.Machine

/-- Soundness is about memory, the port and the signals; nothing else matters. -/
theorem State.Sound.congr {s t : State} (h : s.Sound) (hm : t.mem = s.mem) (hp : t.port = s.port) (hs : t.sig = s.sig) :
    t.Sound := ⟨by rw [hm]; exact h.mem, by rw [hp]; exact h.port, by rw [hs]; exact h.sig⟩

/-- A read followed by a continuation that keeps soundness keeps it. -/
theorem State.busRead_then_sound {β : Type} (s : State) (a : Word) (poll : Bool) (f : Byte → State → BusRun β) (h : s.Sound)
    (hf : ∀ v t, t.Sound → (f v t).Keeps State.Sound) : ((s.busRead a poll).andThen f).Keeps State.Sound :=
  (s.busRead_sound a poll h).andThen hf

theorem State.push_sound (s : State) (v : Byte) (poll : Bool) (h : s.Sound) : (s.push v poll).Keeps State.Sound :=
  (s.busWrite_sound _ v poll h).andThen fun _ _ ht => ht.congr rfl rfl rfl

theorem State.pull_sound (s : State) (poll : Bool) (h : s.Sound) : (s.pull poll).Keeps State.Sound :=
  State.busRead_sound _ _ poll (h.congr rfl rfl rfl)

theorem State.pushStatus_sound (s : State) (b : Bool) (h : s.Sound) :
    (s.pushStatusChooseVector b).Keeps State.Sound := by
  unfold pushStatusChooseVector Signals.startWrite
  cases s.sig.resetNext
  · exact ⟨State.pokeMem_offPort _ _ _ h.mem, State.pokePort_consistent _ _ _ h.port, rfl, s.sig.beginNext_h0⟩
  · exact h.congr rfl rfl rfl

theorem State.loadVector_sound (s : State) (vec : Word) (h : s.Sound) : (s.loadVector vec).Keeps State.Sound :=
  s.busRead_then_sound _ _ _ h fun _ _ ht =>
    State.busRead_then_sound _ _ _ _ (ht.congr rfl rfl rfl) fun _ _ hu => hu.congr rfl rfl rfl

theorem State.enter_sound (s : State) (b : Bool) (h : s.Sound) : (s.enter b).Keeps State.Sound :=
  (s.push_sound _ _ h).andThen fun _ t ht => (t.push_sound _ _ ht).andThen fun _ u hu =>
    (u.pushStatus_sound b hu).andThen fun vec w hw => w.loadVector_sound vec hw

theorem State.takeInterrupt_sound (s : State) (h : s.Sound) : s.takeInterrupt.Keeps State.Sound :=
  s.busRead_then_sound _ _ _ h fun _ _ ht =>
    State.busRead_then_sound _ _ _ _ (ht.congr rfl rfl rfl) fun _ u hu => u.enter_sound false hu

theorem State.returnFromInterrupt_sound (s : State) (h : s.Sound) : s.returnFromInterrupt.Keeps State.Sound :=
  s.busRead_then_sound _ _ _ h fun _ t ht => (t.pull_sound _ ht).andThen fun _ _ hu => by
    refine BusRun.Keeps.andThen (State.pull_sound _ _ (hu.congr rfl rfl rfl)) fun _ _ hw => ?_
    exact BusRun.Keeps.andThen (State.pull_sound _ _ (hw.congr rfl rfl rfl)) fun _ _ hx => hx.congr rfl rfl rfl

theorem State.fixHigh_sound (s : State) (h : s.Sound) : s.fixHigh.Sound := by
  unfold fixHigh
  split_ifs
  · exact h.congr rfl rfl rfl
  · exact h

theorem State.indexed_sound (s : State) (always : Bool) (idx : Byte) (h : s.Sound) :
    (s.indexed always idx).Keeps State.Sound := by
  simp only [indexed]
  split_ifs
  · exact State.busRead_then_sound _ _ _ _ (h.congr rfl rfl rfl) fun _ t ht => t.fixHigh_sound ht
  · exact h.congr rfl rfl rfl

theorem State.readPointer_sound (s : State) (h : s.Sound) : s.readPointer.Keeps State.Sound :=
  s.busRead_then_sound _ _ _ h fun _ _ ht =>
    State.busRead_then_sound _ _ _ _ (ht.congr rfl rfl rfl) fun _ _ hu => hu.congr rfl rfl rfl

theorem State.zeroPageIndexed_sound (s : State) (b idx : Byte) (h : s.Sound) :
    (s.zeroPageIndexed b idx).Keeps State.Sound :=
  State.busRead_then_sound _ _ _ _ (h.congr rfl rfl rfl) fun _ _ ht => ht.congr rfl rfl rfl

end Sys2Proof.Machine

namespace Sys2Proof

open Machine

theorem Mem.resolve_sound (m : Mem) (always : Bool) (s : State) (h : s.Sound) :
    (m.resolve always s).Keeps State.Sound := by
  cases m with
  | zp b => exact h.congr rfl rfl rfl
  | zpx b => exact s.zeroPageIndexed_sound b s.x h
  | zpy b => exact s.zeroPageIndexed_sound b s.y h
  | abs w => exact h.congr rfl rfl rfl
  | abx w => exact State.indexed_sound _ always _ (h.congr rfl rfl rfl)
  | aby w => exact State.indexed_sound _ always _ (h.congr rfl rfl rfl)
  | izx b =>
    exact State.busRead_then_sound _ _ _ _ (h.congr rfl rfl rfl) fun _ _ ht =>
      State.readPointer_sound _ (ht.congr rfl rfl rfl)
  | izy b =>
    refine BusRun.Keeps.andThen (State.readPointer_sound _ (h.congr rfl rfl rfl)) fun _ t ht => ?_
    exact t.indexed_sound always _ ht

theorem Mem.load_sound (m : Mem) (s : State) (h : s.Sound) : (m.load s).Keeps State.Sound :=
  (m.resolve_sound false s h).andThen fun _ _ ht => State.busRead_sound _ _ true ht

theorem Src.load_sound (o : Src) (s : State) (h : s.Sound) : (o.load s).Keeps State.Sound := by
  cases o with
  | imm b => exact h
  | mem m => exact m.load_sound s h

end Sys2Proof

namespace Sys2Proof.Machine

theorem State.fetchByte_sound (s : State) (poll : Bool) (h : s.Sound) : (s.fetchByte poll).Keeps State.Sound :=
  s.busRead_then_sound _ _ _ h fun _ _ ht => ht.congr rfl rfl rfl

theorem State.fetch_sound (s : State) (h : s.Sound) : s.fetch.Keeps State.Sound := by
  refine (s.fetchByte_sound _ h).andThen fun op t ht => ?_
  dsimp only
  split
  · exact ht.congr rfl rfl rfl
  · exact BusRun.Keeps.andThen (State.fetchByte_sound _ _ (ht.congr rfl rfl rfl)) fun _ _ hu => hu
  · refine BusRun.Keeps.andThen (State.fetchByte_sound _ _ (ht.congr rfl rfl rfl)) fun _ u hu => ?_
    split_ifs
    · exact hu
    · exact BusRun.Keeps.andThen (u.fetchByte_sound _ hu) fun _ _ hw => hw

theorem State.resetPush_sound (s : State) (h : s.Sound) : s.resetPush.Keeps State.Sound :=
  s.busRead_then_sound _ _ _ h fun _ _ ht => ht.congr rfl rfl rfl

theorem State.resetClear_consistent (s : State) : s.resetClear.port.consistent := by
  refine ⟨?_, ?_, ?_⟩ <;> simp [Port.consistentBit, resetClear]

theorem State.clearNmi_sound (s : State) (h : s.Sound) : s.clearNmi.Sound := ⟨h.mem, h.port, h.sig⟩

/-- The first cycle of the reset sequence leaves records that agree, whatever they were. -/
theorem State.resetAccept_sound (s : State) (hm : s.mem.offPort = true) (hp : s.port.consistent) :
    s.resetAccept.Keeps State.Sound := by
  unfold resetAccept Signals.acceptReset
  cases hl : s.sig.inputs with
  | nil => exact ⟨hm, hp, rfl, rfl⟩
  | cons l rest =>
    dsimp only
    cases l.rdy
    · rcases Signals.startReadFrom_cases _ rest (s.sig.begin_finish_recorded l rest) with ⟨g, hg, h0⟩ | ⟨g, hg, hr⟩
      · simp only [Signals.held, hg, Bool.false_eq_true, if_false]
        exact ⟨hm, hp, rfl, h0⟩
      · simp only [Signals.held, hg, Bool.false_eq_true, if_false]
        exact ⟨hm, hp, hr⟩
    · exact ⟨hm, hp, rfl, rfl⟩

theorem State.resetCycles_sound (s : State) (hm : s.mem.offPort = true) : s.resetCycles.Keeps State.Sound :=
  (s.resetClear.resetAccept_sound hm s.resetClear_consistent).andThen fun _ t ht =>
    t.busRead_then_sound _ _ _ ht fun _ u hu => (u.resetPush_sound hu).andThen fun _ v hv =>
      (v.resetPush_sound hv).andThen fun _ w hw => (w.resetPush_sound hw).andThen fun _ x hx => x.loadVector_sound _ hx

theorem State.resetEnd_sound (s : State) (h : s.Sound) : s.resetEnd.Sound :=
  State.clearNmi_sound _ (h.congr (State.setT_mem _ _) (State.setT_port _ _) (State.setT_sig _ _))

theorem State.resetFrom_sound (n : Nat) (s : State) (hm : s.mem.offPort = true) : (s.resetFrom n).Sound := by
  induction n generalizing s with
  | zero =>
    unfold resetFrom
    have h := s.resetCycles_sound hm
    cases hc : s.resetCycles <;> rw [hc] at h <;> exact State.resetEnd_sound _ h
  | succ n ih =>
    unfold resetFrom
    have h := s.resetCycles_sound hm
    cases hc : s.resetCycles <;> rw [hc] at h
    · exact State.resetEnd_sound _ h
    · exact ih _ (State.Sound.mem h)

theorem State.resetSequence_sound (s : State) (hm : s.mem.offPort = true) : s.resetSequence.Sound := s.resetFrom_sound _ hm

theorem State.resetFrom_t (n : Nat) (s : State) : (s.resetFrom n).t = 0 := by
  induction n generalizing s with
  | zero => unfold resetFrom; cases s.resetCycles <;> rfl
  | succ n ih =>
    unfold resetFrom
    cases s.resetCycles
    · rfl
    · exact ih _

theorem State.jammedCycle_sound (s : State) (h : s.Sound) : s.jammedCycle.Sound :=
  ⟨h.mem, h.port, rfl, s.sig.beginNext_h0⟩

/-- The outcome of a run that keeps soundness is a sound state with `T` at 0. -/
theorem BusRun.outcome_sound {α : Type} (r : BusRun α) (h : r.Keeps State.Sound) :
    ∃ t, r.outcome = .next t ∧ t.Sound ∧ t.t = 0 := by
  cases r with
  | done v s => exact ⟨_, rfl, State.Sound.congr h rfl rfl rfl, rfl⟩
  | reset s => exact ⟨_, rfl, s.resetSequence_sound (State.Sound.mem h), s.resetFrom_t _⟩

end Sys2Proof.Machine
end

