-- ==== Sys2Proof/Tests/Slice0.lean ====
section
/-! SUPPORT. The model's own tests. Every expected value is taken from a worked example of a rule, from the vectors and timelines
of 95_test_vectors.md, or from an "Encodings" line; and for every statement with hypotheses a state that meets them. -/

namespace Sys2Proof.Tests

open Sys2Proof.Machine

/-- A CPU about to fetch `code` at $C000, with the start values of 95_test_vectors.md (`P` = $24) and the bytes of `cells`. -/
def cpu (code : List Byte) (cells : List Host.Cell) : State :=
  { State.reset with
    sp := 0xFD
    pc := 0xC000
    mem := ((code.zipIdx 0xC000).map (fun c => (c.2, c.1)) ++ cells).foldl (fun m c => m.write c.1 c.2) [] }

/-- The state after an outcome that is a next state. -/
def after (o : Host.Outcome State Fault Refusal) : State :=
  match o with
  | .next s => s
  | .fault r => nomatch r
  | .refused _ => State.reset

/-- The state after `k` steps. -/
def afterSteps (k : Nat) (s : State) : State :=
  match k with
  | 0 => s
  | k + 1 => afterSteps k (after (step s))

/-- What the decoder reads, and the bytes that are left; none where it refuses. -/
def reads (bytes : List Byte) : Option (Instr × List Byte) :=
  match decode bytes with
  | .ok r => some r
  | .error _ => none

/-- `s` with the lines of the coming cycles. -/
def withInputs (s : State) (l : List Lines) : State := { s with sig := { s.sig with inputs := l } }

/-- `n` cycles with every line at rest. -/
def quiet (n : Nat) : List Lines := List.replicate n .rest

/-- One cycle with IRQ asserted. -/
def irqCycle : Lines := { Lines.rest with irq := true }
/-- One cycle with NMI asserted. -/
def nmiCycle : Lines := { Lines.rest with nmi := true }
/-- One cycle with RESET asserted. -/
def resetCycle : Lines := { Lines.rest with reset := true }
/-- One cycle with RDY at 0. -/
def heldCycle : Lines := { Lines.rest with rdy := false }

/-! ## Decoding: a word written out from each instruction's encoding -/

theorem test_decode_loads_and_stores :
    reads [0xA1, 0x80] = some (.lda (.mem (.izx 0x80)), []) ∧
    reads [0xBE, 0xFF, 0xFE] = some (.ldx (.mem (.aby 0xFEFF)), []) ∧
    reads [0xB4, 0x80] = some (.ldy (.mem (.zpx 0x80)), []) ∧
    reads [0x91, 0x20] = some (.sta (.izy 0x20), []) ∧
    reads [0x96, 0xFF] = some (.stx (.zpy 0xFF), []) ∧
    reads [0x8C, 0x00, 0x40] = some (.sty (.abs 0x4000), []) := by decide

theorem test_decode_transfers_and_stack :
    reads [0xAA] = some (.tax, []) ∧ reads [0xA8] = some (.tay, []) ∧ reads [0x8A] = some (.txa, []) ∧
    reads [0x98] = some (.tya, []) ∧ reads [0xBA] = some (.tsx, []) ∧ reads [0x9A] = some (.txs, []) ∧
    reads [0x48] = some (.pha, []) ∧ reads [0x08] = some (.php, []) ∧ reads [0x68] = some (.pla, []) ∧
    reads [0x28] = some (.plp, []) := by decide

theorem test_decode_arithmetic :
    reads [0x69, 0x50] = some (.adc (.imm 0x50), []) ∧
    reads [0xF9, 0x34, 0x12] = some (.sbc (.mem (.aby 0x1234)), []) ∧
    reads [0x3D, 0x34, 0x12] = some (.and (.mem (.abx 0x1234)), []) ∧
    reads [0x05, 0x77] = some (.ora (.mem (.zp 0x77)), []) ∧
    reads [0x4D, 0x34, 0x12] = some (.eor (.mem (.abs 0x1234)), []) ∧
    reads [0xD5, 0x77] = some (.cmp (.mem (.zpx 0x77)), []) ∧
    reads [0xE4, 0x77] = some (.cpx (.mem (.zp 0x77)), []) ∧
    reads [0xC0, 0x7F] = some (.cpy (.imm 0x7F), []) ∧
    reads [0x2C, 0x00, 0x30] = some (.bit (.abs 0x3000), []) := by decide

theorem test_decode_shifts_and_steps :
    reads [0x0A] = some (.asl .acc, []) ∧
    reads [0x4E, 0x00, 0x20] = some (.lsr (.mem (.abs 0x2000)), []) ∧
    reads [0x36, 0x10] = some (.rol (.mem (.zpx 0x10)), []) ∧
    reads [0x7E, 0xFF, 0x20] = some (.ror (.mem (.abx 0x20FF)), []) ∧
    reads [0xE6, 0x10] = some (.inc (.zp 0x10), []) ∧
    reads [0xDE, 0x00, 0x30] = some (.dec (.abx 0x3000), []) ∧
    reads [0xE8] = some (.inx, []) ∧ reads [0xC8] = some (.iny, []) ∧ reads [0xCA] = some (.dex, []) ∧
    reads [0x88] = some (.dey, []) := by decide

theorem test_decode_control :
    reads [0x4C, 0x34, 0x12] = some (.jmp 0x1234, []) ∧
    reads [0x6C, 0xFF, 0x30] = some (.jmpInd 0x30FF, []) ∧
    reads [0x20, 0x00, 0x90] = some (.jsr 0x9000, []) ∧
    reads [0x60] = some (.rts, []) ∧ reads [0x40] = some (.rti, []) ∧ reads [0x00, 0xEA] = some (.brk, [0xEA]) := by decide

theorem test_decode_branches :
    reads [0x10, 0x80] = some (.bpl 0x80, []) ∧ reads [0x30, 0x10] = some (.bmi 0x10, []) ∧
    reads [0x50, 0x10] = some (.bvc 0x10, []) ∧ reads [0x70, 0xF0] = some (.bvs 0xF0, []) ∧
    reads [0x90, 0x05] = some (.bcc 0x05, []) ∧ reads [0xB0, 0x02] = some (.bcs 0x02, []) ∧
    reads [0xD0, 0xFE] = some (.bne 0xFE, []) ∧ reads [0xF0, 0x7F] = some (.beq 0x7F, []) := by decide

theorem test_decode_flags_and_nop :
    reads [0x18] = some (.clc, []) ∧ reads [0x38] = some (.sec, []) ∧ reads [0x58] = some (.cli, []) ∧
    reads [0x78] = some (.sei, []) ∧ reads [0xB8] = some (.clv, []) ∧ reads [0xD8] = some (.cld, []) ∧
    reads [0xF8] = some (.sed, []) ∧ reads [0xEA] = some (.nop 0, []) := by decide

theorem test_decode_undocumented :
    reads [0x13, 0x20] = some (.slo (.izy 0x20), []) ∧
    reads [0x2F, 0x00, 0x20] = some (.rla (.abs 0x2000), []) ∧
    reads [0x57, 0x10] = some (.sre (.zpx 0x10), []) ∧
    reads [0x7B, 0x34, 0x12] = some (.rra (.aby 0x1234), []) ∧
    reads [0xC3, 0x10] = some (.dcp (.izx 0x10), []) ∧
    reads [0xFF, 0x34, 0x12] = some (.isc (.abx 0x1234), []) ∧
    reads [0x97, 0x10] = some (.sax (.zpy 0x10), []) ∧
    reads [0xBF, 0xFF, 0x20] = some (.lax (.aby 0x20FF), []) := by decide

theorem test_decode_undocumented_immediate :
    reads [0x2B, 0x0F] = some (.anc 1 0x0F, []) ∧ reads [0x4B, 0x0F] = some (.alr 0x0F, []) ∧
    reads [0x6B, 0xFF] = some (.arr 0xFF, []) ∧ reads [0xCB, 0x10] = some (.axs 0x10, []) ∧
    reads [0xBB, 0x00, 0x20] = some (.las 0x2000, []) := by decide

theorem test_decode_unstable_and_jam :
    reads [0xFA] = some (.nop 6, []) ∧ reads [0x89, 0x55] = some (.nopImm 2 0x55, []) ∧
    reads [0x0C, 0x00, 0x20] = some (.nopRead 0 (.abs 0x2000), []) ∧
    reads [0xF4, 0x10] = some (.nopRead 5 (.zpx 0x10), []) ∧
    reads [0xEB, 0x01] = some (.usbc 0x01, []) ∧ reads [0x8B, 0xFF] = some (.ane 0xFF, []) ∧
    reads [0xAB, 0xFF] = some (.lxa 0xFF, []) := by decide

theorem test_decode_high_byte_stores_and_jam :
    reads [0x93, 0x20] = some (.sha (.izy 0x20), []) ∧
    reads [0x9E, 0xFF, 0x41] = some (.shx 0x41FF, []) ∧
    reads [0x9C, 0xFF, 0x7E] = some (.shy 0x7EFF, []) ∧
    reads [0x9B, 0x00, 0x20] = some (.tas 0x2000, []) ∧
    reads [0x02] = some (.jam 0, []) ∧ reads [0x92] = some (.jam 8, []) := by decide

/-- A truncated instruction is refused by name, and its missing bytes are not made up. -/
theorem test_decode_truncated : reads [0xBD, 0xF0] = none ∧ reads [] = none := by decide

/-! ## WellFormed: an ill-formed term for each check, which the check refuses -/

theorem test_wf_read : ¬ WellFormed (.lda (.mem (.zpy 0))) ∧ ¬ WellFormed (.cmp (.mem (.zpy 0))) := by decide
theorem test_wf_ldx : ¬ WellFormed (.ldx (.mem (.zpx 0))) := by decide
theorem test_wf_ldy : ¬ WellFormed (.ldy (.mem (.aby 0))) := by decide
theorem test_wf_cpx : ¬ WellFormed (.cpx (.mem (.zpx 0))) ∧ ¬ WellFormed (.cpy (.mem (.izx 0))) := by decide
theorem test_wf_sta : ¬ WellFormed (.sta (.zpy 0)) := by decide
theorem test_wf_stx : ¬ WellFormed (.stx (.zpx 0)) := by decide
theorem test_wf_sty : ¬ WellFormed (.sty (.zpy 0)) := by decide
theorem test_wf_bit : ¬ WellFormed (.bit (.zpx 0)) := by decide
theorem test_wf_shift : ¬ WellFormed (.asl (.mem (.aby 0))) ∧ ¬ WellFormed (.ror (.mem (.izx 0))) := by decide
theorem test_wf_inc : ¬ WellFormed (.inc (.aby 0)) ∧ ¬ WellFormed (.dec (.izy 0)) := by decide
theorem test_wf_slo : ¬ WellFormed (.slo (.zpy 0)) ∧ ¬ WellFormed (.isc (.zpy 0)) := by decide
theorem test_wf_sax : ¬ WellFormed (.sax (.zpx 0)) := by decide
theorem test_wf_lax : ¬ WellFormed (.lax (.abx 0)) := by decide
theorem test_wf_sha : ¬ WellFormed (.sha (.abs 0)) := by decide
theorem test_wf_nop_read : ¬ WellFormed (.nopRead 1 (.abs 0)) ∧ ¬ WellFormed (.nopRead 0 (.aby 0)) := by decide

/-! ## Loads, stores, transfers -/

/-- R141. -/
theorem test_lda :
    let t := after (step { cpu [0xBD, 0xF0, 0x12] [(0x1310, 0x7F)] with x := 0x20 })
    t.a = 0x7F ∧ t.debugP = 0x24 ∧ t.trace.length = 5 := by decide

/-- R142: the sum wraps at the top of memory. -/
theorem test_ldx :
    let t := after (step { cpu [0xBE, 0xFF, 0xFF] [(0x0011, 0x99)] with y := 0x12 })
    t.x = 0x99 ∧ t.p.n = true ∧ t.trace.length = 5 := by decide

/-- R143: the sum wraps in page zero. -/
theorem test_ldy :
    let t := after (step { cpu [0xB4, 0x80] [(0x0010, 0x00), (0x0110, 0x99)] with x := 0x90, y := 0x55 })
    t.y = 0x00 ∧ t.p.z = true ∧ t.trace.length = 4 := by decide

/-- R144. -/
theorem test_sta :
    let t := after (step { cpu [0x91, 0x20] [(0x20, 0xF8), (0x21, 0x03)] with a := 0x42, y := 0x10 })
    t.spypeek 0x0408 = 0x42 ∧ t.debugP = 0x24 ∧ t.trace.length = 6 := by decide

/-- 95_test_vectors.md, 2.1: the pointer wraps in page zero. -/
theorem test_sta_izx :
    let t := after (step { cpu [0x81, 0xF0] [(0x10, 0x00), (0x11, 0x40)] with a := 0x11, x := 0x20 })
    t.spypeek 0x4000 = 0x11 ∧ t.trace.length = 6 := by decide

/-- R145. -/
theorem test_stx :
    let t := after (step { cpu [0x96, 0xFF] [] with x := 0x33, y := 0x04 })
    t.spypeek 0x0003 = 0x33 ∧ t.trace.length = 4 := by decide

/-- R146. -/
theorem test_sty : (after (step { cpu [0x8C, 0x00, 0x40] [] with y := 0x77 })).spypeek 0x4000 = 0x77 := by decide

/-- R147. -/
theorem test_tax : let t := after (step { cpu [0xAA] [] with a := 0x80 }); t.x = 0x80 ∧ t.debugP = 0xA4 := by decide
/-- R148. -/
theorem test_tay : let t := after (step { cpu [0xA8] [] with a := 0x00, y := 0x01 }); t.y = 0x00 ∧ t.debugP = 0x26 := by decide
/-- R149. -/
theorem test_txa :
    let t := after (step { cpu [0x8A] [] with x := 0x01, a := 0xFF, p := Flags.ofByte 0xA6 })
    t.a = 0x01 ∧ t.debugP = 0x24 := by decide
/-- R150. -/
theorem test_tya : let t := after (step { cpu [0x98] [] with y := 0xF0 }); t.a = 0xF0 ∧ t.debugP = 0xA4 := by decide
/-- R151. -/
theorem test_tsx : let t := after (step (cpu [0xBA] [])); t.x = 0xFD ∧ t.debugP = 0xA4 := by decide
/-- R152: no flag. -/
theorem test_txs :
    let t := after (step { cpu [0x9A] [] with x := 0x00, p := Flags.ofByte 0x80 }); t.sp = 0x00 ∧ t.debugP = 0xA0 := by decide

/-! ## Stack -/

/-- R161. -/
theorem test_pha :
    let t := after (step { cpu [0x48] [] with a := 0x5A, sp := 0xFF }); t.spypeek 0x01FF = 0x5A ∧ t.sp = 0xFE := by decide
/-- R162. -/
theorem test_php :
    let t := after (step { cpu [0x08] [] with p := Flags.ofByte 0x85 })
    t.spypeek 0x01FD = 0xB5 ∧ t.sp = 0xFC ∧ t.trace.length = 3 := by decide
/-- R163: `SP` wraps. -/
theorem test_pla :
    let t := after (step { cpu [0x68] [(0x0100, 0x80)] with sp := 0xFF })
    t.a = 0x80 ∧ t.sp = 0x00 ∧ t.p.n = true ∧ t.trace.length = 4 := by decide
/-- R164: bits 5 and 4 are ignored. -/
theorem test_plp :
    let t := after (step { cpu [0x28] [(0x01FD, 0xFF)] with sp := 0xFC }); t.sp = 0xFD ∧ t.debugP = 0xEF := by decide

/-! ## Arithmetic and logic -/

/-- R171. -/
theorem test_adc :
    let t := after (step { cpu [0x69, 0x50] [] with a := 0x50 }); t.a = 0xA0 ∧ t.debugP = 0xE4 := by decide
/-- R172. -/
theorem test_adc_decimal :
    let t := after (step { cpu [0x69, 0x46] [] with a := 0x58, p := Flags.ofByte 0x09 })
    t.a = 0x05 ∧ t.debugP = 0xE9 := by decide
/-- R173. -/
theorem test_sbc :
    let t := after (step { cpu [0xE9, 0xB0] [] with a := 0x50, p := Flags.ofByte 0x01 })
    t.a = 0xA0 ∧ t.debugP = 0xE0 := by decide
/-- R174. -/
theorem test_sbc_decimal :
    let t := after (step { cpu [0xE9, 0x13] [] with a := 0x40, p := Flags.ofByte 0x09 })
    t.a = 0x27 ∧ t.debugP = 0x29 := by decide
/-- R175. -/
theorem test_and : let t := after (step { cpu [0x29, 0x0F] [] with a := 0xF0 }); t.a = 0x00 ∧ t.debugP = 0x26 := by decide
/-- R176. -/
theorem test_ora : let t := after (step { cpu [0x09, 0x80] [] with a := 0x01 }); t.a = 0x81 ∧ t.debugP = 0xA4 := by decide
/-- R177. -/
theorem test_eor : let t := after (step { cpu [0x49, 0xFF] [] with a := 0xFF }); t.a = 0x00 ∧ t.debugP = 0x26 := by decide
/-- R178. -/
theorem test_cmp : let t := after (step { cpu [0xC9, 0x41] [] with a := 0x40 }); t.a = 0x40 ∧ t.debugP = 0xA4 := by decide
/-- R179: `V` is kept. -/
theorem test_cpx :
    (after (step { cpu [0xE0, 0x10] [] with x := 0x20, p := Flags.ofByte 0x40 })).debugP = 0x61 := by decide
/-- R180. -/
theorem test_cpy : (after (step { cpu [0xC0, 0x7F] [] with y := 0xFF })).debugP = 0xA5 := by decide
/-- R181. -/
theorem test_bit :
    (after (step { cpu [0x24, 0x10] [(0x10, 0xC0)] with a := 0x01 })).debugP = 0xE6 ∧
    (after (step { cpu [0x2C, 0x00, 0x30] [(0x3000, 0x3F)] with a := 0xFF, p := Flags.ofByte 0xC0 })).debugP = 0x20 := by
  decide

/-! ## Shifts, increments, decrements -/

/-- R191; in memory the byte read is written back first (R190). -/
theorem test_asl :
    (let t := after (step { cpu [0x0A] [] with a := 0x81 }); t.a = 0x02 ∧ t.debugP = 0x25) ∧
    (let t := after (step (cpu [0x06, 0x10] [(0x10, 0x40)]))
     (t.trace.map fun c => (c.write, c.addr, c.data)).drop 2 =
      [(false, 0x0010, 0x40), (true, 0x0010, 0x40), (true, 0x0010, 0x80)]) := by decide
/-- R192. -/
theorem test_lsr :
    let t := after (step (cpu [0x4E, 0x00, 0x20] [(0x2000, 0xFE)]))
    t.spypeek 0x2000 = 0x7F ∧ t.debugP = 0x24 ∧ t.trace.length = 6 := by decide
/-- R193. -/
theorem test_rol :
    let t := after (step { cpu [0x2A] [] with a := 0x40, p := Flags.ofByte 0x01 }); t.a = 0x81 ∧ t.debugP = 0xA0 := by decide
/-- R194: the dummy read is at the un-carried address. -/
theorem test_ror :
    let t := after (step { cpu [0x7E, 0xFF, 0x20] [(0x2100, 0x02)] with x := 0x01, p := Flags.ofByte 0x01 })
    t.spypeek 0x2100 = 0x81 ∧ (t.trace.map fun c => c.addr)[3]? = some 0x2000 ∧ t.trace.length = 7 := by decide
/-- R195. -/
theorem test_inc :
    let t := after (step { cpu [0xE6, 0x10] [(0x10, 0xFF)] with p := Flags.ofByte 0x01 })
    t.spypeek 0x0010 = 0x00 ∧ t.debugP = 0x23 := by decide
/-- R196. -/
theorem test_dec :
    let t := after (step { cpu [0xDE, 0x00, 0x30] [(0x3005, 0x01)] with x := 0x05 })
    t.spypeek 0x3005 = 0x00 ∧ t.debugP = 0x26 ∧ t.trace.length = 7 := by decide
/-- R197. -/
theorem test_inx : let t := after (step { cpu [0xE8] [] with x := 0xFF }); t.x = 0x00 ∧ t.debugP = 0x26 := by decide
/-- R198. -/
theorem test_iny : let t := after (step { cpu [0xC8] [] with y := 0x7F }); t.y = 0x80 ∧ t.debugP = 0xA4 := by decide
/-- R199. -/
theorem test_dex : let t := after (step { cpu [0xCA] [] with x := 0x00 }); t.x = 0xFF ∧ t.debugP = 0xA4 := by decide
/-- R200. -/
theorem test_dey : let t := after (step { cpu [0x88] [] with y := 0x01 }); t.y = 0x00 ∧ t.debugP = 0x26 := by decide

/-! ## Control flow -/

/-- R210. -/
theorem test_jmp : (after (step (cpu [0x4C, 0x34, 0x12] []))).pc = 0x1234 := by decide
/-- R211, R112: the pointer's high byte comes from the same page. -/
theorem test_jmp_indirect :
    (after (step (cpu [0x6C, 0xFF, 0x30] [(0x30FF, 0x80), (0x3000, 0x40), (0x3100, 0x50)]))).pc = 0x4080 := by decide
/-- R212. -/
theorem test_jsr :
    let t := after (step (cpu [0x20, 0x00, 0x90] []))
    t.pc = 0x9000 ∧ t.sp = 0xFB ∧ t.spypeek 0x01FD = 0xC0 ∧ t.spypeek 0x01FC = 0x02 ∧ t.trace.length = 6 := by decide
/-- R213. -/
theorem test_rts :
    let t := after (step { cpu [0x60] [(0x01FC, 0x02), (0x01FD, 0xC0)] with sp := 0xFB })
    t.pc = 0xC003 ∧ t.sp = 0xFD ∧ t.trace.length = 6 := by decide
/-- R214. -/
theorem test_rti :
    let t := after (step { cpu [0x40] [(0x01FB, 0xF3), (0x01FC, 0x34), (0x01FD, 0x12)] with sp := 0xFA })
    t.pc = 0x1234 ∧ t.sp = 0xFD ∧ t.debugP = 0xE3 ∧ t.trace.length = 6 := by decide
/-- R215. -/
theorem test_brk :
    let t := after (step { cpu [0x00] [(0xFFFE, 0x48), (0xFFFF, 0xFF)] with p := Flags.ofByte 0x43 })
    t.pc = 0xFF48 ∧ t.sp = 0xFA ∧ t.spypeek 0x01FB = 0x73 ∧ t.spypeek 0x01FC = 0x02 ∧ t.debugP = 0x67 := by decide
/-- R217. -/
theorem test_bpl : let t := after (step (cpu [0x10, 0x80] [])); t.pc = 0xBF82 ∧ t.trace.length = 4 := by decide
/-- R218. -/
theorem test_bmi :
    let t := after (step { cpu [0x30, 0x10] [] with p := Flags.ofByte 0x80 }); t.pc = 0xC012 ∧ t.trace.length = 3 := by decide
/-- R219. -/
theorem test_bvc : let t := after (step (cpu [0x50, 0x10] [])); t.pc = 0xC012 ∧ t.trace.length = 3 := by decide
/-- R220. -/
theorem test_bvs :
    let t := after (step { cpu [0x70, 0xF0] [] with p := Flags.ofByte 0x40 }); t.pc = 0xBFF2 ∧ t.trace.length = 4 := by decide
/-- R221: the target wraps at the top of memory. -/
theorem test_bcc :
    let t := after (step { cpu [] [(0xFFFC, 0x90), (0xFFFD, 0x05)] with pc := 0xFFFC })
    t.pc = 0x0003 ∧ t.trace.length = 4 := by decide
/-- R222. -/
theorem test_bcs :
    let t := after (step { cpu [0xB0, 0x02] [] with p := Flags.ofByte 0x01 }); t.pc = 0xC004 ∧ t.trace.length = 3 := by decide
/-- R223. -/
theorem test_bne :
    (let t := after (step (cpu [0xD0, 0xFE] [])); t.pc = 0xC000 ∧ t.trace.length = 3) ∧
    (let t := after (step { cpu [0xD0, 0xFE] [] with p := Flags.ofByte 0x02 }); t.pc = 0xC002 ∧ t.trace.length = 2) := by decide
/-- R224. -/
theorem test_beq :
    let t := after (step { cpu [] [(0xC0F0, 0xF0), (0xC0F1, 0x7F)] with pc := 0xC0F0, p := Flags.ofByte 0x02 })
    t.pc = 0xC171 ∧ t.trace.length = 4 := by decide

/-! ## Flags and NOP (R240 to R247) -/

/-- R240, R241. -/
theorem test_carry :
    (after (step { cpu [0x18] [] with p := Flags.ofByte 0x25 })).debugP = 0x24 ∧
    (after (step { cpu [0x38] [] with p := Flags.ofByte 0x24 })).debugP = 0x25 := by decide
/-- R242, R243. -/
theorem test_interrupt_mask :
    (after (step { cpu [0x58] [] with p := Flags.ofByte 0x24 })).debugP = 0x20 ∧
    (after (step { cpu [0x78] [] with p := Flags.ofByte 0x20 })).debugP = 0x24 := by decide
/-- R244, R245, R246. -/
theorem test_v_and_d :
    (after (step { cpu [0xB8] [] with p := Flags.ofByte 0x64 })).debugP = 0x24 ∧
    (after (step { cpu [0xD8] [] with p := Flags.ofByte 0x2C })).debugP = 0x24 ∧
    (after (step { cpu [0xF8] [] with p := Flags.ofByte 0x24 })).debugP = 0x2C := by decide
/-- R247. -/
theorem test_nop :
    let s := cpu [0xEA] []
    let t := after (step s); t.regs = { s.regs with pc := 0xC001 } ∧ t.mem = s.mem ∧ t.trace.length = 2 := by decide

/-! ## Undocumented instructions -/

/-- R251. -/
theorem test_slo :
    let t := after (step { cpu [0x13, 0x20] [(0x20, 0xF8), (0x21, 0x03), (0x0408, 0x40)] with y := 0x10 })
    t.spypeek 0x0408 = 0x80 ∧ t.a = 0x80 ∧ t.debugP = 0xA4 ∧ t.trace.length = 8 := by decide
/-- R252. -/
theorem test_rla :
    let t := after (step { cpu [0x2F, 0x00, 0x20] [(0x2000, 0x40)] with a := 0xF0, p := Flags.ofByte 0x01 })
    t.spypeek 0x2000 = 0x81 ∧ t.a = 0x80 ∧ t.debugP = 0xA0 := by decide
/-- R253. -/
theorem test_sre :
    let t := after (step { cpu [0x47, 0x10] [(0x10, 0x03)] with a := 0xFF })
    t.spypeek 0x0010 = 0x01 ∧ t.a = 0xFE ∧ t.debugP = 0xA5 := by decide
/-- R254: the addition takes the carry of the rotation. -/
theorem test_rra :
    let t := after (step { cpu [0x67, 0x10] [(0x10, 0x03)] with a := 0x10 }); t.spypeek 0x0010 = 0x01 ∧ t.a = 0x12 := by decide
/-- R255. -/
theorem test_sax :
    let t := after (step { cpu [0x83, 0x20] [(0x24, 0x00), (0x25, 0x30)] with a := 0xFF, x := 0x04 })
    t.spypeek 0x3000 = 0x04 ∧ t.trace.length = 6 := by decide
/-- R256. -/
theorem test_lax :
    let t := after (step (cpu [0xA7, 0x10] [(0x10, 0x80)])); t.a = 0x80 ∧ t.x = 0x80 ∧ t.debugP = 0xA4 := by decide
/-- R257. -/
theorem test_dcp :
    let t := after (step { cpu [0xC7, 0x10] [(0x10, 0x00)] with a := 0x40 })
    t.spypeek 0x0010 = 0xFF ∧ t.debugP = 0x24 := by decide
/-- R258. -/
theorem test_isc :
    let t := after (step { cpu [0xE7, 0x10] [(0x10, 0x08)] with a := 0x50, p := Flags.ofByte 0x09 })
    t.spypeek 0x0010 = 0x09 ∧ t.a = 0x41 ∧ t.p.c = true := by decide
/-- R259. -/
theorem test_anc :
    (let t := after (step { cpu [0x0B, 0xF0] [] with a := 0x8F }); t.a = 0x80 ∧ t.debugP = 0xA5) ∧
    (let t := after (step { cpu [0x2B, 0x0F] [] with a := 0x8F, p := Flags.ofByte 0x25 }); t.a = 0x0F ∧ t.debugP = 0x24) := by
  decide
/-- R260. -/
theorem test_alr : let t := after (step { cpu [0x4B, 0x0F] [] with a := 0xF3 }); t.a = 0x01 ∧ t.debugP = 0x25 := by decide
/-- R261. -/
theorem test_arr :
    (let t := after (step { cpu [0x6B, 0xFF] [] with a := 0xC0, p := Flags.ofByte 0x01 }); t.a = 0xE0 ∧ t.debugP = 0xA1) ∧
    (let t := after (step { cpu [0x6B, 0xFF] [] with a := 0x99, p := Flags.ofByte 0x09 }); t.a = 0x22 ∧ t.debugP = 0xE9) := by
  decide
/-- R262: binary despite `D`. -/
theorem test_axs :
    let t := after (step { cpu [0xCB, 0x40] [] with a := 0xFF, x := 0x30, p := Flags.ofByte 0x08 })
    t.x = 0xF0 ∧ t.debugP = 0xA8 := by decide
/-- R263. -/
theorem test_las :
    let t := after (step { cpu [0xBB, 0x00, 0x20] [(0x2005, 0x3C)] with y := 0x05, sp := 0xF3 })
    t.a = 0x30 ∧ t.x = 0x30 ∧ t.sp = 0x30 ∧ t.trace.length = 4 := by decide
/-- R264, R265: 95_test_vectors.md, 2.8. -/
theorem test_nop_undocumented :
    (let t := after (step { cpu [0x1A] [] with p := Flags.ofByte 0xE7 }); t.pc = 0xC001 ∧ t.debugP = 0xE7) ∧
    (let t := after (step { cpu [0x80, 0xFF] [] with p := Flags.ofByte 0xE7 }); t.pc = 0xC002 ∧ t.debugP = 0xE7) := by decide
/-- R266: the dummy read and the read. -/
theorem test_nop_read :
    let t := after (step { cpu [0x1C, 0xFF, 0x20] [] with x := 0x01 })
    (t.trace.map fun c => c.addr).drop 3 = [0x2000, 0x2100] ∧ t.pc = 0xC003 := by decide
/-- R267. -/
theorem test_usbc :
    let t := after (step { cpu [0xEB, 0x01] [] with a := 0x10, p := Flags.ofByte 0x01 }); t.a = 0x0F ∧ t.debugP = 0x21 := by
  decide
/-- R268, with ANE_CONST at $EE. -/
theorem test_ane : (after (step { cpu [0x8B, 0x0F] [] with a := 0x11, x := 0x3C })).a = 0x0C := by decide
/-- R269, with LXA_CONST at $EE. -/
theorem test_lxa : let t := after (step { cpu [0xAB, 0x5A] [] with a := 0x11 }); t.a = 0x5A ∧ t.x = 0x5A := by decide
/-- R270. -/
theorem test_sha :
    let t := after (step { cpu [0x93, 0x20] [(0x20, 0x00), (0x21, 0x42)] with a := 0xF3, x := 0x3F, y := 0x05 })
    t.spypeek 0x4205 = 0x03 ∧ t.trace.length = 6 := by decide
/-- R271, R274: a page crossing in both modes. -/
theorem test_shx :
    let s := { cpu [0x9E, 0xFF, 0x41] [] with x := 0x60, y := 0x01 }
    let plain := { s with params := { s.params with shPageCross := .plain } }
    (after (step s)).spypeek 0x4000 = 0x40 ∧ (after (step s)).spypeek 0x4200 = 0x00 ∧
    (after (step plain)).spypeek 0x4200 = 0x40 := by decide
/-- R272. -/
theorem test_shy :
    (after (step { cpu [0x9C, 0x00, 0x7E] [] with y := 0xFF, x := 0x05 })).spypeek 0x7E05 = 0x7F ∧
    (after (step { cpu [0x9C, 0xFF, 0x7E] [] with y := 0x55, x := 0x02 })).spypeek 0x5501 = 0x55 := by decide
/-- R273. -/
theorem test_tas :
    let t := after (step { cpu [0x9B, 0x00, 0x20] [] with a := 0xF7, x := 0x3E, y := 0x05 })
    t.spypeek 0x2005 = 0x20 ∧ t.sp = 0x36 := by decide
/-- R275, R354. -/
theorem test_jam :
    let s := cpu [0x02] []
    let t := after (step s)
    t.jam = true ∧ t.regs = { s.regs with pc := 0xC001 } ∧ t.trace.length = 1 ∧ (after (step t)).regs = t.regs := by decide

/-! ## Memory and port -/

/-- R44, R45, R47: PDDR reads back; with PDDR = $2F, PDATA = $37, bits 7, 6 floating and discharged, $0001 reads $37. -/
theorem test_port :
    let s := ((cpu [] []).poke 0x0000 0x2F).poke 0x0001 0x37
    s.spypeek 0x0000 = 0x2F ∧ s.spypeek 0x0001 = 0x37 ∧ s.mem = [] ∧
    s.port.loram s.params = true ∧ s.port.hiram s.params = true ∧ s.port.charen s.params = true := by decide

/-- R48: released banking bits are at their pulled level, driven ones at PDATA's; D7: another wiring gives other levels. -/
theorem test_port_levels :
    let s := (cpu [] []).poke 0x0000 0x02
    let low := { s.params with portExternal := 0x20 }
    s.port.loram s.params = true ∧ s.port.hiram s.params = false ∧ s.port.out 0 s.params 5 = false ∧
    s.port.loram low = false ∧ s.port.out 0 low 5 = true := by decide

/-- R61, R66, R78: a ROM seen where HIRAM is 1 and RAM beneath it; a device answers the dummy read of an indexed load and then the
load itself. -/
theorem test_platform :
    let rom := { first := 0xE000, last := 0xFFFF, banks := 0xCC, responder := .rom [(0xE000, 0x85)] }
    let device := { first := 0xD000, last := 0xDFFF, banks := 0xFF, responder := .device }
    let s := { cpu [0xBD, 0xFF, 0xD0] [(0xE000, 0x11)] with
      x := 0x01, platform := { windows := [rom, device], answers := [0x01, 0x02, 0x03] } }
    s.spypeek 0xE000 = 0x85 ∧ (s.poke 0x0000 0x02).spypeek 0xE000 = 0x11 ∧ (s.poke 0xE000 0x22).spypeek 0xE000 = 0x85 ∧
    ((s.poke 0xE000 0x22).poke 0x0000 0x02).spypeek 0xE000 = 0x22 ∧
    (after (step s)).a = 0x02 ∧ (after (step s)).platform.answers = [0x03] := by decide

/-- R49: bit 7 driven to 1, then released: charged until PORT_DECAY_CYCLES have passed. -/
theorem test_port_decay :
    let s := (((cpu [] []).poke 0x0000 0xFF).poke 0x0001 0xC8).poke 0x0000 0x00
    (s.byteAt 349999 0x0001).getLsbD 7 = true ∧ (s.byteAt 350000 0x0001).getLsbD 7 = false := by decide

/-- R68, R390: the pointer at $FF takes its high byte from $0000, which is PDDR (95_test_vectors.md, 2). -/
theorem test_pointer_wrap :
    let s := { cpu [0xA1, 0xFE] [(0x00FF, 0x34), (0x1234, 0xAB)] with x := 0x01 }
    (after (step { s with port := { s.port with ddr := 0x12 } })).a = 0xAB := by decide

/-! ## Interrupts and reset: 95_test_vectors.md, 2.9 and 2.10 -/

/-- The first row of 2.9: IRQ. -/
theorem test_irq_entry :
    let s := { cpu [] [(0xFFFE, 0x00), (0xFFFF, 0xE0)] with pc := 0xC123, p := Flags.ofByte 0x21 }
    let t := after (step { s with sig := { s.sig with intDecision := true } })
    t.pc = 0xE000 ∧ t.sp = 0xFA ∧ t.debugP = 0x25 ∧ t.spypeek 0x01FD = 0xC1 ∧ t.spypeek 0x01FC = 0x23 ∧
    t.spypeek 0x01FB = 0x21 ∧ t.trace.length = 7 := by decide

/-- The second row: NMI, and the stack wraps. -/
theorem test_nmi_entry :
    let s := { cpu [] [(0xFFFA, 0x47), (0xFFFB, 0xFE)] with pc := 0x8000, sp := 0x01, p := Flags.ofByte 0xA4 }
    let t := after (step { s with sig := { s.sig with intDecision := true, nmiPending := true } })
    t.pc = 0xFE47 ∧ t.sp = 0xFE ∧ t.debugP = 0xA4 ∧ t.spypeek 0x0101 = 0x80 ∧ t.spypeek 0x0100 = 0x00 ∧
    t.spypeek 0x01FF = 0xA4 ∧ t.sig.nmiPending = false := by decide

/-- The last row: reset of a jammed CPU. -/
theorem test_reset :
    let s := { cpu [] [(0xFFFC, 0xE2), (0xFFFD, 0xFC)] with
      pc := 0x1234, sp := 0x80, a := 0x11, x := 0x22, y := 0x33, p := Flags.ofByte 0xEB, jam := true }
    let t := after (step (withInputs { s with port := { s.port with ddr := 0x2F, data := 0x37 } } [resetCycle]))
    t.pc = 0xFCE2 ∧ t.sp = 0x7D ∧ t.a = 0x11 ∧ t.x = 0x22 ∧ t.y = 0x33 ∧ t.debugP = 0xEF ∧ t.jam = false ∧
    t.port.ddr = 0x00 ∧ t.port.data = 0x00 ∧ t.trace.length = 7 := by decide

/-- R334, R380: RESET held for three cycles costs `SP` three; a RESET in the fourth cycle of the sequence starts it again after one of
its three pushes. -/
theorem test_reset_restarts :
    (after (step (withInputs (cpu [] []) [resetCycle, resetCycle, resetCycle]))).sp = 0xFA ∧
    (let t := after (step (withInputs (cpu [] []) (resetCycle :: quiet 2 ++ [resetCycle])))
     t.sp = 0xF9 ∧ t.trace.length = 10) := by decide

/-- A run loop around `s`, nothing set. -/
def loopOf (s : State) : RunLoop :=
  { cpu := s, flags := [], paused := false, breakpoints := [], watchpoints := [], soft := none, messages := [],
    target := .cpu, inspections := [], snapshots := [] }

/-- R360: a JAM in the first cycle of a frame of six is served at its end, after five cycles in which the CPU does nothing. -/
theorem test_jam_pauses_at_the_frame_boundary :
    let r := (loopOf (cpu [0x02] [])).run 6 9
    r.paused = true ∧ r.cpu.sig.clock = 6 ∧ r.messages = [.cpuJammed] ∧ r.cpu.pc = 0xC001 ∧
    ((loopOf (cpu [0x02] [])).run 6 3).paused = false := by decide

/-- R361: a watchpoint on the operand's address breaks at the frame boundary after the access; one on an address that is not
accessed does not; a breakpoint at the third instruction sends its message. -/
theorem test_watchpoint_and_breakpoint :
    let r := loopOf (cpu [0xA5, 0x10, 0xEA, 0xEA, 0xEA] [])
    (let w := { r with watchpoints := [0x0010] }.run 7 9; w.paused = true ∧ w.cpu.sig.clock = 7 ∧ w.messages = []) ∧
    ({ r with watchpoints := [0x0011] }.run 7 4).paused = false ∧
    (let b := { r with breakpoints := [0xC003] }.run 7 9; b.paused = true ∧ b.messages = [.breakpointReached]) := by decide

/-- R361, R317, R380: a breakpoint is flagged in the cycle in which its opcode is fetched. With T0 held past a frame boundary it breaks
at the next; with a RESET in the hold the opcode is not fetched, and a soft breakpoint there is not used up. -/
theorem test_breakpoint_on_a_held_fetch :
    let r := { loopOf (withInputs (cpu [0xEA, 0xEA, 0xEA] []) (List.replicate 5 heldCycle)) with breakpoints := [0xC000] }
    (r.raised (after (step r.cpu)) = [(5, .breakpoint)] ∧ (r.advance 4).paused = false ∧ ((r.advance 4).advance 4).paused = true) ∧
    (let a := { loopOf (withInputs r.cpu [heldCycle, resetCycle]) with soft := some 0xC000 }
     a.raised (after (step a.cpu)) = [] ∧ (a.advance 4).soft = some 0xC000 ∧ a.cpu.opcodeFetch = none) := by decide

/-- R360: what is set in one frame is served in the order of priority. -/
theorem test_flags_are_served_by_priority :
    ((loopOf (cpu [] [])).setFlags [.inspect, .breakpoint, .jammed]).endFrame.messages = [.cpuJammed, .breakpointReached] ∧
    ((loopOf (cpu [] [])).setFlags [.userSnapshot, .inspect]).endFrame.paused = false ∧
    RunLoopFlag.served [.inspect, .breakpoint, .jammed, .stop] = [.stop, .jammed, .breakpoint, .inspect] := by decide

/-- R363, R364: INSPECT shows the configured target at the frame boundary, `P` with bit 5 at 1 and B at 0, and does not break; a
snapshot holds the CPU's state. -/
theorem test_inspect_at_the_frame_boundary :
    let r := (loopOf { cpu [0xA9, 0x80, 0xEA] [] with x := 0x22, p := Flags.ofByte 0x00 }).setFlags [.inspect, .userSnapshot]
    let e := r.advance 2
    e.inspections = [.registers { a := 0x80, x := 0x22, y := 0x00, sp := 0xFD, pc := 0xC002, p := 0xA0 }] ∧
    e.paused = false ∧ e.flags = [] ∧ e.snapshots = [e.cpu] ∧ (r.advance 3).inspections = [] ∧
    ({ r with target := .memory 0xC000 2 }.advance 2).inspections = [.bytes 0xC000 [0xA9, 0x80]] ∧
    ({ r with target := .outside }.advance 2).inspections = [] := by decide

/-- R362: stepping into a JSR pauses at the first fetch in the subroutine; stepping over it runs the subroutine, reaches the soft
breakpoint in cycle 14 and pauses at the frame boundary after it, the soft breakpoint used up. -/
theorem test_stepping :
    let r := loopOf (cpu [0x20, 0x10, 0xC0, 0xEA] [(0xC010, 0xE8), (0xC011, 0x60)])
    (let i := r.stepInto 16 5; i.paused = true ∧ i.cpu.pc = 0xC010 ∧ i.cpu.sig.clock = 6) ∧
    (let o := r.stepOver 16 9
     o.paused = true ∧ o.cpu.pc = 0xC004 ∧ o.cpu.x = 0x01 ∧ o.soft = none ∧ o.messages = [.breakpointReached]) ∧
    (let l := (loopOf (cpu [0x4C, 0x00, 0xC0] [])).stepOver 4 3; l.paused = false ∧ l.soft = some 0xC003) := by decide

/-- T2: SEI with IRQ asserted from cycle 0 on is interrupted after SEI, with `I` = 1 in the pushed status. -/
theorem test_timeline_T2 :
    let s := withInputs { cpu [0x78, 0xEA] [] with p := Flags.ofByte 0x20 } (List.replicate 9 irqCycle)
    let s := { s with sig := { s.sig with irqHist := { h0 := true, h1 := false, h2 := false } } }
    let t := afterSteps 2 s
    t.spypeek 0x01FD = 0xC0 ∧ t.spypeek 0x01FC = 0x01 ∧ t.spypeek 0x01FB = 0x24 := by decide

/-- T4: a branch taken inside the page delays the interrupt by one instruction. -/
theorem test_timeline_T4 :
    let s := withInputs { cpu [0xD0, 0x02, 0x00, 0x00, 0xEA] [] with p := Flags.ofByte 0x20 } (List.replicate 12 irqCycle)
    (afterSteps 1 s).sig.intDecision = false ∧ (afterSteps 3 s).spypeek 0x01FC = 0x05 := by decide

/-- T6, T7: an NMI edge in cycle 1 of a NOP is taken after it, one in cycle 2 an instruction later. -/
theorem test_timeline_T6_T7 :
    (afterSteps 1 (withInputs (cpu [0xEA, 0xEA] []) [nmiCycle])).sig.intDecision = true ∧
    (afterSteps 1 (withInputs (cpu [0xEA, 0xEA] []) [.rest, nmiCycle])).sig.intDecision = false ∧
    (afterSteps 2 (withInputs (cpu [0xEA, 0xEA] []) [.rest, nmiCycle])).sig.intDecision = true := by decide

/-- T8, T9: an NMI edge in cycle 4 of BRK takes its vector over, one in cycle 5 does not. -/
theorem test_timeline_T8_T9 :
    let s := { cpu [0x00, 0xEA] [(0xFFFA, 0x11), (0xFFFB, 0x22), (0xFFFE, 0x33), (0xFFFF, 0x44)] with p := Flags.ofByte 0x20 }
    (let t := after (step (withInputs s (quiet 3 ++ [nmiCycle])))
     t.pc = 0x2211 ∧ t.sig.nmiPending = false ∧ t.spypeek 0x01FB = 0x30 ∧ t.spypeek 0x01FC = 0x02) ∧
    (let t := after (step (withInputs s (quiet 4 ++ [nmiCycle])))
     t.pc = 0x4433 ∧ t.sig.nmiPending = true) := by decide

/-- T11: the two values of IRQ_SAMPLE_POINT. -/
theorem test_timeline_T11 :
    let s := withInputs { cpu [0xA5, 0x10, 0xEA] [] with p := Flags.ofByte 0x20 } (.rest :: List.replicate 4 irqCycle)
    (after (step s)).sig.intDecision = false ∧
    (after (step { s with params := { s.params with irqSample := .one } })).sig.intDecision = true := by decide

/-- T12, T13: RDY at 0 in cycles 2 to 6 delays STA's second fetch to cycle 7; in cycle 4 it does not hold the write. -/
theorem test_timeline_T12_T13 :
    ((after (step (withInputs (cpu [0x8D, 0x00, 0x20] []) (.rest :: List.replicate 5 heldCycle)))).trace.map
      fun c => (c.write, c.clock)) = [(false, 0), (false, 6), (false, 7), (true, 8)] ∧
    ((after (step (withInputs (cpu [0x8D, 0x00, 0x20] []) (quiet 3 ++ [heldCycle])))).trace.map
      fun c => (c.write, c.clock)) = [(false, 0), (false, 1), (false, 2), (true, 3)] := by decide

/-- T14: BRK's three pushes run in spite of RDY at 0; the vector's read is held. -/
theorem test_timeline_T14 :
    ((after (step (withInputs (cpu [0x00, 0xEA] []) (quiet 2 ++ List.replicate 4 heldCycle)))).trace.map
      fun c => (c.write, c.clock)) =
      [(false, 0), (false, 1), (true, 2), (true, 3), (true, 4), (false, 6), (false, 7)] := by decide

/-- The next step runs the instruction that `withFetchWord` places, from reset too. -/
theorem test_with_fetch_word :
    let t := after (step (State.reset.withFetchWord 16 0x42A9)); t.a = 0x42 ∧ t.pc = 0x0202 := by decide

/-! ## Witnesses: for every statement with hypotheses, states and operands that meet all of them -/

/-- The outcome is a next state. -/
def isNext (o : Host.Outcome State Fault Refusal) : Bool :=
  match o with
  | .next _ => true
  | _ => false

theorem eq_next {o : Host.Outcome State Fault Refusal} (h : isNext o = true) : o = .next (after o) := by
  cases o with
  | next s => rfl
  | fault r => nomatch r
  | refused r => exact absurd h Bool.false_ne_true

theorem decode_of_reads {b : List Byte} {r : Instr × List Byte} (h : reads b = some r) : decode b = .ok r := by
  unfold reads at h
  split at h
  next h' => rw [h']; cases h; rfl
  next => cases h

theorem calm_of {s : State} (h : (s.sig.inputs.all fun l => !l.reset) = true) (hp : s.port = State.reset.port)
    (hf : s.platform.windows = [] := by rfl) : s.Calm := by
  refine ⟨fun l hl => ?_, ?_, hf⟩
  · simpa using List.all_eq_true.1 h l hl
  · rw [hp]; exact ⟨trivial, trivial, trivial⟩

theorem noReset_of {g : Signals} (h : (g.inputs.all fun l => !l.reset) = true) : g.noReset := fun l hl => by
  simpa using List.all_eq_true.1 h l hl

theorem neverHeld_of {g : Signals} (h : (g.inputs.all fun l => l.rdy) = true) : g.neverHeld := fun l hl => by
  simpa using List.all_eq_true.1 h l hl

theorem noNmi_of {g : Signals} (hp : g.nmiPending = false) (h : (g.inputs.all fun l => !l.nmi) = true) : g.noNmi :=
  ⟨hp, fun l hl => by simpa using List.all_eq_true.1 h l hl⟩

/-- An ordinary state: registers, flags and memory that are not all zero, IRQ asserted and RDY at 0 for a while. -/
def sample : State :=
  withInputs { cpu [0xBD, 0xF0, 0x12] [(0x0010, 0x99), (0x00FF, 0x34), (0x0101, 0x20), (0x1310, 0x7F), (0xFFFE, 0x48)] with
    a := 0x5A, x := 0x20, y := 0xFF, sp := 0x01, p := Flags.ofByte 0xC1 } [irqCycle, heldCycle, irqCycle]

/-- The same in decimal mode, with the stack pointer at the end of its page and an NMI edge coming. -/
def sampleDecimal : State := withInputs { sample with sp := 0x00, p := Flags.ofByte 0x0D } [.rest, nmiCycle]

/-- The port after bits 3, 6 and 7 were driven to 1 and released so long ago that their charge is gone. -/
def samplePort : State :=
  let s := ((sample.poke 0x0000 0xFF).poke 0x0001 0xC8).poke 0x0000 0x00
  { s with sig := { s.sig with clock := 350000 } }

theorem sample_calm : sample.Calm := calm_of (by decide) rfl
theorem sampleDecimal_calm : sampleDecimal.Calm := calm_of (by decide) rfl
theorem samplePort_calm : samplePort.Calm :=
  ⟨noReset_of (by decide), ⟨show (350000 : Nat) ≤ 350000 from Nat.le_refl _, show (350000 : Nat) ≤ 350000 from Nat.le_refl _,
    show (350000 : Nat) ≤ 350000 from Nat.le_refl _⟩, rfl⟩
theorem sample_wf : sample.mem.wf = true ∧ sampleDecimal.mem.wf = true ∧ samplePort.mem.wf = true := by decide

theorem witness_DecodeOfEncodeIsTheInstruction :
    WellFormed (.lda (.mem (.abx 0xFFFF))) ∧ WellFormed (.nopRead 5 (.zpx 0xFF)) ∧ WellFormed (.jam 11) := by decide

theorem witness_DecodedBytesAreTheEncoding : decode [0xA9, 0x42, 0x00] = .ok (.lda (.imm 0x42), [0x00]) :=
  decode_of_reads (by decide)

theorem witness_StepKeepsTheInvariant : sample.Inv ∧ step sample = .next (after (step sample)) :=
  ⟨⟨⟨by decide, by unfold Port.consistent Port.consistentBit; decide, by decide, by decide⟩, by decide⟩, eq_next (by decide)⟩

/-- An indexed load; a JSR, whose third byte is fetched late; an instruction that wraps at the top of memory. -/
theorem witness_StepRunsTheDecodedInstruction :
    (sample.Calm ∧ sample.jam = false ∧ sample.sig.intDecision = false ∧
      decode [sample.spypeek 0xC000, sample.spypeek 0xC001, sample.spypeek 0xC002] = .ok (.lda (.mem (.abx 0x12F0)), [])) ∧
    (let s := cpu [0x20, 0x00, 0x90] []
     s.Calm ∧ s.jam = false ∧ s.sig.intDecision = false ∧
      decode [s.spypeek 0xC000, s.spypeek 0xC001, s.spypeek 0xC002] = .ok (.jsr 0x9000, [])) ∧
    (let s := { cpu [] [(0xFFFF, 0xA9)] with pc := 0xFFFF }
     s.Calm ∧ s.jam = false ∧ s.sig.intDecision = false ∧
      decode [s.spypeek s.pc, s.spypeek (s.pc + 1), s.spypeek (s.pc + 2)] = .ok (.lda (.imm 0x00), [0x17])) :=
  ⟨⟨sample_calm, rfl, rfl, decode_of_reads (by decide)⟩, ⟨calm_of rfl rfl, rfl, rfl, decode_of_reads (by decide)⟩,
    calm_of rfl rfl, rfl, rfl, decode_of_reads (by decide)⟩

/-- `s` at an interrupt that the last poll decided; `nmi`: an NMI is pending. -/
def decided (s : State) (nmi : Bool) : State := { s with sig := { s.sig with intDecision := true, nmiPending := nmi } }

theorem witness_DecidedInterruptIsTaken :
    ((decided sample true).Calm ∧ (decided sample true).mem.wf = true ∧ (decided sample true).jam = false ∧
      (decided sample true).sig.intDecision = true ∧ (decided sample true).sig.nmiPending = true ∧
      ∀ l ∈ (decided sample true).sig.inputs, l.nmi = false) ∧
    ((decided sample false).Calm ∧ (decided sample false).mem.wf = true ∧ (decided sample false).jam = false ∧
      (decided sample false).sig.intDecision = true ∧ (decided sample false).sig.noNmi) :=
  ⟨⟨calm_of (by decide) rfl, sample_wf.1, rfl, rfl, rfl, by decide⟩, calm_of (by decide) rfl, sample_wf.1, rfl, rfl,
    noNmi_of rfl (by decide)⟩

/-- IRQ with an NMI edge in the fourth cycle, the last that counts; BRK with one in the fifth, which is left pending. -/
theorem witness_LateNmiTakesTheVectorOver :
    (let s := withInputs (decided sample false) [.rest, .rest, .rest, nmiCycle]
     s.Calm ∧ s.mem.wf = true ∧ s.jam = false ∧ s.sig.neverHeld ∧ s.sig.intDecision = true ∧ s.sig.nmiBefore 4 = true ∧
      (after (step s)).sig.nmiPending = false) ∧
    (let s := withInputs (cpu [0x00] []) [.rest, .rest, .rest, .rest, nmiCycle]
     s.Calm ∧ s.mem.wf = true ∧ s.jam = false ∧ s.sig.neverHeld ∧ s.spypeek s.pc = 0x00 ∧ s.sig.nmiBefore 4 = false ∧
      s.sig.nmiEdge 4 = true) :=
  ⟨⟨calm_of (by decide) rfl, sample_wf.1, rfl, neverHeld_of (by decide), rfl, by decide, by decide⟩, calm_of (by decide) rfl,
    by decide, rfl, neverHeld_of (by decide), by decide, by decide, by decide⟩

/-- A jammed CPU, a RESET held for two cycles and one for one, and no device at the vector. -/
theorem witness_ResetSequenceEndState :
    (let s := withInputs { sample with jam := true } [resetCycle, resetCycle, heldCycle]
     s.sig.inputs = resetCycle :: [resetCycle, heldCycle] ∧ resetCycle.reset = true ∧
      s.sig.inputs = [resetCycle, resetCycle] ++ [heldCycle] ∧ [resetCycle, resetCycle] ≠ [] ∧
      (∀ m ∈ [resetCycle, resetCycle], m.reset = true) ∧ (∀ m ∈ [heldCycle], m.reset = false) ∧
      s.resetClear.responder 0xFFFC ≠ some .device ∧ s.resetClear.responder 0xFFFD ≠ some .device) ∧
    (let s := withInputs sample [resetCycle, heldCycle]
     s.sig.inputs = resetCycle :: [heldCycle] ∧ ∀ m ∈ [heldCycle], m.reset = false) := by decide

/-- An instruction and an interrupt sequence; a held read; a JSR after its first and after its second push. -/
theorem witness_ResetAbandonsTheInstruction :
    (let s := withInputs sample [.rest, resetCycle]
     s.sig.inputs = .rest :: resetCycle :: [] ∧ Lines.rest.reset = false ∧ Lines.rest.rdy = true ∧ resetCycle.reset = true ∧
      s.jam = false ∧ s.sig.intDecision = false ∧ (∀ m ∈ ([] : List Lines), m.reset = false) ∧
      s.resetClear.responder 0xFFFC ≠ some .device ∧ s.resetClear.responder 0xFFFD ≠ some .device ∧
      ∀ k, Opcode.instr (s.spypeek s.pc) 0x00 0x00 ≠ .jam k) ∧
    (let s := withInputs (decided sample true) [.rest, resetCycle]
     s.sig.inputs = .rest :: resetCycle :: [] ∧ s.jam = false ∧ s.sig.intDecision = true) ∧
    ((withInputs sample [heldCycle, resetCycle]).sig.inputs = [heldCycle] ++ resetCycle :: [] ∧
      (∀ m ∈ [heldCycle], m.reset = false ∧ m.rdy = false) ∧
      (withInputs sample [resetCycle]).sig.inputs = [] ++ resetCycle :: []) ∧
    ((withInputs sample [.rest, .rest, resetCycle, .rest]).sig.inputs = .rest :: .rest :: resetCycle :: .rest :: [] ∧
      (withInputs sample [.rest, .rest, .rest, resetCycle]).sig.inputs = .rest :: .rest :: .rest :: resetCycle :: [] ∧
      (∀ m ∈ [Lines.rest, Lines.rest], m.reset = false ∧ m.rdy = true) ∧ (∀ m ∈ [Lines.rest], m.reset = false) ∧
      sample.platform.windows = []) := by decide

/-- R380: of a JSR that RESET meets after its pushes the pushes stay, and the jump does not happen. -/
theorem test_reset_inside_jsr :
    let t := after (step (withInputs (cpu [0x20, 0x00, 0x90] [(0xFFFC, 0xE2), (0xFFFD, 0xFC)]) (quiet 5 ++ [resetCycle])))
    t.spypeek 0x01FD = 0xC0 ∧ t.spypeek 0x01FC = 0x02 ∧ t.pc = 0xFCE2 ∧ t.sp = 0xF8 ∧ t.trace.length = 12 := by decide

theorem witness_JammedCpuDoesNothing :
    (withInputs { sample with jam := true } [nmiCycle]).jam = true ∧
    (withInputs { sample with jam := true } [nmiCycle]).sig.resetNext = false := by decide

/-- The NMI sequence clears the pending NMI; an LDA decides it. -/
theorem witness_PendingNmiIsKeptAndDecided :
    (let s := decided sample true
     s.sig.noReset ∧ step s = .next (after (step s)) ∧ s.sig.nmiPending = true ∧
      (after (step s)).sig.nmiPending = false) ∧
    (let s := { sample with sig := { sample.sig with nmiPending := true } }
     s.sig.noReset ∧ step s = .next (after (step s)) ∧ s.sig.nmiPending = true ∧ s.jam = false ∧
      s.sig.intDecision = false ∧ (after (step s)).ir ≠ 0x00 ∧ (after (step s)).jam = false) :=
  ⟨⟨noReset_of (by decide), eq_next (by decide), rfl, by decide⟩, noReset_of (by decide), eq_next (by decide), rfl, rfl, rfl,
    by decide, by decide⟩

theorem witness_ImpliedInstructionsPollWithTheOldI :
    Instr.isImplied .cli = true ∧ Instr.isImplied .sei = true ∧ (withInputs sample [irqCycle]).sig.noReset ∧
    (withInputs sample [irqCycle]).sig.neverHeld := ⟨rfl, rfl, noReset_of (by decide), neverHeld_of (by decide)⟩

/-- RTI whose restored `I` is 0, with IRQ asserted; a branch that leaves the page. -/
theorem witness_EveryInstructionPollsInItsPollCycles :
    (let s := withInputs { cpu [0x40] [] with sp := 0x80 } (List.replicate 6 irqCycle)
     s.Calm ∧ s.sig.neverHeld ∧ s.jam = false ∧ s.sig.intDecision = false ∧
      decode [s.spypeek s.pc, s.spypeek (s.pc + 1), s.spypeek (s.pc + 2)] = .ok (.rti, [0x00, 0x00]) ∧
      Instr.pollCycles .rti s = [5] ∧ (after (step s)).sig.intDecision = true) ∧
    (let s := cpu [0x10, 0x80] []
     s.Calm ∧ s.sig.neverHeld ∧ s.jam = false ∧ s.sig.intDecision = false ∧
      decode [s.spypeek s.pc, s.spypeek (s.pc + 1), s.spypeek (s.pc + 2)] = .ok (.bpl 0x80, [0x00]) ∧
      Instr.pollCycles (.bpl 0x80) s = [1, 3]) :=
  ⟨⟨calm_of (by decide) rfl, neverHeld_of (by decide), rfl, rfl, decode_of_reads (by decide), by decide, by decide⟩,
    calm_of (by decide) rfl, neverHeld_of (by decide), rfl, rfl, decode_of_reads (by decide), by decide⟩

/-- `sample` has `Z` = 0 and `PC` = $C000: not taken, taken inside the page, and taken to another page. -/
theorem witness_BranchesPollAgainOnlyAcrossPages :
    sample.sig.noReset ∧
    Instr.branches (.beq 0x10) sample.p = some (false, 0x10) ∧
    (Instr.branches (.bne 0x7F) sample.p = some (true, 0x7F) ∧ (sample.pc + (0x7F : Byte).signExtend 16).hi = sample.pc.hi) ∧
    (Instr.branches (.bne 0x80) sample.p = some (true, 0x80) ∧
      (sample.pc + (0x80 : Byte).signExtend 16).hi ≠ sample.pc.hi ∧
      (withInputs sample [irqCycle, irqCycle]).sig.neverHeld ∧
      (withInputs sample [irqCycle, irqCycle]).sig.inputs = irqCycle :: [irqCycle]) :=
  ⟨noReset_of (by decide), by decide, by decide, by decide, by decide, neverHeld_of (by decide), rfl⟩

theorem witness_RtiPollsWithTheRestoredI :
    let s := withInputs sample [.rest, .rest, irqCycle, irqCycle]
    s.Calm ∧ s.sig.neverHeld ∧ s.sig.noNmi ∧ s.sig.inputs = .rest :: .rest :: irqCycle :: irqCycle :: [] :=
  ⟨calm_of (by decide) rfl, neverHeld_of (by decide), noNmi_of rfl (by decide), rfl⟩

theorem witness_RdyHoldsReadsAndNotWrites :
    (withInputs sample [heldCycle]).sig.inputs = heldCycle :: [] ∧ heldCycle.reset = false ∧ heldCycle.rdy = false :=
  ⟨rfl, rfl, rfl⟩

/-- A load across a page, a branch across a page, and JAM. -/
theorem witness_EveryInstructionTakesItsCycles :
    (sample.Calm ∧ sample.jam = false ∧ sample.sig.intDecision = false ∧
      decode [sample.spypeek 0xC000, sample.spypeek 0xC001, sample.spypeek 0xC002] = .ok (.lda (.mem (.abx 0x12F0)), []) ∧
      Instr.cycleCount (.lda (.mem (.abx 0x12F0))) sample = 5) ∧
    (let s := cpu [0x10, 0x80] []
     s.Calm ∧ s.jam = false ∧ s.sig.intDecision = false ∧
      decode [s.spypeek 0xC000, s.spypeek 0xC001, s.spypeek 0xC002] = .ok (.bpl 0x80, [0x00]) ∧
      Instr.cycleCount (.bpl 0x80) s = 4) ∧
    (let s := cpu [0xF2] []
     s.Calm ∧ s.jam = false ∧ s.sig.intDecision = false ∧
      decode [s.spypeek 0xC000, s.spypeek 0xC001, s.spypeek 0xC002] = .ok (.jam 11, [0x00, 0x00]) ∧
      Instr.cycleCount (.jam 11) s = 1) :=
  ⟨⟨sample_calm, rfl, rfl, decode_of_reads (by decide), by decide⟩,
    ⟨calm_of rfl rfl, rfl, rfl, decode_of_reads (by decide), by decide⟩, calm_of rfl rfl, rfl, rfl,
    decode_of_reads (by decide), by decide⟩

/-- The bits of the range's ends, both ways a floating bit reads (charged, and discharged), and the default of PORT_EXTERNAL. -/
theorem witness_PortReadBlendsDrivenAndExternalBits :
    (0 < 8 ∧ (sample.spypeek 0x0001).getLsbD 0 = true) ∧ (7 < 8 ∧ (samplePort.spypeek 0x0001).getLsbD 7 = false) ∧
    sample.params.portExternal = 0x17 ∧
    ({ samplePort with sig := { samplePort.sig with clock := 349999 } }.spypeek 0x0001).getLsbD 7 = true := by decide

/-- No window, a ROM, a device, and an indexed load whose two reads are the device's. -/
theorem witness_PlatformAnswersTheBus :
    (withInputs sample []).sig.noReset ∧ (withInputs sample []).sig.neverHeld ∧
    (let device : Window := { first := 0xD000, last := 0xDFFF, banks := 0x80, responder := .device }
     let rom : Window := { first := 0xE000, last := 0xFFFF, banks := 0xCC, responder := .rom [(0xE000, 0x85)] }
     let s := { withInputs sample [] with x := 0x01, platform := { windows := [device, rom], answers := [0x01, 0x02] } }
     let window := fun a : Word => s.platform.windows.find? fun w =>
       w.banks.getLsbD 7 && decide (w.first.toNat ≤ a.toNat ∧ a.toNat ≤ w.last.toNat)
     window 0x0002 = none ∧ window 0xE000 = some rom ∧ window 0xD100 = some device ∧ s.platform.answers = 0x01 :: 0x02 :: [] ∧
      (0xD0FF : Word).lo.toNat + s.x.toNat > 255 ∧ (0xD100 : Word) = 0xD0FF + s.x.zeroExtend 16 ∧
      s.responder 0xD100 = some .device ∧ s.responder (Word.ofBytes (0xD0FF : Word).hi (0xD100 : Word).lo) = some .device) :=
  ⟨noReset_of (by decide), neverHeld_of (by decide), by decide⟩

/-- A bit that becomes driven, one that is released while it was 1, one that stays an input. -/
theorem witness_FloatingBitsDecay :
    (let s := sample.poke 0x0001 0x80
     ((0x80 : Byte).getLsbD 7 = true ∧ s.port.ddr.getLsbD 7 = false ∧ (s.poke 0x0000 0x80).port.float7 = .never)) ∧
    (let s := (sample.poke 0x0001 0x80).poke 0x0000 0x80
     ((0x00 : Byte).getLsbD 7 = false ∧ s.port.ddr.getLsbD 7 = true ∧ (s.poke 0x0000 0x00).port.float7 = .due 350000)) ∧
    (samplePort.port.ddr.getLsbD 3 = false ∧ (samplePort.poke 0x0001 0xFF).port.float3 = samplePort.port.float3) := by decide

theorem witness_OnlyTheListedInstructionsWriteDAndIAndV :
    exec (.inc (.abx 0x12FF)) sample = .next (after (exec (.inc (.abx 0x12FF)) sample)) ∧ sample.sig.noReset ∧
    Instr.writesD (.inc (.abx 0x12FF)) = false ∧ Instr.writesI (.inc (.abx 0x12FF)) = false ∧
    Instr.writesV (.inc (.abx 0x12FF)) = false := ⟨eq_next (by decide), noReset_of (by decide), rfl, rfl, rfl⟩

theorem witness_FlaglessInstructionsKeepEveryFlag :
    Instr.writesNoFlag (.sta (.izy 0x10)) = true ∧ Instr.writesNoFlag .txs = true ∧ sample.sig.noReset :=
  ⟨rfl, rfl, noReset_of (by decide)⟩

theorem witness_OnlyTheListedInstructionsWriteTheRegisters :
    sample.sig.noReset ∧ Instr.writesA .txs = false ∧ Instr.writesX .txs = false ∧ Instr.writesY .txs = false ∧
    Instr.writesSP .tsx = false := ⟨noReset_of (by decide), rfl, rfl, rfl, rfl⟩

theorem witness_OnlyStoringInstructionsWriteMemory :
    sample.sig.noReset ∧ Instr.stores (.cmp (.mem (.izx 0x10))) = false ∧ Instr.stores (.ror .acc) = false :=
  ⟨noReset_of (by decide), rfl, rfl⟩

theorem witness_LoadsLoadTheOperand : sample.Calm ∧ samplePort.Calm := ⟨sample_calm, samplePort_calm⟩

/-- And the three kinds of address a store can have: memory, $0000, $0001. -/
theorem witness_StoresStoreTheRegister :
    (sample.Calm ∧ sample.mem.wf = true) ∧ (Mem.zpx 0x10).ea sample = 0x0030 ∧ (Mem.aby 0xFF01).ea sample = 0x0000 ∧
    (Mem.zpy 0x02).ea sample = 0x0001 := ⟨⟨sample_calm, sample_wf.1⟩, by decide, by decide, by decide⟩

theorem witness_TransfersCopyTheRegister : sample.Calm ∧ sampleDecimal.Calm := ⟨sample_calm, sampleDecimal_calm⟩
/-- The stack pointer at the end of its page. -/
theorem witness_PushesStoreBelowTheStack :
    sampleDecimal.Calm ∧ sampleDecimal.mem.wf = true ∧ sampleDecimal.sp = 0x00 := ⟨sampleDecimal_calm, sample_wf.2.1, rfl⟩
theorem witness_PullsLoadAboveTheStack :
    let s := { sample with sp := 0xFF }
    s.Calm ∧ s.sp + 1 = 0x00 := ⟨calm_of (by decide) rfl, by decide⟩
/-- Both modes. -/
theorem witness_AdcAndSbcWriteTheAluResult :
    (sample.Calm ∧ sample.p.d = false) ∧ (sampleDecimal.Calm ∧ sampleDecimal.p.d = true) :=
  ⟨⟨sample_calm, rfl⟩, sampleDecimal_calm, rfl⟩
theorem witness_AluEquivalences : (99 < 100 ∧ 0 < 100) ∧ bcd 99 = 0x99 ∧ bcd 0 = 0x00 := by decide
theorem witness_LogicWorksBitwise : sample.Calm ∧ samplePort.Calm := ⟨sample_calm, samplePort_calm⟩
theorem witness_ComparesSetThreeFlags : sample.Calm ∧ sampleDecimal.Calm := ⟨sample_calm, sampleDecimal_calm⟩
theorem witness_BitTestsTheOperand : sample.Calm ∧ samplePort.Calm := ⟨sample_calm, samplePort_calm⟩
theorem witness_ShiftsAndRotations : sample.Calm ∧ sample.mem.wf = true ∧ samplePort.Calm ∧ samplePort.mem.wf = true :=
  ⟨sample_calm, sample_wf.1, samplePort_calm, sample_wf.2.2⟩
theorem witness_IncrementsAndDecrements : sample.Calm ∧ sample.mem.wf = true := ⟨sample_calm, sample_wf.1⟩
theorem witness_ReadModifyWriteWritesTwice :
    Instr.inc (.zp 0x10) ∈ [Instr.inc (.zp 0x10)] ∧ sample.Calm ∧ (Mem.zp 0x10).ea sample ≠ 0x0000 ∧
    (Mem.zp 0x10).ea sample ≠ 0x0001 ∧ sample.mem.wf = true :=
  ⟨List.mem_singleton_self _, sample_calm, by decide, by decide, sample_wf.1⟩
theorem witness_JumpsSetPc : sample.Calm ∧ samplePort.Calm := ⟨sample_calm, samplePort_calm⟩
/-- The pushes wrap from $0100 to $01FF. -/
theorem witness_JsrPushesTheReturnAddress :
    sampleDecimal.Calm ∧ sampleDecimal.mem.wf = true ∧ stackByte (sampleDecimal.sp - 1) = 0x01FF :=
  ⟨sampleDecimal_calm, sample_wf.2.1, by decide⟩
theorem witness_RtsReturnsPastThePulledAddress : sample.Calm ∧ sampleDecimal.Calm := ⟨sample_calm, sampleDecimal_calm⟩
/-- With an NMI pending and with none. -/
theorem witness_BrkEntersItsHandler :
    ((decided sample true).Calm ∧ (decided sample true).mem.wf = true ∧ (decided sample true).sig.nmiPending = true ∧
      ∀ l ∈ (decided sample true).sig.inputs, l.nmi = false) ∧
    (sample.Calm ∧ sample.mem.wf = true ∧ sample.sig.noNmi) :=
  ⟨⟨calm_of (by decide) rfl, sample_wf.1, rfl, by decide⟩, sample_calm, sample_wf.1, noNmi_of rfl (by decide)⟩
theorem witness_RtiRestoresFlagsAndPc : sample.Calm ∧ sampleDecimal.Calm := ⟨sample_calm, sampleDecimal_calm⟩
theorem witness_ReturnsUndoTheirEntries :
    (sample.Calm ∧ sample.mem.wf = true) ∧
    ((decided sample false).Calm ∧ (decided sample false).mem.wf = true ∧ (decided sample false).jam = false ∧
      (decided sample false).sig.intDecision = true) :=
  ⟨⟨sample_calm, sample_wf.1⟩, calm_of (by decide) rfl, sample_wf.1, rfl, rfl⟩
/-- Every one of the eight conditions, true and false. -/
theorem witness_BranchesAddTheDisplacement :
    (sample.Calm ∧ sample.p.n = true ∧ sample.p.v = true ∧ sample.p.c = true ∧ sample.p.z = false) ∧
    (let s := { sampleDecimal with p := Flags.ofByte 0x02 }
     s.Calm ∧ s.p.n = false ∧ s.p.v = false ∧ s.p.c = false ∧ s.p.z = true) :=
  ⟨⟨sample_calm, rfl, rfl, rfl, rfl⟩, calm_of (by decide) rfl, rfl, rfl, rfl, rfl⟩
theorem witness_FlagInstructionsWriteOneFlag : sample.Calm ∧ sampleDecimal.Calm := ⟨sample_calm, sampleDecimal_calm⟩
theorem witness_NopsChangeNothing : sample.Calm ∧ samplePort.Calm := ⟨sample_calm, samplePort_calm⟩
/-- Both modes. -/
theorem witness_CombinedReadModifyWrite :
    (sample.Calm ∧ sample.mem.wf = true ∧ sample.p.d = false) ∧
    (sampleDecimal.Calm ∧ sampleDecimal.mem.wf = true ∧ sampleDecimal.p.d = true) :=
  ⟨⟨sample_calm, sample_wf.1, rfl⟩, sampleDecimal_calm, sample_wf.2.1, rfl⟩
theorem witness_ImmediateCombinations : sample.Calm ∧ sampleDecimal.Calm := ⟨sample_calm, sampleDecimal_calm⟩
/-- Both modes. -/
theorem witness_ArrRotatesWithAdderFlags :
    (sample.Calm ∧ sample.p.d = false) ∧ (sampleDecimal.Calm ∧ sampleDecimal.p.d = true) :=
  ⟨⟨sample_calm, rfl⟩, sampleDecimal_calm, rfl⟩
theorem witness_LasAneLxa : sample.Calm ∧ sampleDecimal.Calm := ⟨sample_calm, sampleDecimal_calm⟩
/-- A page crossing with SH_PAGECROSS_MODE at either value. -/
theorem witness_ShStoresUseTheHighByte :
    (sample.Calm ∧ sample.mem.wf = true ∧ sample.params.shPageCross = .andHigh) ∧
    (let s := { sample with params := { sample.params with shPageCross := .plain } }
     s.Calm ∧ s.mem.wf = true ∧ (Mem.aby 0x20FF).crossesPage s = true) :=
  ⟨⟨sample_calm, sample_wf.1, rfl⟩, calm_of (by decide) rfl, sample_wf.1, by decide⟩

end Sys2Proof.Tests
end

section
/-! PROOFS. The state after reset, the image of P, and RDY (R51, R35, R40). -/

namespace Sys2Proof.Machine

/-- Settles O8: memory lists nothing, and the port is that which a reset clears. -/
theorem resetMeetsTheInvariant : Obligations.ResetMeetsTheInvariant :=
  ⟨⟨rfl, State.reset.resetClear_consistent, rfl, rfl⟩, fun _ => rfl⟩

/-- Settles O9: `PC` by the law that names the vector, the rest by the fields of `State.reset`. -/
theorem resetStateHasTheGivenValues : Obligations.ResetStateHasTheGivenValues :=
  ⟨reset_pc_is_the_vector, rfl, rfl, rfl, rfl, rfl, rfl, rfl, rfl, rfl, rfl, rfl, rfl⟩

/-- Appending one bit is `BitVec.concat`. -/
theorem append_ofBool {n : Nat} (v : BitVec n) (b : Bool) : v ++ BitVec.ofBool b = v.concat b := rfl

/-- Settles O33: every bit appended doubles the number of the bits above it. -/
theorem statusImageAndItsInverse : Obligations.StatusImageAndItsInverse := by
  refine ⟨fun f b => ?_, fun v => rfl⟩
  have h1 : (1#1 : BitVec 1) = BitVec.ofBool true := rfl
  simp only [Flags.image, h1, append_ofBool, BitVec.toNat_concat, BitVec.toNat_ofBool, Bool.toNat_true]
  omega

/-- A read that RDY holds is tried again in the next cycle (R40, R317). -/
theorem Signals.startRead_held {g : Signals} {l : Lines} {rest : List Lines} (hi : g.inputs = l :: rest)
    (hl : l.reset = false) (hr : l.rdy = false) : g.startRead = (g.held l rest).startRead := by
  simp [startRead, startReadFrom, hi, hl, hr, held]

/-- A write starts in the next cycle, whatever RDY is (R40). -/
theorem Signals.startWrite_begin {g : Signals} {l : Lines} {rest : List Lines} (hi : g.inputs = l :: rest)
    (hl : l.reset = false) : g.startWrite = .ok (g.begin l rest) := by
  simp [startWrite, resetNext, beginNext, hi, hl]

/-- Settles O21: what the start of a read and of a write cycle does with RDY. -/
theorem rdyHoldsReadsAndNotWrites : Obligations.RdyHoldsReadsAndNotWrites := by
  intro s a v poll l rest hi hl
  constructor
  · intro hr
    show s.busRead a poll = (s.setSig (s.sig.held l rest)).busRead a poll
    unfold State.busRead
    rw [Signals.startRead_held hi hl hr]
    rfl
  · unfold State.busWrite
    rw [Signals.startWrite_begin hi hl]
    cases poll <;> exact ⟨_, rfl, rfl, rfl, rfl⟩

end Sys2Proof.Machine
end

section
/-! PROOFS. The port, bit by bit (R47, R48), and the charge of its floating bits (R49). -/

namespace Sys2Proof.Machine

/-- The external levels, bit by bit (R47). -/
theorem Port.external_getLsbD (p : Port) (now : Nat) (params : Params) (i : Nat) (h : i < 8) :
    (p.external now params).getLsbD i = p.level now params i := by
  interval_cases i <;> simp [external, append_ofBool, BitVec.getElem_concat]

/-- A bit of a port read is the level that the port presents there (R47, R48). -/
theorem Port.read_getLsbD (p : Port) (now : Nat) (params : Params) (i : Nat) (h : i < 8) :
    (p.read now params).getLsbD i = p.out now params i := by
  simp only [read, out, BitVec.getLsbD_or, BitVec.getLsbD_and, BitVec.getLsbD_not, h, p.external_getLsbD _ _ _ h]
  cases p.ddr.getLsbD i <;> simp

/-- A read of $0001 is a read of the port (R61). -/
theorem State.spypeek_data (s : State) : s.spypeek 0x0001 = s.port.read s.sig.clock s.params := by
  simp [spypeek, byteAt]

/-- Settles O23: a bit read is the level presented, and with PORT_EXTERNAL = $17 the inputs have R47's levels. -/
theorem portReadBlendsDrivenAndExternalBits : Obligations.PortReadBlendsDrivenAndExternalBits := by
  intro s driven level
  have bit (i : Nat) (h : i < 8) : (s.spypeek 0x0001).getLsbD i = s.port.out s.sig.clock s.params i := by
    rw [s.spypeek_data, s.port.read_getLsbD _ _ _ h]
  have out (i : Nat) (h : i < 8) : s.port.out s.sig.clock s.params i = driven i (level i) := by
    interval_cases i <;> rfl
  refine ⟨fun i hi => ⟨(bit i hi).trans (out i hi), out i hi⟩, rfl, rfl, rfl, fun hx => ?_⟩
  have pulled : level 0 = true ∧ level 1 = true ∧ level 2 = true ∧ level 4 = true ∧ level 5 = false := by
    simp [level, hx]
  obtain ⟨l0, l1, l2, l4, l5⟩ := pulled
  rw [bit 4 (by omega), bit 5 (by omega), out 4 (by omega), out 5 (by omega), l4, l5]
  exact ⟨congrArg (driven 0) l0, congrArg (driven 1) l1, congrArg (driven 2) l2, rfl, rfl⟩

/-- A bit is charged for ever or before its deadline (R49). -/
theorem Discharge.charged_iff (d : Discharge) (now : Nat) : d.charged now = true ↔ d = .never ∨ ∃ c, d = .due c ∧ now < c := by
  cases d <;> simp [charged]

/-- A floating bit after a write, one clause per case of R49. -/
theorem Discharge.afterWrite_cases (d : Discharge) (now decay : Nat) (oldDir oldData newDir newData : Bool) :
    (newDir = true → d.afterWrite now decay oldDir oldData newDir newData = if newData then .never else .already) ∧
    (newDir = false → oldDir = true →
      d.afterWrite now decay oldDir oldData newDir newData = if oldData then .due (now + decay) else .already) ∧
    (newDir = false → oldDir = false → d.afterWrite now decay oldDir oldData newDir newData = d) := by
  refine ⟨?_, ?_, ?_⟩ <;> simp +contextual [afterWrite]

/-- The port after a write at one of its addresses, with what the registers then hold (R61). -/
theorem State.poke_port_write (s : State) (a : Word) (v : Byte) (h : a = 0x0000 ∨ a = 0x0001) :
    (s.poke a v).port = s.port.write s.sig.clock s.params.portDecay (if a = 0x0000 then v else s.port.ddr)
      (if a = 0x0001 then v else s.port.data) := by
  rcases h with rfl | rfl <;> rfl

/-- Settles O25: the cases of R49 for each of the three floating bits. -/
theorem floatingBitsDecay : Obligations.FloatingBitsDecay := by
  intro s a v h
  refine ⟨fun i old new hm => ?_, Discharge.charged_iff⟩
  rw [s.poke_port_write a v h] at hm
  simp only [List.mem_cons, Prod.mk.injEq, List.not_mem_nil, or_false] at hm
  rcases hm with ⟨rfl, rfl, rfl⟩ | ⟨rfl, rfl, rfl⟩ | ⟨rfl, rfl, rfl⟩ <;> exact Discharge.afterWrite_cases _ _ _ _ _ _ _

end Sys2Proof.Machine
end

section
/-! PROOFS. The fetch in calm: a step runs the instruction that the bytes at `PC` decode to (R26, R36, R100, R212, R291). -/

namespace Sys2Proof

/-- The instructions that an entry makes have its format's length (R100), and whether they leave a byte for later (R212) does
not depend on the operand. -/
def Entry.Uniform : Entry → Prop
  | .f1 i => i.length = 1 ∧ i.fetchesHighLate = false
  | .f2 make => ∀ b, (make b).length = 2 ∧ (make b).fetchesHighLate = false
  | .f3 make => ∀ w, (make w).length = 3 ∧ (make w).fetchesHighLate = (make 0).fetchesHighLate

theorem Opcode.matrix_uniform : ∀ e ∈ Opcode.matrix, e.Uniform := by
  simp only [Opcode.matrix, List.forall_mem_append]
  simp only [row0, row1, row2, row3, row4, row5, row6, row7, row8, row9, rowA, rowB, rowC, rowD, rowE, rowF,
    List.forall_mem_cons, List.not_mem_nil, false_imp_iff, implies_true, and_true]
  simp [Entry.Uniform, Entry.srcImm, Entry.src, Entry.srcW, Entry.tgt, Entry.tgtW, Entry.mem, Entry.memW, Entry.imm, Entry.rel,
    Instr.length, Instr.mode, Src.mode, Target.mode, Mem.mode, Mode.length, Instr.fetchesHighLate]

theorem Opcode.entry_uniform (op : Byte) : (Opcode.entry op).Uniform := by
  have h : op.toNat < Opcode.matrix.length := by rw [Opcode.matrix_length]; exact op.isLt
  rw [Opcode.entry, List.getD_eq_getElem _ _ h]
  exact matrix_uniform _ (List.getElem_mem h)

/-- How many bytes of the instruction are fetched before it runs: all, but for JSR's third (R212). -/
def Instr.fetchedBytes (i : Instr) : Nat := if i.fetchesHighLate then 2 else i.length

theorem Instr.fetchedBytes_late {i : Instr} (h : i.fetchesHighLate = true) : i.fetchedBytes = 2 := if_pos h

theorem Instr.fetchedBytes_length {i : Instr} (h : i.fetchesHighLate = false) : i.fetchedBytes = i.length :=
  if_neg (by rw [h]; exact Bool.false_ne_true)

/-- On three bytes the decoder makes an instruction of the entry of the first. -/
theorem decode_three {op b1 b2 : Byte} {i : Instr} {rest : List Byte} (h : decode [op, b1, b2] = .ok (i, rest)) :
    i = Opcode.instr op b1 b2 := by
  unfold decode at h
  unfold Opcode.instr
  cases he : Opcode.entry op <;> simp only [he, Except.ok.injEq, Prod.mk.injEq] at h ⊢ <;> exact h.1.symm

end Sys2Proof

namespace Sys2Proof.Machine

theorem SameCpu.setPC {s t : State} (h : SameCpu s t) (w : Word) : SameCpu (s.setPC w) (t.setPC w) :=
  { h with pc := rfl, calm := ⟨h.calm.noReset, h.calm.settled, h.calm.flat⟩ }

theorem SameCpu.setIR {s t : State} (h : SameCpu s t) (op : Byte) : SameCpu (s.setIR op) (t.setIR op) :=
  { h with ir := rfl, calm := ⟨h.calm.noReset, h.calm.settled, h.calm.flat⟩ }

/-- Fetching a byte in calm: the byte at `PC` is read, `PC` and `T` are one higher, nothing else moves. -/
theorem State.fetchByte_calm (s : State) (poll : Bool) (h : s.Calm) :
    ∃ t, s.fetchByte poll = .done (s.spypeek s.pc) t ∧ SameCpu (s.setPC (s.pc + 1)) t ∧ t.t = s.t + 1 := by
  obtain ⟨t, ht, hst, -⟩ := s.busRead_calm s.pc poll h
  have hT : t.t = s.t + 1 := by
    rw [s.busRead_done s.pc poll h.noReset] at ht
    obtain ⟨-, rfl⟩ := BusRun.done.inj ht
    exact s.afterRead_t s.pc poll
  refine ⟨t.setPC (t.pc + 1), ?_, ?_, hT⟩
  · simp only [fetchByte, ht, BusRun.andThen_done]
  · rw [hst.pc]
    exact hst.setPC _

/-- `t` is `s` after the fetch of `n` bytes, the first of them `op`. -/
structure Fetched (s : State) (op : Byte) (n : Nat) (t : State) : Prop where
  same : SameCpu ((s.setPC (s.pc + BitVec.ofNat 16 n)).setIR op) t
  t    : t.t = s.t + n

/-- The opcode fetch (R291). -/
theorem Fetched.opcode (s : State) (h : s.Calm) :
    ∃ t, s.fetchByte = .done (s.spypeek s.pc) t ∧ Fetched s (s.spypeek s.pc) 1 (t.setIR (s.spypeek s.pc)) := by
  obtain ⟨t, ht, hst, hT⟩ := s.fetchByte_calm false h
  exact ⟨t, ht, hst.setIR _, hT⟩

theorem Fetched.spypeek {s t : State} {op : Byte} {n : Nat} (h : Fetched s op n t) (hs : s.Calm) (a : Word) :
    t.spypeek a = s.spypeek a :=
  h.same.spypeek ⟨hs.noReset, hs.settled, hs.flat⟩ a

/-- The fetch of one byte more. -/
theorem Fetched.next {s t : State} {op : Byte} {n : Nat} (h : Fetched s op n t) (hs : s.Calm) (poll : Bool) :
    ∃ u, t.fetchByte poll = .done (s.spypeek (s.pc + BitVec.ofNat 16 n)) u ∧ Fetched s op (n + 1) u := by
  have hpc : t.pc = s.pc + BitVec.ofNat 16 n := h.same.pc
  obtain ⟨u, hu, htu, hT⟩ := t.fetchByte_calm poll h.same.calm
  rw [h.spypeek hs, hpc] at hu
  refine ⟨u, hu, ?_, by rw [hT, h.t]; omega⟩
  have hn : t.pc + 1 = s.pc + BitVec.ofNat 16 (n + 1) := by
    rw [hpc, BitVec.ofNat_add, BitVec.add_assoc]
    rfl
  have step := h.same.setPC (t.pc + 1)
  rw [hn] at step htu
  exact step.trans htu

/-- The fetch in calm: the decoded instruction, in the state after its bytes. -/
theorem State.fetch_calm (s : State) (h : s.Calm) :
    ∃ i u, s.fetch = .done i u ∧ i = Opcode.instr (s.spypeek s.pc) (s.spypeek (s.pc + 1)) (s.spypeek (s.pc + 2)) ∧
      Fetched s (s.spypeek s.pc) i.fetchedBytes u := by
  obtain ⟨t, ht, f1⟩ := Fetched.opcode s h
  have uniform := Opcode.entry_uniform (s.spypeek s.pc)
  simp only [fetch, ht, BusRun.andThen_done, Opcode.instr]
  cases he : Opcode.entry (s.spypeek s.pc) with
  | f1 i =>
    rw [he] at uniform
    obtain ⟨hl, hj⟩ := uniform
    exact ⟨i, _, rfl, rfl, by rw [Instr.fetchedBytes_length hj, hl]; exact f1⟩
  | f2 make =>
    rw [he] at uniform
    obtain ⟨hl, hj⟩ := uniform (s.spypeek (s.pc + 1))
    obtain ⟨u, hu, f2⟩ := f1.next h (make 0).fetchPolls
    refine ⟨make (s.spypeek (s.pc + 1)), u, ?_, rfl, by rw [Instr.fetchedBytes_length hj, hl]; exact f2⟩
    simp only [hu, BusRun.andThen_done]
    rfl
  | f3 make =>
    rw [he] at uniform
    obtain ⟨hl, hj⟩ := uniform (Word.ofBytes (s.spypeek (s.pc + 2)) (s.spypeek (s.pc + 1)))
    obtain ⟨u, hu, f2⟩ := f1.next h false
    cases late : (make 0).fetchesHighLate with
    | true =>
      have hpc : u.pc = s.pc + 2 := f2.same.pc
      refine ⟨_, u, ?_, rfl, by rw [Instr.fetchedBytes_late (hj.trans late)]; exact f2⟩
      simp only [hu, BusRun.andThen_done, late, if_true, f2.spypeek h, hpc]
      rfl
    | false =>
      obtain ⟨w, hw, f3⟩ := f2.next h (make 0).fetchPolls
      refine ⟨_, w, ?_, rfl, by rw [Instr.fetchedBytes_length (hj.trans late), hl]; exact f3⟩
      simp only [hu, BusRun.andThen_done, late, hw]
      rfl

/-- A step that takes no reset, no interrupt and no jammed cycle fetches and runs an instruction. -/
theorem step_of_fetch {s u : State} {i : Instr} (hr : s.sig.resetNext = false) (hj : s.jam = false)
    (hd : s.sig.intDecision = false) (hf : s.startStep.clearDecision.fetch = .done i u) : step s = exec i u := by
  simp only [step, State.startStep_sig, State.startStep_jam, hr, hj, hd, hf, Bool.false_eq_true, if_false]

/-- Settles O10: the fetch in calm, from the state that a step starts with. -/
theorem stepRunsTheDecodedInstruction : Obligations.StepRunsTheDecodedInstruction := by
  intro s i rest hs hj hd hdec
  have h0 : s.startStep.clearDecision.Calm := ⟨hs.noReset, hs.settled, hs.flat⟩
  obtain ⟨i', u, hf, hi, fetched⟩ := s.startStep.clearDecision.fetch_calm h0
  obtain rfl : i = i' := (decode_three hdec).trans hi.symm
  have same := fetched.same
  have kept : NothingStored s u := .of_same hs same.mem same.port same.params (congrArg Platform.windows same.platform) same.clock
  exact ⟨u, step_of_fetch (s.sig.resetNext_false hs.noReset) hj hd hf, same.calm, same.ir, same.jam.trans hj, same.params,
    same.platform, kept, same.regs, fetched.t.trans (Nat.zero_add _)⟩

end Sys2Proof.Machine
end

section
/-! PROOFS. What an instruction may not write (R21 to R24, R30, R31, R34) it keeps in every one of its bus cycles. -/

namespace Sys2Proof.Machine

/-- What `instr` does not write is in `t` what it is in `s`, and if no RESET comes after `s`, none comes after `t`. -/
structure KeptBy (instr : Instr) (s t : State) : Prop where
  a  : instr.writesA = false → t.a = s.a
  x  : instr.writesX = false → t.x = s.x
  y  : instr.writesY = false → t.y = s.y
  sp : instr.writesSP = false → t.sp = s.sp
  d  : instr.writesD = false → t.p.d = s.p.d
  i  : instr.writesI = false → t.p.i = s.p.i
  v  : instr.writesV = false → t.p.v = s.p.v
  p  : instr.writesNoFlag = true → t.p = s.p
  noReset : s.sig.noReset → t.sig.noReset

section rules
variable {instr : Instr} {s t u : State}

theorem KeptBy.trans (h : KeptBy instr s t) (k : KeptBy instr t u) : KeptBy instr s u where
  a w := (k.a w).trans (h.a w)
  x w := (k.x w).trans (h.x w)
  y w := (k.y w).trans (h.y w)
  sp w := (k.sp w).trans (h.sp w)
  d w := (k.d w).trans (h.d w)
  i w := (k.i w).trans (h.i w)
  v w := (k.v w).trans (h.v w)
  p w := (k.p w).trans (h.p w)
  noReset r := k.noReset (h.noReset r)

/-- An operation that writes none of these registers is kept to by every instruction. -/
theorem KeptBy.of_same (ha : t.a = s.a) (hx : t.x = s.x) (hy : t.y = s.y) (hsp : t.sp = s.sp) (hp : t.p = s.p)
    (hr : s.sig.noReset → t.sig.noReset) : KeptBy instr s t :=
  ⟨fun _ => ha, fun _ => hx, fun _ => hy, fun _ => hsp, fun _ => congrArg Flags.d hp, fun _ => congrArg Flags.i hp,
    fun _ => congrArg Flags.v hp, fun _ => hp, hr⟩

theorem KeptBy.refl : KeptBy instr s s := .of_same rfl rfl rfl rfl rfl id

theorem KeptBy.setPC {w : Word} : KeptBy instr s (s.setPC w) := .of_same rfl rfl rfl rfl rfl id

/-- The latches of R42 are no registers of R21 to R34: the rule of `setAD`, `setPTR`, `setDL` and `addIndex`. -/
theorem KeptBy.setLatch {l : Latches} : KeptBy instr s { s with latch := l } := .of_same rfl rfl rfl rfl rfl id

theorem KeptBy.fixHigh : KeptBy instr s s.fixHigh := by
  unfold State.fixHigh
  split_ifs
  · exact .setLatch
  · exact .refl

theorem KeptBy.setA {b : Byte} (h : instr.writesA = true) : KeptBy instr s (s.setA b) :=
  { KeptBy.refl with a := fun w => absurd (h.symm.trans w) nofun }

theorem KeptBy.setX {b : Byte} (h : instr.writesX = true) : KeptBy instr s (s.setX b) :=
  { KeptBy.refl with x := fun w => absurd (h.symm.trans w) nofun }

theorem KeptBy.setY {b : Byte} (h : instr.writesY = true) : KeptBy instr s (s.setY b) :=
  { KeptBy.refl with y := fun w => absurd (h.symm.trans w) nofun }

theorem KeptBy.setSP {b : Byte} (h : instr.writesSP = true) : KeptBy instr s (s.setSP b) :=
  { KeptBy.refl with sp := fun w => absurd (h.symm.trans w) nofun }

/-- An instruction that is not one of the flagless ones may set `P` if it keeps those of `D`, `I`, `V` that it does not write. -/
theorem KeptBy.setP {f : Flags} (h : instr.writesNoFlag = false) (hd : instr.writesD = false → f.d = s.p.d)
    (hi : instr.writesI = false → f.i = s.p.i) (hv : instr.writesV = false → f.v = s.p.v) : KeptBy instr s (s.setP f) :=
  { KeptBy.refl with d := hd, i := hi, v := hv, p := fun w => absurd (h.symm.trans w) nofun }

/-- Flags that differ in N, Z and C only. -/
theorem KeptBy.setNZC {f : Flags} (h : instr.writesNoFlag = false) (hd : f.d = s.p.d) (hi : f.i = s.p.i) (hv : f.v = s.p.v) :
    KeptBy instr s (s.setP f) := .setP h (fun _ => hd) (fun _ => hi) (fun _ => hv)

/-- Flags that differ in N, V, Z and C only. -/
theorem KeptBy.setNVZC {f : Flags} (h : instr.writesNoFlag = false) (hv : instr.writesV = true) (hd : f.d = s.p.d)
    (hi : f.i = s.p.i) : KeptBy instr s (s.setP f) :=
  .setP h (fun _ => hd) (fun _ => hi) fun w => absurd (hv.symm.trans w) nofun

theorem KeptBy.setI {b : Bool} (h : instr.writesNoFlag = false) (hi : instr.writesI = true) :
    KeptBy instr s (s.setP { s.p with i := b }) :=
  .setP h (fun _ => rfl) (fun w => absurd (hi.symm.trans w) nofun) fun _ => rfl

theorem KeptBy.setD {b : Bool} (h : instr.writesNoFlag = false) (hd : instr.writesD = true) :
    KeptBy instr s (s.setP { s.p with d := b }) :=
  .setP h (fun w => absurd (hd.symm.trans w) nofun) (fun _ => rfl) fun _ => rfl

/-- An instruction that writes D, I and V may load the whole of `P`. -/
theorem KeptBy.loadP {f : Flags} (h : instr.writesNoFlag = false) (hd : instr.writesD = true) (hi : instr.writesI = true)
    (hv : instr.writesV = true) : KeptBy instr s (s.setP f) :=
  .setP h (fun w => absurd (hd.symm.trans w) nofun) (fun w => absurd (hi.symm.trans w) nofun)
    fun w => absurd (hv.symm.trans w) nofun

theorem KeptBy.setNZ {b : Byte} (h : instr.writesNoFlag = false) : KeptBy instr s (s.setNZ b) := .setNZC h rfl rfl rfl

theorem KeptBy.addToA {b : Byte} (ha : instr.writesA = true) (h : instr.writesNoFlag = false) (hv : instr.writesV = true) :
    KeptBy instr s (s.addToA b) := .trans (.setA ha) (.setNVZC h hv rfl rfl)

theorem KeptBy.subFromA {b : Byte} (ha : instr.writesA = true) (h : instr.writesNoFlag = false) (hv : instr.writesV = true) :
    KeptBy instr s (s.subFromA b) := .trans (.setA ha) (.setNVZC h hv rfl rfl)

theorem KeptBy.afterRead (a : Word) (poll : Bool) : KeptBy instr s (s.afterRead a poll) :=
  .of_same (s.afterRead_a a poll) (s.afterRead_x a poll) (s.afterRead_y a poll) (s.afterRead_sp a poll) (s.afterRead_p a poll)
    (s.afterRead_noReset a poll)

theorem KeptBy.afterWrite (a : Word) (b : Byte) (poll : Bool) : KeptBy instr s (s.afterWrite a b poll) :=
  .of_same (s.afterWrite_a a b poll) (s.afterWrite_x a b poll) (s.afterWrite_y a b poll) (s.afterWrite_sp a b poll)
    (s.afterWrite_p a b poll) (s.afterWrite_noReset a b poll)

end rules

/-! ## Runs of bus cycles -/

/-- The run from `s` keeps what `instr` does not write, also where RESET abandons it (R380); and it is abandoned only if a RESET
comes. -/
def BusRun.Within {α : Type} (instr : Instr) (s : State) (r : BusRun α) : Prop :=
  match r with
  | .done _ t => KeptBy instr s t
  | .reset t => KeptBy instr s t ∧ ¬ s.sig.noReset

section runs
variable {instr : Instr} {s t : State} {α β : Type}

theorem BusRun.Within.done {v : α} (h : KeptBy instr s t) : (BusRun.done v t).Within instr s := h

theorem BusRun.Within.after {r : BusRun α} (h : KeptBy instr s t) (hr : r.Within instr t) : r.Within instr s := by
  cases r with
  | done v u => exact h.trans hr
  | reset u => exact ⟨h.trans hr.1, mt h.noReset hr.2⟩

theorem BusRun.Within.andThen {r : BusRun α} {f : α → State → BusRun β} (hr : r.Within instr s)
    (hf : ∀ v t, (f v t).Within instr t) : (r.andThen f).Within instr s := by
  cases r with
  | done v t => exact (hf v t).after hr
  | reset t => exact hr

theorem State.busRead_within (s : State) (a : Word) (poll : Bool) : (s.busRead a poll).Within instr s := by
  by_cases h : s.sig.noReset
  · rw [s.busRead_done a poll h]
    exact .afterRead a poll
  · unfold busRead
    cases s.sig.startRead with
    | error g => exact ⟨.of_same rfl rfl rfl rfl rfl fun k => absurd k h, h⟩
    | ok g => cases poll <;> exact .of_same rfl rfl rfl rfl rfl fun k => absurd k h

theorem State.busWrite_within (s : State) (a : Word) (b : Byte) (poll : Bool) : (s.busWrite a b poll).Within instr s := by
  by_cases h : s.sig.noReset
  · rw [s.busWrite_done a b poll h]
    exact .afterWrite a b poll
  · unfold busWrite
    cases s.sig.startWrite with
    | error g => exact ⟨.of_same rfl rfl rfl rfl rfl fun k => absurd k h, h⟩
    | ok g => cases poll <;> exact .of_same rfl rfl rfl rfl rfl fun k => absurd k h

theorem State.push_within (s : State) (b : Byte) (poll : Bool) (h : instr.writesSP = true) :
    (s.push b poll).Within instr s :=
  (s.busWrite_within _ b poll).andThen fun _ _ => .done (.setSP h)

theorem State.pull_within (s : State) (poll : Bool) (h : instr.writesSP = true) : (s.pull poll).Within instr s :=
  .after (.setSP h) (State.busRead_within _ _ poll)

/-! ## Operands -/

theorem State.indexed_within (s : State) (always : Bool) (idx : Byte) : (s.indexed always idx).Within instr s := by
  refine .after (t := s.addIndex idx) .setLatch ?_
  simp only [indexed]
  split_ifs
  · exact (State.busRead_within _ _ _).andThen fun _ _ => .done .fixHigh
  · exact .done .refl

theorem State.readPointer_within (s : State) : s.readPointer.Within instr s :=
  (s.busRead_within _ _).andThen fun _ _ => .after .setLatch <|
    (State.busRead_within _ _ _).andThen fun _ _ => .done .setLatch

theorem State.zeroPageIndexed_within (s : State) (b idx : Byte) : (s.zeroPageIndexed b idx).Within instr s :=
  .after .setLatch <| (State.busRead_within _ _ _).andThen fun _ _ => .done .setLatch

theorem resolve_within (m : Mem) (always : Bool) (s : State) : (m.resolve always s).Within instr s := by
  cases m with
  | zp b => exact .done .setLatch
  | zpx b => exact s.zeroPageIndexed_within b s.x
  | zpy b => exact s.zeroPageIndexed_within b s.y
  | abs w => exact .done .setLatch
  | abx w => exact .after .setLatch (State.indexed_within _ always _)
  | aby w => exact .after .setLatch (State.indexed_within _ always _)
  | izx b =>
    exact .after .setLatch <| (State.busRead_within _ _ _).andThen fun _ _ => .after .setLatch (State.readPointer_within _)
  | izy b => exact .after .setLatch <| (State.readPointer_within _).andThen fun _ t => t.indexed_within always _

theorem load_within (m : Mem) (s : State) : (m.load s).Within instr s :=
  (resolve_within m false s).andThen fun _ _ => State.busRead_within _ _ true

theorem srcLoad_within (o : Src) (s : State) : (o.load s).Within instr s := by
  cases o with
  | imm b => exact .done .refl
  | mem m => exact load_within m s

/-! ## Entry and return -/

theorem State.pushStatus_within (s : State) (b : Bool) (h : instr.writesSP = true) :
    (s.pushStatusChooseVector b).Within instr s := by
  unfold pushStatusChooseVector
  by_cases hr : s.sig.noReset
  · rw [s.sig.startWrite_ok hr]
    exact .trans (t := s.setSig s.sig.beginNext) (.of_same rfl rfl rfl rfl rfl s.sig.beginNext_noReset)
      (.trans (.setSP (b := s.sp - 1) h) (.of_same rfl rfl rfl rfl rfl id))
  · cases s.sig.startWrite with
    | error g => exact ⟨.of_same rfl rfl rfl rfl rfl fun k => absurd k hr, hr⟩
    | ok g => exact .trans (.setSP (b := s.sp - 1) h) (.of_same rfl rfl rfl rfl rfl fun k => absurd k hr)

theorem State.loadVector_within (s : State) (vec : Word) (h : instr.writesNoFlag = false) (hi : instr.writesI = true) :
    (s.loadVector vec).Within instr s :=
  (s.busRead_within _ _).andThen fun _ _ => .after
    (.trans .setPC (.setI h hi))
    ((State.busRead_within _ _ _).andThen fun _ _ => .done .setPC)

theorem State.enter_within (s : State) (b : Bool) (hs : instr.writesSP = true) (h : instr.writesNoFlag = false)
    (hi : instr.writesI = true) : (s.enter b).Within instr s :=
  (s.push_within _ _ hs).andThen fun _ t => (t.push_within _ _ hs).andThen fun _ u =>
    (u.pushStatus_within b hs).andThen fun vec w => w.loadVector_within vec h hi

theorem State.returnFromInterrupt_within (s : State) (hs : instr.writesSP = true)
    (hp : ∀ (t : State) (f : Flags), KeptBy instr t (t.setP f)) : s.returnFromInterrupt.Within instr s :=
  (s.busRead_within _ _).andThen fun _ t => (t.pull_within _ hs).andThen fun _ u => .after (hp u _) <|
    (State.pull_within _ _ hs).andThen fun _ _ => .after .setPC <|
    (State.pull_within _ _ hs).andThen fun _ _ => .done .setPC

end runs

/-! ## Outcomes -/

/-- The instruction ends in a state that keeps what `instr` does not write; or a RESET came, and the reset sequence ran from such a
state (R380). -/
def Ended (instr : Instr) (s : State) (o : Host.Outcome State Fault Refusal) : Prop :=
  ∃ t, KeptBy instr s t ∧ (o = .next t ∨ ¬ s.sig.noReset ∧ o = .next t.resetSequence)

section shapes
variable {instr : Instr} {s : State}

theorem Ended.of_next {t : State} (h : KeptBy instr s t) : Ended instr s (.next t) := ⟨t, h, .inl rfl⟩

theorem BusRun.Within.outcome {α : Type} {r : BusRun α} (h : r.Within instr s) : Ended instr s r.outcome := by
  cases r with
  | done v t => exact .of_next (h.trans (.of_same rfl rfl rfl rfl rfl id))
  | reset t => exact ⟨t, h.1, .inr ⟨h.2, rfl⟩⟩

theorem readInstr_ended {load : State → BusRun Byte} {f : Byte → State → State} (hl : ∀ s, (load s).Within instr s)
    (hf : ∀ v t, KeptBy instr t (f v t)) : Ended instr s (readInstr load f s) :=
  ((hl s).andThen fun v t => .done (hf v t)).outcome

theorem writeInstr_ended {m : Mem} {b : Byte} : Ended instr s (writeInstr m b s) :=
  ((resolve_within m true s).andThen fun _ _ => State.busWrite_within _ _ _ _).outcome

/-- The function of a read-modify-write instruction gives flags that differ in N, Z and C only. -/
theorem modifyInstr_ended {m : Mem} {f : Flags → Byte → Byte × Flags} {acc : Byte → State → State}
    (h : instr.writesNoFlag = false) (hf : ∀ p v, (f p v).2.d = p.d ∧ (f p v).2.i = p.i ∧ (f p v).2.v = p.v)
    (ha : ∀ v t, KeptBy instr t (acc v t)) : Ended instr s (modifyInstr m f acc s) :=
  ((resolve_within m true s).andThen fun _ t => (t.busRead_within _ _).andThen fun _ _ => .after .setLatch <|
    (State.busWrite_within _ _ _ _).andThen fun _ u => .after
      (.setNZC h (hf u.p u.latch.dl).1 (hf u.p u.latch.dl).2.1 (hf u.p u.latch.dl).2.2) <|
    (State.busWrite_within _ _ _ _).andThen fun _ _ => .done (ha _ _)).outcome

theorem impliedInstr_ended {f : State → State} (hf : ∀ t, KeptBy instr t (f t)) : Ended instr s (impliedInstr f s) :=
  ((s.busRead_within _ _).andThen fun _ t => .done (hf t)).outcome

theorem immediateInstr_ended {f : State → State} (hf : ∀ t, KeptBy instr t (f t)) : Ended instr s (immediateInstr f s) :=
  (BusRun.Within.done (v := ()) (hf s)).outcome

theorem shStore_ended {m : Mem} {reg : State → Byte} {g : State → State} (hg : ∀ t, KeptBy instr t (g t)) :
    Ended instr s (shStore m reg g s) := by
  refine ((resolve_within m true s).andThen fun _ t => .after (hg t) ?_).outcome
  dsimp only
  split
  · exact .after .setLatch (State.busWrite_within _ _ _ _)
  · exact State.busWrite_within _ _ _ _

theorem pushInstr_ended {b : Byte} (h : instr.writesSP = true) : Ended instr s (pushInstr b s) :=
  ((s.busRead_within _ _).andThen fun _ t => t.push_within _ _ h).outcome

theorem pullInstr_ended {f : Byte → State → State} (h : instr.writesSP = true) (hf : ∀ v t, KeptBy instr t (f v t)) :
    Ended instr s (pullInstr f s) :=
  ((s.busRead_within _ _).andThen fun _ t => (t.busRead_within _ _).andThen fun _ u =>
    (u.pull_within _ h).andThen fun v w => .done (hf v w)).outcome

theorem branch_ended {cond : Bool} {off : Byte} : Ended instr s (branch cond off s) := by
  unfold branch
  split_ifs
  · refine ((s.busRead_within _ _).andThen fun _ t => .after (.setPC (w := Word.ofBytes t.pc.hi (s.pc + sext16 off).lo)) ?_).outcome
    dsimp only
    split_ifs
    · exact .done .refl
    · exact (State.busRead_within _ _ _).andThen fun _ _ => .done .setPC
  · exact (BusRun.Within.done (v := ()) .refl).outcome

end shapes

theorem arrAlu_d (f : Flags) (b : Byte) : (arrAlu f b).2.d = f.d := by
  unfold arrAlu; split_ifs <;> rfl

theorem arrAlu_i (f : Flags) (b : Byte) : (arrAlu f b).2.i = f.i := by
  unfold arrAlu; split_ifs <;> rfl

/-- A shift or rotation writes N, Z, C, and on the accumulator `A`. -/
theorem shiftInstr_ended {instr : Instr} {s : State} {f : Flags → Byte → Byte × Flags} {o : Target}
    (h : instr.writesNoFlag = false) (ha : o = .acc → instr.writesA = true)
    (hf : ∀ p v, (f p v).2.d = p.d ∧ (f p v).2.i = p.i ∧ (f p v).2.v = p.v) : Ended instr s (shiftInstr f o s) := by
  cases o with
  | acc => exact impliedInstr_ended fun t => .trans (.setA (ha rfl)) (.setNZC h (hf _ _).1 (hf _ _).2.1 (hf _ _).2.2)
  | mem m => exact modifyInstr_ended h hf fun _ _ => .refl

/-- Every instruction keeps, from its first cycle to its last, what R21 to R24, R30, R31 and R34 do not let it write. -/
theorem exec_ended (i : Instr) (s : State) : Ended i s (exec i s) := by
  cases i with
  | lda o | and o | ora o | eor o => exact readInstr_ended (srcLoad_within o) fun _ _ => .trans (.setA rfl) (.setNZ rfl)
  | ldx o => exact readInstr_ended (srcLoad_within o) fun _ _ => .trans (.setX rfl) (.setNZ rfl)
  | ldy o => exact readInstr_ended (srcLoad_within o) fun _ _ => .trans (.setY rfl) (.setNZ rfl)
  | sta m | stx m | sty m | sax m => exact writeInstr_ended
  | tax | tsx | inx | dex => exact impliedInstr_ended fun _ => .trans (.setX rfl) (.setNZ rfl)
  | tay | iny | dey => exact impliedInstr_ended fun _ => .trans (.setY rfl) (.setNZ rfl)
  | txa | tya => exact impliedInstr_ended fun _ => .trans (.setA rfl) (.setNZ rfl)
  | txs => exact impliedInstr_ended fun _ => .setSP rfl
  | pha | php => exact pushInstr_ended rfl
  | pla => exact pullInstr_ended rfl fun _ _ => .trans (.setA rfl) (.setNZ rfl)
  | plp => exact pullInstr_ended rfl fun _ _ => .loadP rfl rfl rfl rfl
  | adc o => exact readInstr_ended (srcLoad_within o) fun _ _ => .addToA rfl rfl rfl
  | sbc o => exact readInstr_ended (srcLoad_within o) fun _ _ => .subFromA rfl rfl rfl
  | cmp o | cpx o | cpy o => exact readInstr_ended (srcLoad_within o) fun _ _ => .setNZC rfl rfl rfl rfl
  | bit m => exact readInstr_ended (load_within m) fun _ _ => .setNVZC rfl rfl rfl rfl
  | asl o | lsr o | rol o | ror o => exact shiftInstr_ended rfl (fun h => h ▸ rfl) fun _ _ => ⟨rfl, rfl, rfl⟩
  | inc m =>
    show Ended _ s (execInc m s)
    exact modifyInstr_ended rfl (fun _ _ => ⟨rfl, rfl, rfl⟩) fun _ _ => .refl
  | dec m =>
    show Ended _ s (execDec m s)
    exact modifyInstr_ended rfl (fun _ _ => ⟨rfl, rfl, rfl⟩) fun _ _ => .refl
  | jmp target => exact immediateInstr_ended fun t => .trans (t := t.setAD target) .setLatch .setPC
  | jmpInd pointer =>
    exact (BusRun.Within.after .setLatch <| (State.busRead_within _ _ _).andThen fun _ _ => .after .setLatch <|
      (State.busRead_within _ _ _).andThen fun _ _ => .done .setPC).outcome
  | jsr target =>
    exact (BusRun.Within.after .setLatch <| (State.busRead_within _ _ _).andThen fun _ _ =>
      (State.push_within _ _ _ rfl).andThen fun _ _ => (State.push_within _ _ _ rfl).andThen fun _ _ =>
      (State.busRead_within _ _ _).andThen fun _ _ => .done (.trans .setLatch .setPC)).outcome
  | rts =>
    exact ((State.busRead_within _ _ _).andThen fun _ _ => (State.busRead_within _ _ _).andThen fun _ _ =>
      (State.pull_within _ _ rfl).andThen fun _ _ => .after .setPC <|
      (State.pull_within _ _ rfl).andThen fun _ _ => .after .setPC <|
      (State.busRead_within _ _ _).andThen fun _ _ => .done .setPC).outcome
  | rti =>
    exact ((State.busRead_within _ _ _).andThen fun _ t =>
      t.returnFromInterrupt_within rfl fun _ _ => .loadP rfl rfl rfl rfl).outcome
  | brk =>
    exact ((State.busRead_within _ _ _).andThen fun _ _ => .after .setPC (State.enter_within _ true rfl rfl rfl)).outcome
  | bpl off | bmi off | bvc off | bvs off | bcc off | bcs off | bne off | beq off => exact branch_ended
  | clc | sec => exact impliedInstr_ended fun _ => .setNZC rfl rfl rfl rfl
  | cli | sei => exact impliedInstr_ended fun _ => .setI rfl rfl
  | clv => exact impliedInstr_ended fun _ => .setNVZC rfl rfl rfl rfl
  | cld | sed => exact impliedInstr_ended fun _ => .setD rfl rfl
  | nop which => exact impliedInstr_ended fun _ => .refl
  | slo m =>
    show Ended _ s (execSlo m s)
    exact modifyInstr_ended rfl (fun _ _ => ⟨rfl, rfl, rfl⟩) fun _ _ => .trans (.setA rfl) (.setNZ rfl)
  | rla m =>
    show Ended _ s (execRla m s)
    exact modifyInstr_ended rfl (fun _ _ => ⟨rfl, rfl, rfl⟩) fun _ _ => .trans (.setA rfl) (.setNZ rfl)
  | sre m =>
    show Ended _ s (execSre m s)
    exact modifyInstr_ended rfl (fun _ _ => ⟨rfl, rfl, rfl⟩) fun _ _ => .trans (.setA rfl) (.setNZ rfl)
  | rra m =>
    show Ended _ s (execRra m s)
    exact modifyInstr_ended rfl (fun _ _ => ⟨rfl, rfl, rfl⟩) fun _ _ => .addToA rfl rfl rfl
  | dcp m =>
    show Ended _ s (execDcp m s)
    exact modifyInstr_ended rfl (fun _ _ => ⟨rfl, rfl, rfl⟩) fun _ _ => .setNZC rfl rfl rfl rfl
  | isc m =>
    show Ended _ s (execIsc m s)
    exact modifyInstr_ended rfl (fun _ _ => ⟨rfl, rfl, rfl⟩) fun _ _ => .subFromA rfl rfl rfl
  | lax m => exact readInstr_ended (load_within m) fun _ _ => .trans (.trans (.setA rfl) (.setX rfl)) (.setNZ rfl)
  | anc which b =>
    show Ended _ s (execAnc which b s)
    exact immediateInstr_ended fun _ => .trans (.setA rfl) (.setNZC rfl rfl rfl rfl)
  | alr b =>
    show Ended _ s (execAlr b s)
    exact immediateInstr_ended fun _ => .trans (.setA rfl) (.setNZC rfl rfl rfl rfl)
  | arr b => exact immediateInstr_ended fun _ => .trans (.setA rfl) (.setNVZC rfl rfl (arrAlu_d _ _) (arrAlu_i _ _))
  | axs b =>
    show Ended _ s (execAxs b s)
    exact immediateInstr_ended fun _ => .trans (.setX rfl) (.setNZC rfl rfl rfl rfl)
  | las base =>
    exact readInstr_ended (load_within (.aby base)) fun _ _ =>
      .trans (.trans (.trans (.setA rfl) (.setX rfl)) (.setSP rfl)) (.setNZ rfl)
  | nopImm which b => exact immediateInstr_ended fun _ => .refl
  | nopRead which m => exact readInstr_ended (load_within m) fun _ _ => .refl
  | usbc b => exact readInstr_ended (srcLoad_within (.imm b)) fun _ _ => .subFromA rfl rfl rfl
  | ane b => exact immediateInstr_ended fun _ => .trans (.setA rfl) (.setNZ rfl)
  | lxa b => exact immediateInstr_ended fun _ => .trans (.trans (.setA rfl) (.setX rfl)) (.setNZ rfl)
  | sha m => exact shStore_ended fun _ => .refl
  | shx base | shy base => exact shStore_ended fun _ => .refl
  | tas base => exact shStore_ended fun _ => .setSP rfl
  | jam which => exact .of_next (.of_same rfl rfl rfl rfl rfl id)

/-- With no RESET coming the instruction ends, in a state that keeps what it does not write. -/
theorem exec_completes (i : Instr) (s : State) (h : s.sig.noReset) : Completes (exec i s) (KeptBy i s) := by
  obtain ⟨t, ht, ho | ⟨hn, -⟩⟩ := exec_ended i s
  · exact ⟨t, ho, ht⟩
  · exact absurd h hn

/-! ## The reset sequence keeps D (R394) -/

/-- `D` is `d`: what the cycles of the reset sequence keep. -/
def State.HasD (d : Bool) (s : State) : Prop := s.p.d = d

theorem State.busRead_then_hasD {β : Type} {d : Bool} {s : State} {f : Byte → State → BusRun β} (a : Word) (h : s.HasD d)
    (hf : ∀ v t, t.HasD d → (f v t).Keeps (HasD d)) : ((s.busRead a).andThen f).Keeps (HasD d) := by
  refine BusRun.Keeps.andThen ?_ hf
  unfold busRead
  cases s.sig.startRead <;> exact h

theorem State.resetPush_hasD {d : Bool} {s : State} (h : s.HasD d) : s.resetPush.Keeps (HasD d) :=
  busRead_then_hasD _ h fun _ _ ht => ht

theorem State.loadVector_hasD {d : Bool} {s : State} (vec : Word) (h : s.HasD d) : (s.loadVector vec).Keeps (HasD d) :=
  busRead_then_hasD _ h fun _ _ ht => busRead_then_hasD _ ht fun _ _ hu => hu

theorem State.resetAccept_hasD {d : Bool} {s : State} (h : s.HasD d) : s.resetAccept.Keeps (HasD d) := by
  unfold resetAccept
  cases s.sig.acceptReset <;> exact h

theorem State.resetCycles_hasD {d : Bool} {s : State} (h : s.HasD d) : s.resetCycles.Keeps (HasD d) :=
  (State.resetAccept_hasD (s := s.resetClear) h).andThen fun _ _ ht => busRead_then_hasD _ ht fun _ _ hu =>
    (State.resetPush_hasD hu).andThen fun _ _ hv => (State.resetPush_hasD hv).andThen fun _ _ hw =>
    (State.resetPush_hasD hw).andThen fun _ _ hx => State.loadVector_hasD _ hx

theorem State.resetFrom_hasD {d : Bool} (n : Nat) {s : State} (h : s.HasD d) : (s.resetFrom n).HasD d := by
  induction n generalizing s with
  | zero =>
    unfold resetFrom
    have hk := State.resetCycles_hasD h
    cases hc : s.resetCycles <;> rw [hc] at hk <;> exact hk
  | succ n ih =>
    unfold resetFrom
    have hk := State.resetCycles_hasD h
    cases hc : s.resetCycles <;> rw [hc] at hk
    · exact hk
    · exact ih hk

theorem State.resetSequence_d (s : State) : s.resetSequence.p.d = s.p.d := State.resetFrom_hasD _ rfl

/-! ## The obligations -/

/-- Settles O26: the instruction keeps the flags to its end, or a reset sequence follows, which keeps D. -/
theorem onlyTheListedInstructionsWriteDAndIAndV : Obligations.OnlyTheListedInstructionsWriteDAndIAndV := by
  intro i s t he
  obtain ⟨u, hu, ho | ⟨hn, ho⟩⟩ := exec_ended i s <;> cases he.symm.trans ho
  · exact ⟨hu.d, fun _ => hu.i, fun _ => hu.v⟩
  · exact ⟨fun w => u.resetSequence_d.trans (hu.d w), fun h => absurd h hn, fun h => absurd h hn⟩

/-- Settles O27: `P` is one of the registers that `exec_completes` speaks of. -/
theorem flaglessInstructionsKeepEveryFlag : Obligations.FlaglessInstructionsKeepEveryFlag := by
  intro i s w h
  obtain ⟨t, ho, ht⟩ := exec_completes i s h
  exact ⟨t, ho, ht.p w⟩

/-- Settles O28: `A`, `X`, `Y` and `SP` are registers that `exec_completes` speaks of. -/
theorem onlyTheListedInstructionsWriteTheRegisters : Obligations.OnlyTheListedInstructionsWriteTheRegisters := by
  intro i s h
  obtain ⟨t, ho, ht⟩ := exec_completes i s h
  exact ⟨t, ho, ht.a, ht.x, ht.y, ht.sp⟩

end Sys2Proof.Machine
end

section
/-! PROOFS. What an instruction is made of: bus reads, bus writes if it stores, and updates of registers and latches. A condition
that these keep, every instruction keeps (R61, R190, R160); so does every step. -/

namespace Sys2Proof.Machine

/-! ## Runs of bus cycles -/

/-- `P` holds where the run ends, `Q` where a RESET abandons it (R380). -/
def BusRun.Ends {α : Type} (P Q : State → Prop) (r : BusRun α) : Prop :=
  match r with
  | .done _ s => P s
  | .reset s => Q s

/-- What the parts of `instr` keep: `P` speaks of memory, the port and the signals only, a bus read keeps it, and if `instr` is one
of the storing instructions a bus write does too; a RESET in one of these cycles leaves a state with `Q`. -/
structure KeptByCycles (instr : Instr) (P Q : State → Prop) : Prop where
  regs {s t : State} (hs : P s) (hm : t.mem = s.mem := by rfl) (hp : t.port = s.port := by rfl)
    (hg : t.sig = s.sig := by rfl) : P t
  read {s : State} (a : Word) (poll : Bool) : P s → (s.busRead a poll).Ends P Q
  write {s : State} (a : Word) (v : Byte) (poll : Bool) : instr.stores = true → P s → (s.busWrite a v poll).Ends P Q
  pushStatus {s : State} (b : Bool) : instr.stores = true → P s → (s.pushStatusChooseVector b).Ends P Q

section runs
variable {instr : Instr} {P Q : State → Prop} {s : State} {α β : Type}

theorem BusRun.Ends.andThen {r : BusRun α} {f : α → State → BusRun β} (hr : r.Ends P Q)
    (hf : ∀ v t, P t → (f v t).Ends P Q) : (r.andThen f).Ends P Q := by
  cases r with
  | done v t => exact hf v t hr
  | reset t => exact hr

/-- A condition kept however the run ends. -/
theorem BusRun.Keeps.ends {r : BusRun α} (h : r.Keeps P) : r.Ends P P := by
  cases r <;> exact h

variable (h : KeptByCycles instr P Q)
include h

theorem KeptByCycles.push (b : Byte) (poll : Bool) (hw : instr.stores = true) (hs : P s) : (s.push b poll).Ends P Q :=
  (h.write _ b poll hw hs).andThen fun _ _ ht => h.regs ht

theorem KeptByCycles.pull (poll : Bool) (hs : P s) : (s.pull poll).Ends P Q :=
  h.read _ poll (h.regs hs)

/-! ## Operands -/

theorem KeptByCycles.fixHigh (hs : P s) : P s.fixHigh := by
  unfold State.fixHigh
  split_ifs
  · exact h.regs hs
  · exact hs

theorem KeptByCycles.indexed (always : Bool) (idx : Byte) (hs : P s) : (s.indexed always idx).Ends P Q := by
  have hi : P (s.addIndex idx) := h.regs hs
  simp only [State.indexed]
  split_ifs
  · exact (h.read _ _ hi).andThen fun _ _ ht => h.fixHigh ht
  · exact hi

theorem KeptByCycles.readPointer (hs : P s) : s.readPointer.Ends P Q :=
  (h.read _ _ hs).andThen fun _ _ ht => (h.read _ _ (h.regs ht)).andThen fun _ _ hu => h.regs hu

theorem KeptByCycles.zeroPageIndexed (b idx : Byte) (hs : P s) : (s.zeroPageIndexed b idx).Ends P Q :=
  (h.read _ _ (h.regs hs)).andThen fun _ _ ht => h.regs ht

theorem KeptByCycles.resolve (m : Mem) (always : Bool) (hs : P s) : (m.resolve always s).Ends P Q := by
  cases m with
  | zp b | abs w => exact h.regs hs
  | zpx b | zpy b => exact h.zeroPageIndexed b _ hs
  | abx w | aby w => exact h.indexed always _ (h.regs hs)
  | izx b =>
    exact (h.read _ _ (h.regs hs)).andThen fun _ _ ht => h.readPointer (h.regs ht)
  | izy b => exact (h.readPointer (h.regs hs)).andThen fun _ _ ht => h.indexed always _ ht

theorem KeptByCycles.load (m : Mem) (hs : P s) : (m.load s).Ends P Q :=
  (h.resolve m false hs).andThen fun _ _ ht => h.read _ true ht

theorem KeptByCycles.srcLoad (o : Src) (hs : P s) : (o.load s).Ends P Q := by
  cases o with
  | imm b => exact hs
  | mem m => exact h.load m hs

/-! ## Entry and return -/

theorem KeptByCycles.loadVector (vec : Word) (hs : P s) : (s.loadVector vec).Ends P Q :=
  (h.read _ _ hs).andThen fun _ _ ht => (h.read _ _ (h.regs ht)).andThen fun _ _ hu => h.regs hu

theorem KeptByCycles.enter (b : Bool) (hw : instr.stores = true) (hs : P s) : (s.enter b).Ends P Q :=
  (h.push _ _ hw hs).andThen fun _ _ ht => (h.push _ _ hw ht).andThen fun _ _ hu =>
    (h.pushStatus b hw hu).andThen fun vec _ hv => h.loadVector vec hv

theorem KeptByCycles.returnFromInterrupt (hs : P s) : s.returnFromInterrupt.Ends P Q :=
  (h.read _ _ hs).andThen fun _ _ ht => (h.pull _ ht).andThen fun _ _ hu =>
    (h.pull _ (h.regs hu)).andThen fun _ _ hv =>
    (h.pull _ (h.regs hv)).andThen fun _ _ hx => h.regs hx

end runs

/-! ## Outcomes -/

/-- A next state with `P` and with `T` at 0 unless the CPU is jammed; or the end of a reset sequence that began in a state with
`Q`. -/
def EndsIn (P Q : State → Prop) (o : Host.Outcome State Fault Refusal) : Prop :=
  ∃ t, o = .next t ∧ (P t ∧ (t.jam = false → t.t = 0) ∨ ∃ u, Q u ∧ t = u.resetSequence)

section shapes
variable {instr : Instr} {P Q : State → Prop} {s : State} (h : KeptByCycles instr P Q)
include h

theorem KeptByCycles.outcome {α : Type} {r : BusRun α} (hr : r.Ends P Q) : EndsIn P Q r.outcome := by
  cases r with
  | done v t => exact ⟨_, rfl, .inl ⟨h.regs hr, fun _ => rfl⟩⟩
  | reset t => exact ⟨_, rfl, .inr ⟨t, hr, rfl⟩⟩

theorem KeptByCycles.readInstr {load : State → BusRun Byte} {f : Byte → State → State} (hl : (load s).Ends P Q)
    (hf : ∀ v t, P t → P (f v t)) : EndsIn P Q (readInstr load f s) :=
  h.outcome (hl.andThen hf)

theorem KeptByCycles.writeInstr {m : Mem} {b : Byte} (hw : instr.stores = true) (hs : P s) :
    EndsIn P Q (writeInstr m b s) :=
  h.outcome ((h.resolve m true hs).andThen fun _ _ ht => h.write _ b true hw ht)

theorem KeptByCycles.modifyInstr {m : Mem} {f : Flags → Byte → Byte × Flags} {acc : Byte → State → State}
    (hw : instr.stores = true) (hs : P s) (ha : ∀ v t, P t → P (acc v t)) : EndsIn P Q (modifyInstr m f acc s) :=
  h.outcome <| (h.resolve m true hs).andThen fun _ _ ht => (h.read _ _ ht).andThen fun _ _ hu =>
    (h.write _ _ _ hw (h.regs hu)).andThen fun _ _ hv =>
    (h.write _ _ true hw (h.regs hv)).andThen fun _ _ hx => ha _ _ hx

theorem KeptByCycles.impliedInstr {f : State → State} (hs : P s) (hf : ∀ t, P t → P (f t)) :
    EndsIn P Q (impliedInstr f s) :=
  h.outcome ((h.read _ true hs).andThen fun _ t ht => hf t ht)

theorem KeptByCycles.immediateInstr {f : State → State} (hf : P (f s)) : EndsIn P Q (immediateInstr f s) :=
  h.outcome (r := .done () (f s)) hf

theorem KeptByCycles.shiftInstr {f : Flags → Byte → Byte × Flags} {o : Target}
    (hw : ∀ m, o = .mem m → instr.stores = true) (hs : P s) : EndsIn P Q (shiftInstr f o s) := by
  cases o with
  | acc => exact h.impliedInstr hs fun _ ht => h.regs ht
  | mem m => exact h.modifyInstr (hw m rfl) hs fun _ _ ht => ht

theorem KeptByCycles.shStore {m : Mem} {reg : State → Byte} {g : State → State} (hw : instr.stores = true) (hs : P s)
    (hg : ∀ t, P t → P (g t)) : EndsIn P Q (shStore m reg g s) := by
  refine h.outcome ((h.resolve m true hs).andThen fun _ t ht => ?_)
  dsimp only
  split
  · exact h.write _ _ true hw (h.regs (hg t ht))
  · exact h.write _ _ true hw (hg t ht)

theorem KeptByCycles.pushInstr {b : Byte} (hw : instr.stores = true) (hs : P s) : EndsIn P Q (pushInstr b s) :=
  h.outcome ((h.read _ _ hs).andThen fun _ _ ht => h.push b true hw ht)

theorem KeptByCycles.pullInstr {f : Byte → State → State} (hs : P s) (hf : ∀ v t, P t → P (f v t)) :
    EndsIn P Q (pullInstr f s) :=
  h.outcome <| (h.read _ _ hs).andThen fun _ _ ht => (h.read _ _ ht).andThen fun _ _ hu => (h.pull true hu).andThen hf

theorem KeptByCycles.branch {cond : Bool} {off : Byte} (hs : P s) : EndsIn P Q (branch cond off s) := by
  unfold Machine.branch
  split_ifs
  · refine h.outcome ((h.read _ _ hs).andThen fun _ t ht => ?_)
    have hl : P (t.setPC (Word.ofBytes t.pc.hi (s.pc + sext16 off).lo)) := h.regs ht
    dsimp only
    split_ifs
    · exact hl
    · exact (h.read _ true hl).andThen fun _ _ hu => h.regs hu
  · exact h.outcome (r := .done () s) hs

end shapes

/-- Every instruction keeps what its parts keep. -/
theorem exec_endsIn {P Q : State → Prop} (i : Instr) (h : KeptByCycles i P Q) (s : State) (hs : P s) :
    EndsIn P Q (exec i s) := by
  unfold exec
  cases i with
  | lda o | ldx o | ldy o | adc o | sbc o | and o | ora o | eor o | cmp o | cpx o | cpy o =>
    exact h.readInstr (h.srcLoad o hs) fun _ _ ht => h.regs ht
  | bit m | lax m => exact h.readInstr (h.load m hs) fun _ _ ht => h.regs ht
  | nopRead which m => exact h.readInstr (h.load m hs) fun _ _ ht => ht
  | las base => exact h.readInstr (h.load (.aby base) hs) fun _ _ ht => h.regs ht
  | usbc b =>
    exact h.readInstr (h.srcLoad (.imm b) hs) fun _ _ ht => h.regs ht
  | sta m | stx m | sty m | sax m => exact h.writeInstr rfl hs
  | tax | tay | txa | tya | tsx | txs | inx | iny | dex | dey | clc | sec | cli | sei | clv | cld | sed =>
    exact h.impliedInstr hs fun _ ht => h.regs ht
  | nop which => exact h.impliedInstr hs fun _ ht => ht
  | pha | php => exact h.pushInstr rfl hs
  | pla | plp => exact h.pullInstr hs fun _ _ ht => h.regs ht
  | asl o | lsr o | rol o | ror o => exact h.shiftInstr (fun _ ho => ho ▸ rfl) hs
  | inc m | dec m => exact h.modifyInstr rfl hs fun _ _ ht => ht
  | slo m | rla m | sre m | rra m | dcp m | isc m =>
    exact h.modifyInstr rfl hs fun _ _ ht => h.regs ht
  | jmp target | anc which b | alr b | arr b | axs b | ane b | lxa b | nopImm which b =>
    exact h.immediateInstr (h.regs hs)
  | jmpInd pointer =>
    exact h.outcome <| (h.read _ _ (h.regs hs)).andThen fun _ _ ht =>
      (h.read _ _ (h.regs ht)).andThen fun _ _ hu => h.regs hu
  | jsr target =>
    exact h.outcome <| (h.read _ _ (h.regs hs)).andThen fun _ _ ht =>
      (h.push _ _ rfl ht).andThen fun _ _ hu => (h.push _ _ rfl hu).andThen fun _ _ hv =>
      (h.read _ _ hv).andThen fun _ _ hx => h.regs hx
  | rts =>
    exact h.outcome <| (h.read _ _ hs).andThen fun _ _ ht => (h.read _ _ ht).andThen fun _ _ hu =>
      (h.pull _ hu).andThen fun _ _ hv => (h.pull _ (h.regs hv)).andThen fun _ _ hx =>
      (h.read _ _ (h.regs hx)).andThen fun _ _ hy => h.regs hy
  | rti => exact h.outcome <| (h.read _ _ hs).andThen fun _ _ ht => h.returnFromInterrupt ht
  | brk => exact h.outcome <| (h.read _ _ hs).andThen fun _ _ ht => h.enter true rfl (h.regs ht)
  | bpl off | bmi off | bvc off | bvs off | bcc off | bcs off | bne off | beq off => exact h.branch hs
  | sha m => exact h.shStore rfl hs fun _ ht => ht
  | shx base | shy base => exact h.shStore rfl hs fun _ ht => ht
  | tas base => exact h.shStore rfl hs fun _ ht => h.regs ht
  | jam which => exact ⟨_, rfl, .inl ⟨h.regs hs, nofun⟩⟩

/-! ## The invariant -/

/-- Every bus cycle keeps the machine sound, and one that a RESET abandons leaves it sound. -/
theorem keptByCycles_sound (instr : Instr) : KeptByCycles instr State.Sound State.Sound where
  regs := State.Sound.congr
  read a poll hs := (State.busRead_sound _ a poll hs).ends
  write a v poll _ hs := (State.busWrite_sound _ a v poll hs).ends
  pushStatus b _ hs := (State.pushStatus_sound _ b hs).ends

theorem State.resetSequence_inv (s : State) (h : s.Sound) : s.resetSequence.Inv :=
  ⟨s.resetSequence_sound h.mem, fun _ => s.resetFrom_t _⟩

/-- The end of a run that keeps the machine sound meets the invariant, a RESET or not. -/
theorem BusRun.outcome_inv {α : Type} {r : BusRun α} (h : r.Keeps State.Sound) : ∃ t, r.outcome = .next t ∧ t.Inv := by
  obtain ⟨t, ho, hs, hT⟩ := r.outcome_sound h
  exact ⟨t, ho, hs, fun _ => hT⟩

theorem exec_inv (i : Instr) (s : State) (h : s.Sound) : ∃ t, exec i s = .next t ∧ t.Inv := by
  obtain ⟨t, ho, ⟨hs, hT⟩ | ⟨u, hu, rfl⟩⟩ := exec_endsIn i (keptByCycles_sound i) s h
  · exact ⟨t, ho, hs, hT⟩
  · exact ⟨_, ho, u.resetSequence_inv hu⟩

/-- Every step from a sound state ends in one that meets the invariant: a RESET, a jammed cycle, an interrupt, an instruction, and
a RESET inside its fetch (R341, R346, R354). -/
theorem step_inv (s : State) (h : s.Sound) : ∃ t, step s = .next t ∧ t.Inv := by
  have h0 : s.startStep.Sound := h.congr rfl rfl rfl
  have h1 : s.startStep.clearDecision.Sound := ⟨h.mem, h.port, h.sig⟩
  simp only [step]
  split_ifs with hr hj hd
  · exact ⟨_, rfl, s.startStep.resetSequence_inv h0⟩
  · exact ⟨_, rfl, s.startStep.jammedCycle_sound h0, fun hn => absurd (hj.symm.trans hn) nofun⟩
  · exact BusRun.outcome_inv (s.startStep.clearDecision.takeInterrupt_sound h1)
  · have hf := s.startStep.clearDecision.fetch_sound h1
    cases hc : s.startStep.clearDecision.fetch with
    | done i u => rw [hc] at hf; exact exec_inv i u hf
    | reset u => rw [hc] at hf; exact ⟨_, rfl, u.resetSequence_inv hf⟩

/-- Settles O7: the step's one next state is that of `step_inv`. -/
theorem stepKeepsTheInvariant : Obligations.StepKeepsTheInvariant := by
  intro s t h ht
  obtain ⟨u, hu, hi⟩ := step_inv s h.sound
  cases ht.symm.trans hu
  exact hi

/-! ## Instructions that do not store -/

/-- Memory and the port registers are `m` and `p`, and no RESET comes. -/
structure State.Holds (m : Memory) (p : Port) (s : State) : Prop where
  mem     : s.mem = m
  port    : s.port = p
  noReset : s.sig.noReset

/-- With no RESET coming, no cycle is abandoned, and a read changes neither memory nor the port. -/
theorem keptByCycles_holds {instr : Instr} (m : Memory) (p : Port) (hw : instr.stores = false) :
    KeptByCycles instr (State.Holds m p) fun _ => False where
  regs hs hm hp hg := ⟨hm.trans hs.mem, hp.trans hs.port, hg ▸ hs.noReset⟩
  read {s} a poll hs := by
    rw [s.busRead_done a poll hs.noReset]
    exact ⟨(s.afterRead_mem a poll).trans hs.mem, (s.afterRead_port a poll).trans hs.port, s.afterRead_noReset a poll hs.noReset⟩
  write _ _ _ h := absurd (h.symm.trans hw) nofun
  pushStatus _ h := absurd (h.symm.trans hw) nofun

/-- Settles O29: the parts of an instruction that does not store keep memory and the port. -/
theorem onlyStoringInstructionsWriteMemory : Obligations.OnlyStoringInstructionsWriteMemory := by
  intro i s hr hw
  obtain ⟨t, ho, ⟨ht, -⟩ | ⟨u, hu, -⟩⟩ := exec_endsIn i (keptByCycles_holds s.mem s.port hw) s ⟨rfl, rfl, hr⟩
  · exact ⟨t, ho, ht.mem, ht.port⟩
  · exact hu.elim

end Sys2Proof.Machine
end

section
/-! PROOFS. What the platform answers in a bus cycle that RDY does not hold (R61, R66, R78, R80, R82). -/

namespace Sys2Proof.Machine

/-- `SetNZ` (R8) as the sign of the byte and its being zero. -/
theorem Flags.setNZ_eq_withNZ (f : Flags) (v : Byte) : f.setNZ v = f.withNZ v := by
  have hn : v.getLsbD 7 = decide (v.toInt < 0) := by
    rw [← BitVec.msb_eq_toInt, BitVec.msb_eq_getLsbD_last]
  simp only [setNZ, withNZ, hn]
  rfl

/-! ## The window that answers -/

/-- At an address that is not the port's the first window that covers it answers. -/
theorem State.responder_eq_window (s : State) (a : Word) (h0 : a ≠ 0x0000) (h1 : a ≠ 0x0001) :
    s.responder a = (s.platform.windows.find? fun w => w.banks.getLsbD (s.port.configuration s.params) &&
      decide (w.first.toNat ≤ a.toNat ∧ a.toNat ≤ w.last.toNat)).map fun w => w.responder := by
  simp only [responder, h0, h1, or_self, if_false, Platform.responder, Window.covers, Bool.decide_and, Bool.and_assoc]

/-- What answers depends on the windows, the port and the parameters only. -/
theorem State.responder_congr {s t : State} (hw : t.platform.windows = s.platform.windows) (hp : t.port = s.port)
    (hq : t.params = s.params) (a : Word) : t.responder a = s.responder a := by
  simp only [responder, Platform.responder, hw, hp, hq]

theorem State.responder_port (s : State) (a : Word) (h : a = 0x0000 ∨ a = 0x0001) : s.responder a = none := if_pos h

/-- Where no window answers: RAM. -/
theorem State.ram_answers {s : State} {a : Word} (h0 : a ≠ 0x0000) (h1 : a ≠ 0x0001) (h : s.responder a = none) :
    s.spypeek a = s.mem.read a.toNat ∧ s.platformAfterRead a = s.platform ∧ ∀ v, s.pokeMem a v = s.mem.write a.toNat v := by
  simp only [spypeek, byteAt, platformAfterRead, pokeMem, if_neg h0, if_neg h1, if_neg (not_or.mpr ⟨h0, h1⟩), h, implies_true,
    and_self]

/-- A ROM gives its byte; a write goes to the RAM beneath it (R80). -/
theorem State.rom_answers {s : State} {a : Word} {bytes : Memory} (h0 : a ≠ 0x0000) (h1 : a ≠ 0x0001)
    (h : s.responder a = some (.rom bytes)) :
    s.spypeek a = bytes.read a.toNat ∧ s.platformAfterRead a = s.platform ∧ ∀ v, s.pokeMem a v = s.mem.write a.toNat v := by
  simp only [spypeek, byteAt, platformAfterRead, pokeMem, if_neg h0, if_neg h1, if_neg (not_or.mpr ⟨h0, h1⟩), h, implies_true,
    and_self]

/-- A device gives the next of its answers, which is used up; a write leaves no trace in memory. -/
theorem State.device_answers {s : State} {a : Word} (h : s.responder a = some .device) :
    (∀ now, s.byteAt now a = s.platform.answers.headD (Config.openBus now a)) ∧
      s.platformAfterRead a = s.platform.answered ∧ ∀ v, s.pokeMem a v = s.mem := by
  have hn : ¬ (a = 0x0000 ∨ a = 0x0001) := fun k => by
    rw [s.responder_port a k] at h
    exact absurd h nofun
  obtain ⟨h0, h1⟩ := not_or.mp hn
  simp only [byteAt, platformAfterRead, pokeMem, if_neg h0, if_neg h1, if_neg hn, h, implies_true, and_self]

/-! ## Bus cycles that are not held -/

/-- With every line ready, a read is performed in the next cycle (R40). -/
theorem Signals.ready_clock_of_neverHeld (g : Signals) (h : g.neverHeld) : g.ready.clock = g.clock := by
  rw [g.ready_eq_beginNext h, g.beginNext_clock]

/-- The byte of a read is that at its address in the cycle in which it is performed. -/
theorem State.atRead_spypeek (s : State) (a : Word) (poll : Bool) :
    (s.atRead poll).spypeek a = s.byteAt s.sig.ready.clock a := by cases poll <;> rfl

/-- A read that RDY does not hold gives the byte that a debugger sees now (R63). -/
theorem State.busRead_neverHeld (s : State) (a : Word) (poll : Bool) (hr : s.sig.noReset) (hn : s.sig.neverHeld) :
    s.busRead a poll = .done (s.spypeek a) (s.afterRead a poll) := by
  rw [s.busRead_done a poll hr, s.atRead_spypeek, s.sig.ready_clock_of_neverHeld hn]
  rfl

/-- Such a read leaves memory and the port, and takes from the platform what `State.platformAfterRead` says. -/
theorem State.busRead_answer {s : State} {a : Word} (hr : s.sig.noReset) (hn : s.sig.neverHeld) (poll : Bool) :
    ∃ t, s.busRead a poll = .done (s.spypeek a) t ∧ t.platform = s.platformAfterRead a ∧ t.mem = s.mem ∧ t.port = s.port :=
  ⟨_, s.busRead_neverHeld a poll hr hn, s.afterRead_platform a poll, s.afterRead_mem a poll, s.afterRead_port a poll⟩

/-- A write at an address that is not the port's takes nothing from the platform and leaves the port (R61). -/
theorem State.busWrite_answer {s : State} {a : Word} (h0 : a ≠ 0x0000) (h1 : a ≠ 0x0001) (hr : s.sig.noReset) (v : Byte)
    (poll : Bool) :
    ∃ t, s.busWrite a v poll = .done () t ∧ t.platform = s.platform ∧ t.mem = s.pokeMem a v ∧ t.port = s.port :=
  ⟨_, s.busWrite_done a v poll hr, s.afterWrite_platform a v poll, s.afterWrite_mem a v poll,
    (s.afterWrite_port a v poll).trans ((if_neg h0).trans (if_neg h1))⟩

/-! ## LDA from a device -/

/-- LDA from the address that its operand cycles left in `AD`: the byte of the last read, with N and Z of it. -/
theorem exec_lda_resolved {m : Mem} {s u : State} (hu : m.resolve false s = .done () u) (hr : u.sig.noReset) :
    Completes (exec (.lda (.mem m)) s) fun t =>
      t.a = u.byteAt u.sig.ready.clock u.latch.ad ∧ t.p = u.p.withNZ (u.byteAt u.sig.ready.clock u.latch.ad) ∧
      t.platform = u.platformAfterRead u.latch.ad := by
  have he : exec (.lda (.mem m)) s = (((m.resolve false s).andThen fun _ s => s.busRead s.latch.ad true).andThen fun v s =>
      BusRun.done () ((s.setA v).setNZ v)).outcome := rfl
  rw [hu, BusRun.andThen_done, u.busRead_done _ true hr, u.atRead_spypeek, BusRun.andThen_done, BusRun.outcome_done] at he
  exact ⟨_, he, rfl, Flags.setNZ_eq_withNZ _ _, u.afterRead_platform _ true⟩

/-- The operand cycles of an indexed read across a page: one dummy read, in the page of the base address (R110, R297). -/
theorem resolve_abx_of_crossing (s : State) (base : Word) (hr : s.sig.noReset) (hx : base.lo.toNat + s.x.toNat > 255) :
    (Mem.abx base).resolve false s = .done () ((((s.setAD base).addIndex s.x).afterRead
      (Word.ofBytes base.hi (base.lo + s.x)) false).setAD (base + s.x.zeroExtend 16)) := by
  have hc : ((s.setAD base).addIndex s.x).latch.pageCross = true := decide_eq_true hx
  have hfix := fixHigh_addIndex (s.setAD base) s.x
  simp only [State.fixHigh, hc, if_true, State.setAD_ad] at hfix
  simp only [Mem.resolve, State.indexed, hc, Bool.or_true, if_true]
  rw [State.busRead_done ((s.setAD base).addIndex s.x) _ _ hr, BusRun.andThen_done, State.fixHigh, State.afterRead_latch, hc, if_pos rfl, hfix]
  rfl

/-- The low byte of an indexed address is the sum of the low bytes, without the carry. -/
theorem Word.lo_add_zeroExtend (w : Word) (b : Byte) : (w + b.zeroExtend 16).lo = w.lo + b := by
  have hb := b.isLt
  apply BitVec.eq_of_toNat_eq
  rw [Word.toNat_lo, BitVec.toNat_add, BitVec.toNat_add, Word.toNat_lo, BitVec.toNat_setWidth]
  omega

/-- LDA absolute from a device: its next answer. -/
theorem lda_abs_device {s : State} {a : Word} (hr : s.sig.noReset) (hn : s.sig.neverHeld)
    (hd : s.responder a = some .device) :
    Completes (exec (.lda (.mem (.abs a))) s) fun t =>
      t.a = s.platform.answers.headD (Config.openBus s.sig.clock a) ∧
      t.p = s.p.withNZ (s.platform.answers.headD (Config.openBus s.sig.clock a)) ∧
      t.platform.answers = s.platform.answers.tail := by
  obtain ⟨t, ho, ha, hp, hl⟩ := exec_lda_resolved (m := .abs a) (u := s.setAD a) rfl hr
  obtain ⟨hv, hq, -⟩ := State.device_answers (s := s.setAD a) hd
  have hc : (s.setAD a).sig.ready.clock = s.sig.clock := s.sig.ready_clock_of_neverHeld hn
  rw [State.setAD_ad, hv, hc] at ha hp
  rw [State.setAD_ad, hq] at hl
  exact ⟨t, ho, ha, hp, congrArg Platform.answers hl⟩

/-- LDA absolute,X across a page, with a device at both addresses: the dummy read takes the first answer, and the second is
loaded. -/
theorem lda_abx_device_of_crossing {s : State} {base : Word} {first second : Byte} {later : List Byte} (hr : s.sig.noReset)
    (hq : s.platform.answers = first :: second :: later) (hx : base.lo.toNat + s.x.toNat > 255)
    (hd : s.responder (base + s.x.zeroExtend 16) = some .device)
    (hd' : s.responder (Word.ofBytes base.hi (base.lo + s.x)) = some .device) :
    Completes (exec (.lda (.mem (.abx base))) s) fun t =>
      t.a = second ∧ t.p = s.p.withNZ second ∧ t.platform.answers = later := by
  have hu := resolve_abx_of_crossing s base hr hx
  generalize hw : (((s.setAD base).addIndex s.x).afterRead (Word.ofBytes base.hi (base.lo + s.x)) false).setAD
    (base + s.x.zeroExtend 16) = u at hu
  have hplat : u.platform = s.platform.answered := by
    rw [← hw, State.setAD_platform, State.afterRead_platform]
    exact (State.device_answers (s := s) hd').2.1
  have hdev : u.responder u.latch.ad = some .device := by
    have hport : u.port = s.port := by rw [← hw]; simp
    have hpar : u.params = s.params := by rw [← hw]; simp
    have had : u.latch.ad = base + s.x.zeroExtend 16 := by rw [← hw]; rfl
    rw [had, State.responder_congr (by rw [hplat]; rfl) hport hpar]
    exact hd
  have hans : u.platform.answers = second :: later := by rw [hplat, Platform.answered, hq]; rfl
  have hreset : u.sig.noReset := by rw [← hw]; exact State.afterRead_noReset _ _ _ hr
  have hflags : u.p = s.p := by rw [← hw]; simp
  obtain ⟨t, ho, ha, hp, hl⟩ := exec_lda_resolved hu hreset
  obtain ⟨hv, hl', -⟩ := State.device_answers hdev
  rw [hv, hans] at ha hp
  rw [hl'] at hl
  refine ⟨t, ho, ha, hflags ▸ hp, ?_⟩
  rw [hl, Platform.answered, hans]
  rfl

/-- Settles O24: a clause for each of RAM, ROM and device, and the indexed load. -/
theorem platformAnswersTheBus : Obligations.PlatformAnswersTheBus := by
  intro s a hr hn h0 h1 level bank window answer reads writes
  have hw : s.responder a = window.map fun w => w.responder := s.responder_eq_window a h0 h1
  have read (v : Byte) (p : Platform) (hv : s.spypeek a = v) (hp : s.platformAfterRead a = p) : reads v p := by
    subst hv hp
    exact State.busRead_answer hr hn
  have write (m : Byte → Memory) (hm : ∀ v, s.pokeMem a v = m v) (v : Byte) : writes v (m v) := by
    rw [← hm v]
    exact State.busWrite_answer h0 h1 hr v
  refine ⟨fun hwin => ?_, fun w bytes hwin hrom => ?_, fun w hwin hdev => ?_, fun base first second later hq hx ha hd hd' => ?_⟩
  · obtain ⟨hv, hp, hm⟩ := State.ram_answers h0 h1 (hw.trans (by rw [hwin]; rfl))
    exact ⟨read _ _ hv hp, write _ hm⟩
  · obtain ⟨hv, hp, hm⟩ := State.rom_answers h0 h1 (hw.trans (by rw [hwin, ← hrom]; rfl))
    exact ⟨read _ _ hv hp, write _ hm⟩
  · have hd : s.responder a = some .device := hw.trans (by rw [hwin, ← hdev]; rfl)
    obtain ⟨hv, hp, hm⟩ := State.device_answers hd
    exact ⟨read _ _ (hv _) hp, write _ hm, lda_abs_device hr hn hd⟩
  · subst ha
    rw [Word.lo_add_zeroExtend] at hd'
    exact lda_abx_device_of_crossing hr hq hx hd hd'

end Sys2Proof.Machine
end

section
/-! PROOFS. The opcode matrix and the encoder are one table (R100, R117, R127): what an entry of the matrix makes of an operand
is well-formed and encodes to that opcode and operand, and the opcode that the encoder gives is that of an entry which makes
the instruction. Both round trips follow, and with them which opcode values jam (R119). -/

namespace Sys2Proof

/-- The entry makes the instruction of these operand bytes (R100). -/
inductive Entry.Makes : Entry → Instr → List Byte → Prop
  | f1 (i : Instr) : Makes (.f1 i) i []
  | f2 (make : Byte → Instr) (b : Byte) : Makes (.f2 make) (make b) [b]
  | f3 (make : Word → Instr) (w : Word) : Makes (.f3 make) (make w) w.bytes

/-- What the decoder accepts: an opcode, the operand bytes of which its entry makes the instruction, and the bytes left. -/
theorem decode_eq_ok_iff {bytes rest : List Byte} {i : Instr} :
    decode bytes = .ok (i, rest) ↔
      ∃ op operand, (Opcode.entry op).Makes i operand ∧ bytes = op :: operand ++ rest := by
  constructor
  · intro h
    unfold decode at h
    split at h
    · cases h
    next op tail =>
      split at h
      next j tail he => cases h; exact ⟨op, [], he ▸ .f1 i, rfl⟩
      next make b1 tail he => cases h; exact ⟨op, [b1], he ▸ .f2 make b1, rfl⟩
      next make b1 b2 tail he =>
        cases h
        exact ⟨op, (Word.ofBytes b2 b1).bytes, he ▸ .f3 make _, by simp [Word.bytes]⟩
      · cases h
  · rintro ⟨op, operand, h, rfl⟩
    generalize he : Opcode.entry op = e at h
    cases h with
    | f1 i => simp [decode, he]
    | f2 make b => simp [decode, he]
    | f3 make w => simp [decode, he, Word.bytes]

/-! ## From the matrix to the encoder -/

/-- Every instruction that the entry makes is well-formed, and is encoded as the opcode and the operand bytes. -/
def Entry.Encodes (e : Entry) (op : Byte) : Prop :=
  ∀ i operand, e.Makes i operand → WellFormed i ∧ encode i = op :: operand

theorem Entry.f1_encodes {op : Byte} {i : Instr} : (Entry.f1 i).Encodes op ↔ WellFormed i ∧ encode i = [op] :=
  ⟨fun h => h _ _ (.f1 i), fun h _ _ m => by cases m; exact h⟩

theorem Entry.f2_encodes {op : Byte} {make : Byte → Instr} :
    (Entry.f2 make).Encodes op ↔ ∀ b, WellFormed (make b) ∧ encode (make b) = [op, b] :=
  ⟨fun h b => h _ _ (.f2 make b), fun h _ _ m => by cases m; exact h _⟩

theorem Entry.f3_encodes {op : Byte} {make : Word → Instr} :
    (Entry.f3 make).Encodes op ↔ ∀ w, WellFormed (make w) ∧ encode (make w) = op :: w.bytes :=
  ⟨fun h w => h _ _ (.f3 make w), fun h _ _ m => by cases m; exact h _⟩

/-- The walk through the 256 entries, row by row (R117). -/
theorem Opcode.matrix_encodes : ∀ p ∈ Opcode.matrix.zipIdx, p.1.Encodes (BitVec.ofNat 8 p.2) := by
  simp only [Opcode.matrix, List.zipIdx_append, List.forall_mem_append, List.length_append]
  simp only [row0, row1, row2, row3, row4, row5, row6, row7, row8, row9, rowA, rowB, rowC, rowD, rowE, rowF,
    List.zipIdx_cons, List.zipIdx_nil, List.length_cons, List.length_nil, Nat.reduceAdd, List.forall_mem_cons, List.not_mem_nil,
    false_imp_iff, implies_true, and_true]
  simp [Entry.srcImm, Entry.src, Entry.srcW, Entry.tgt, Entry.tgtW, Entry.mem, Entry.memW, Entry.imm, Entry.rel,
    Entry.f1_encodes, Entry.f2_encodes, Entry.f3_encodes, WellFormed, Instr.wellFormed, Src.mode, Target.mode, Mem.mode,
    Mode.accumulatorRead, Mode.accumulatorWrite, Mode.modify, Mode.modifyUndocumented, Mode.nopReadCount,
    encode, Instr.opcode, MemCodes.src, MemCodes.target, MemCodes.at,
    Instr.operandBytes, Src.bytes, Target.bytes, Mem.bytes]

theorem Opcode.entry_encodes (op : Byte) : (Opcode.entry op).Encodes op := by
  have h : op.toNat < Opcode.matrix.length := by rw [Opcode.matrix_length]; exact op.isLt
  have hp := matrix_encodes _ (List.mk_mem_zipIdx_iff_getElem?.2 (List.getElem?_eq_getElem h))
  rw [Opcode.entry, List.getD_eq_getElem _ _ h]
  simpa using hp

/-- Settles O2: the bytes are an opcode, the operand bytes of which its entry makes the instruction, and the rest. -/
theorem decodedBytesAreTheEncoding : Obligations.DecodedBytesAreTheEncoding := by
  intro bytes i rest h
  obtain ⟨op, operand, made, rfl⟩ := decode_eq_ok_iff.1 h
  obtain ⟨wf, enc⟩ := Opcode.entry_encodes op i operand made
  exact ⟨wf, by rw [enc]⟩

/-! ## From the encoder to the matrix -/

/-- The encoding of a well-formed instruction starts with an opcode whose entry makes the instruction of the operand bytes.
Of a form that an instruction does not have, the hypothesis is `false = true`, which `cases h` closes. -/
theorem encode_made {i : Instr} (h : WellFormed i) :
    ∃ op, encode i = op :: i.operandBytes ∧ (Opcode.entry op).Makes i i.operandBytes := by
  cases i with
  | lda o | ldx o | ldy o | adc o | sbc o | and o | ora o | eor o | cmp o | cpx o | cpy o =>
    cases o with
    | imm b => exact ⟨_, rfl, .f2 _ b⟩
    | mem m =>
      cases m with
      | zp b | zpx b | zpy b | izx b | izy b => cases h <;> exact ⟨_, rfl, .f2 _ b⟩
      | abs w | abx w | aby w => cases h <;> exact ⟨_, rfl, .f3 _ w⟩
  | sta m | stx m | sty m | bit m | inc m | dec m | slo m | rla m | sre m | rra m | dcp m | isc m | sax m | lax m | sha m =>
    cases m with
    | zp b | zpx b | zpy b | izx b | izy b => cases h <;> exact ⟨_, rfl, .f2 _ b⟩
    | abs w | abx w | aby w => cases h <;> exact ⟨_, rfl, .f3 _ w⟩
  | asl t | lsr t | rol t | ror t =>
    cases t with
    | acc => exact ⟨_, rfl, .f1 _⟩
    | mem m =>
      cases m with
      | zp b | zpx b | zpy b | izx b | izy b => cases h <;> exact ⟨_, rfl, .f2 _ b⟩
      | abs w | abx w | aby w => cases h <;> exact ⟨_, rfl, .f3 _ w⟩
  | nopRead k m =>
    cases m with
    | zp b | zpx b | zpy b | izx b | izy b => fin_cases k <;> cases h <;> exact ⟨_, rfl, .f2 _ b⟩
    | abs w | abx w | aby w => fin_cases k <;> cases h <;> exact ⟨_, rfl, .f3 _ w⟩
  | anc k b | nopImm k b => fin_cases k <;> exact ⟨_, rfl, .f2 _ b⟩
  | nop k | jam k => fin_cases k <;> exact ⟨_, rfl, .f1 _⟩
  | alr b | arr b | axs b | usbc b | ane b | lxa b | bpl b | bmi b | bvc b | bvs b | bcc b | bcs b | bne b | beq b =>
    exact ⟨_, rfl, .f2 _ b⟩
  | jmp w | jmpInd w | jsr w | las w | shx w | shy w | tas w => exact ⟨_, rfl, .f3 _ w⟩
  | _ => exact ⟨_, rfl, .f1 _⟩

/-- Settles O1: the entry of the opcode that the encoder gives makes the instruction again. -/
theorem decodeOfEncodeIsTheInstruction : Obligations.DecodeOfEncodeIsTheInstruction := by
  intro i rest h
  obtain ⟨op, enc, made⟩ := encode_made h
  exact decode_eq_ok_iff.2 ⟨op, i.operandBytes, made, by rw [enc]⟩

/-! ## Every opcode value -/

/-- Three bytes always decode: no instruction is longer (R100, R119). -/
theorem decode_three_bytes (op b1 b2 : Byte) : ∃ rest, decode [op, b1, b2] = .ok (Opcode.instr op b1 b2, rest) := by
  cases he : Opcode.entry op <;> simp [decode, Opcode.instr, he]

/-- The opcode values of R119, in the order of JAM's index. -/
def Opcode.jams : List Byte := [0x02, 0x12, 0x22, 0x32, 0x42, 0x52, 0x62, 0x72, 0x92, 0xB2, 0xD2, 0xF2]

theorem encode_jam (k : Fin 12) : encode (.jam k) = [Opcode.jams[k]] := by
  fin_cases k <;> rfl

theorem Opcode.instr_eq_jam_iff {op b1 b2 : Byte} {k : Fin 12} : Opcode.instr op b1 b2 = .jam k ↔ op = Opcode.jams[k] := by
  constructor
  · intro h
    obtain ⟨rest, hd⟩ := decode_three_bytes op b1 b2
    obtain ⟨-, enc⟩ := decodedBytesAreTheEncoding _ _ _ hd
    rw [h, encode_jam] at enc
    exact (List.cons.inj enc).1
  · rintro rfl
    have hd := decodeOfEncodeIsTheInstruction (.jam k) [b1, b2] rfl
    rw [encode_jam] at hd
    exact (decode_three hd).symm

/-- Settles O3: the encodings of the twelve JAMs are the opcode values of R119. -/
theorem everyOpcodeDecodesAndTwelveJam : Obligations.EveryOpcodeDecodesAndTwelveJam := by
  intro op b1 b2
  refine ⟨⟨_, decode_three_bytes op b1 b2⟩, ?_⟩
  constructor
  · rintro ⟨k, hk⟩
    rw [Opcode.instr_eq_jam_iff.1 hk]
    exact List.getElem_mem k.isLt
  · intro h
    obtain ⟨k, hk, rfl⟩ := List.mem_iff_getElem.1 h
    exact ⟨⟨k, hk⟩, Opcode.instr_eq_jam_iff.2 rfl⟩

end Sys2Proof
end

section
/-! PROOFS. The effective address of each mode as a number (R106 to R111, R113, R114). -/

namespace Sys2Proof.Machine

theorem toNat_zeroPage (b : Byte) : (zeroPage b).toNat = b.toNat := by
  simp [zeroPage, Word.toNat_ofBytes]

theorem zeroPage_eq (b : Byte) : zeroPage b = BitVec.ofNat 16 b.toNat :=
  BitVec.eq_of_toNat_eq (by have := b.isLt; rw [toNat_zeroPage, BitVec.toNat_ofNat]; omega)

/-- Indexing wraps at the top of memory (R110, R111, R114). -/
theorem toNat_add_index (w : Word) (i : Byte) : (w + i.zeroExtend 16).toNat = (w.toNat + i.toNat) % 65536 := by
  simp

/-- Settles O5: bytes wrap at 256 and stay in page zero, an indexed address wraps at 65536, and a pointer is two bytes. -/
theorem effectiveAddresses : Obligations.EffectiveAddresses := by
  intro s b w
  have sum (u v : Byte) : (u + v).toNat = (u.toNat + v.toNat) % 256 := BitVec.toNat_add u v
  have next (v : Byte) : (v + 1).toNat = (v.toNat + 1) % 256 := sum v 1
  refine ⟨toNat_zeroPage b, ?_, ?_, rfl, toNat_add_index w s.x, toNat_add_index w s.y, ?_, ?_⟩
  · rw [Mem.ea, toNat_zeroPage, sum]
  · rw [Mem.ea, toNat_zeroPage, sum]
  · rw [Mem.ea, Word.toNat_ofBytes, zeroPage_eq, zeroPage_eq, next, sum, Nat.mod_add_mod]
    omega
  · rw [Mem.ea, toNat_add_index, Word.toNat_ofBytes, zeroPage_eq, zeroPage_eq, next]
    omega

end Sys2Proof.Machine
end

section
/-! PROOFS. Loads, stores and transfers (40_load_store_transfer.md; R255, R256): the updates of registers that they end in, and
through the shapes of instruction the whole statements; and words written out that decode to their instructions. -/

namespace Sys2Proof.Machine

/-! ## What an update of registers leaves of the rest, and what the registers hold after it -/

section updates
variable {s t : State}

theorem RegsOnly.setA (h : RegsOnly s t) (v : Byte) : RegsOnly s (t.setA v) := { h with }
theorem RegsOnly.setX (h : RegsOnly s t) (v : Byte) : RegsOnly s (t.setX v) := { h with }
theorem RegsOnly.setY (h : RegsOnly s t) (v : Byte) : RegsOnly s (t.setY v) := { h with }
theorem RegsOnly.setSP (h : RegsOnly s t) (v : Byte) : RegsOnly s (t.setSP v) := { h with }
theorem RegsOnly.setNZ (h : RegsOnly s t) (v : Byte) : RegsOnly s (t.setNZ v) := { h with }

end updates

section registers
variable (s : State) (v : Byte)

@[simp] theorem State.setA_regs : (s.setA v).regs = { s.regs with a := v } := rfl
@[simp] theorem State.setX_regs : (s.setX v).regs = { s.regs with x := v } := rfl
@[simp] theorem State.setY_regs : (s.setY v).regs = { s.regs with y := v } := rfl
@[simp] theorem State.setSP_regs : (s.setSP v).regs = { s.regs with sp := v } := rfl
@[simp] theorem State.setNZ_regs : (s.setNZ v).regs = { s.regs with p := s.p.withNZ v } := by
  rw [← Flags.setNZ_eq_withNZ]
  rfl

end registers

/-! ## The obligations -/

/-- Settles O30: a load is a read instruction that writes the operand to its registers and then sets N and Z of it. -/
theorem loadsLoadTheOperand : Obligations.LoadsLoadTheOperand := by
  intro s hs
  refine ⟨fun o => ?lda, fun o => ?ldx, fun o => ?ldy, fun m => ?lax⟩
  case lda => exact .of_read rfl hs (fun v t => ((RegsOnly.refl t).setA v).setNZ v) fun t ht => by simp [ht.regs, ht.p]
  case ldx => exact .of_read rfl hs (fun v t => ((RegsOnly.refl t).setX v).setNZ v) fun t ht => by simp [ht.regs, ht.p]
  case ldy => exact .of_read rfl hs (fun v t => ((RegsOnly.refl t).setY v).setNZ v) fun t ht => by simp [ht.regs, ht.p]
  case lax =>
    exact .of_readMem rfl hs (fun v t => (((RegsOnly.refl t).setA v).setX v).setNZ v) fun t ht => by simp [ht.regs, ht.p]

/-- Settles O31: each of the four is a write instruction, of its register or of `A & X`. -/
theorem storesStoreTheRegister : Obligations.StoresStoreTheRegister := by
  intro s hs hw m
  exact ⟨.of_write rfl hs hw, .of_write rfl hs hw, .of_write rfl hs hw, .of_write rfl hs hw⟩

/-- Settles O32: a transfer is an implied instruction that copies a register and then sets N and Z of it; TXS only copies. -/
theorem transfersCopyTheRegister : Obligations.TransfersCopyTheRegister := by
  refine ⟨⟨rfl, rfl, rfl, rfl, rfl, rfl⟩, fun s hs => ⟨?tax, ?tay, ?txa, ?tya, ?tsx, ?txs⟩⟩
  case tax => exact .of_implied rfl hs (fun t => ((RegsOnly.refl t).setX _).setNZ _) fun t ht => by simp [ht.regs, ht.a, ht.p]
  case tay => exact .of_implied rfl hs (fun t => ((RegsOnly.refl t).setY _).setNZ _) fun t ht => by simp [ht.regs, ht.a, ht.p]
  case txa => exact .of_implied rfl hs (fun t => ((RegsOnly.refl t).setA _).setNZ _) fun t ht => by simp [ht.regs, ht.x, ht.p]
  case tya => exact .of_implied rfl hs (fun t => ((RegsOnly.refl t).setA _).setNZ _) fun t ht => by simp [ht.regs, ht.y, ht.p]
  case tsx => exact .of_implied rfl hs (fun t => ((RegsOnly.refl t).setX _).setNZ _) fun t ht => by simp [ht.regs, ht.sp, ht.p]
  case txs => exact .of_implied rfl hs (fun t => (RegsOnly.refl t).setSP _) fun t ht => by simp [ht.regs, ht.x]

/-- Settles O4: fixed words, on which the decoder is run. -/
theorem sampleWordsDecode : Obligations.SampleWordsDecode :=
  ⟨rfl, rfl, rfl, rfl, rfl, rfl, rfl, rfl, rfl, rfl, rfl, rfl, rfl⟩

end Sys2Proof.Machine
end

section
/-! PROOFS. The stack instructions (41_stack.md): one lemma for the two pushes, one for the two pulls. -/

namespace Sys2Proof.Machine

/-! ## Pushes (R304) -/

/-- One stack byte written and all others kept is a store: the stack is not the port (R24). -/
theorem MovedBut.storedByte {s t : State} {sp v : Byte} (h : MovedBut [stackByte sp] s t) (hv : t.spypeek (stackByte sp) = v) :
    StoredByte s t (stackByte sp) v where
  memory _ _ := ⟨hv, h.bytes, h.port⟩
  ddr h0 := absurd h0 (stackByte_ne_low sp 0 (by omega))
  data h1 := absurd h1 (stackByte_ne_low sp 1 (by omega))

theorem RunsStoring.of_push {i : Instr} {s : State} {v : Byte} (hi : exec i s = pushInstr v s) (hs : s.Calm)
    (hw : s.mem.wf = true) : RunsStoring i s (stackByte s.sp) v { s.regs with sp := s.sp - 1 } := by
  obtain ⟨t, ht, hst, -⟩ := s.busRead_calm s.pc false hs
  obtain ⟨u, hu, htu, hsp, hv, -⟩ := t.push_calm v true hst.calm (hst.mem ▸ hw)
  rw [hst.sp] at htu hsp hv
  have hsu : MovedBut [stackByte s.sp] s u := ((hst.moved hs hw).mono (by simp)).trans htu
  have he : exec i s = .next (u.setT 0) := by
    simp only [hi, pushInstr, ht, hu, BusRun.andThen_done, BusRun.outcome_done]
  obtain ⟨memory, ddr, data⟩ := hsu.storedByte hv
  refine ⟨_, he, ?_, ⟨memory, ddr, data⟩, hsu.ir, hsu.jam, hsu.params, hsu.platform, rfl⟩
  simp [State.regs, hsu.a, hsu.x, hsu.y, hsp, hsu.pc, hsu.p]

/-- Settles O34: both are pushes, of `A` and of the image of `P`. -/
theorem pushesStoreBelowTheStack : Obligations.PushesStoreBelowTheStack :=
  fun _ hs hw => ⟨.of_push rfl hs hw, .of_push rfl hs hw⟩

/-! ## Pulls (R305) -/

theorem RegsOnly.setP {s t : State} (h : RegsOnly s t) (f : Flags) : RegsOnly s (t.setP f) := { h with }

@[simp] theorem State.setP_regs (s : State) (f : Flags) : (s.setP f).regs = { s.regs with p := f } := rfl

/-- What a pull instruction gives in calm: its operation on the byte above the stack, in a state that differs from `s` in `SP`,
latches and signals only. -/
theorem pullInstr_calm (f : Byte → State → State) (s : State) (h : s.Calm) :
    ∃ t, SameCpu (s.setSP (s.sp + 1)) t ∧
      pullInstr f s = .next ((f (s.spypeek (stackByte (s.sp + 1))) t).setT 0) := by
  obtain ⟨t, ht, hst, -⟩ := s.busRead_calm s.pc false h
  obtain ⟨u, hu, htu, -⟩ := t.busRead_calm t.stackAddr false hst.calm
  obtain ⟨w, hw, huw, -⟩ := u.pull_calm true htu.calm
  have hsu : SameCpu s u := hst.trans htu
  rw [hsu.sp, hsu.spypeek h] at hw
  rw [hsu.sp] at huw
  have hset : SameCpu (s.setSP (s.sp + 1)) (u.setSP (s.sp + 1)) :=
    { hsu with sp := rfl, calm := ⟨hsu.calm.noReset, hsu.calm.settled, hsu.calm.flat⟩ }
  exact ⟨w, hset.trans huw, by simp only [pullInstr, ht, hu, hw, BusRun.andThen_done, BusRun.outcome_done]⟩

theorem RunsTo.of_pull {i : Instr} {s : State} {f : Byte → State → State} {r : Registers} (hi : exec i s = pullInstr f s)
    (hs : s.Calm) (hf : ∀ v t, RegsOnly t (f v t))
    (hr : ∀ t, SameCpu (s.setSP (s.sp + 1)) t → (f (s.spypeek (stackByte (s.sp + 1))) t).regs = r) : RunsTo i s r := by
  obtain ⟨t, ht, he⟩ := pullInstr_calm f s hs
  have hset : (s.setSP (s.sp + 1)).Calm := ⟨hs.noReset, hs.settled, hs.flat⟩
  obtain ⟨⟨bytes, mem, port⟩, ⟨ir, jam, params, platform, hT⟩⟩ := RegsOnly.nothingStored hset ht (hf _ _)
  exact ⟨_, hi.trans he, hr t ht, ⟨bytes, mem, port⟩, ir, jam, params, platform, hT⟩

/-- Settles O35: both are pulls; PLA writes the byte to `A` and then sets N and Z of it, PLP takes the flags from it. -/
theorem pullsLoadAboveTheStack : Obligations.PullsLoadAboveTheStack := by
  intro s hs
  constructor
  case left => exact .of_pull rfl hs (fun v t => ((RegsOnly.refl t).setA v).setNZ v) fun t ht => by simp [ht.regs, ht.p]
  case right => exact .of_pull rfl hs (fun v t => (RegsOnly.refl t).setP _) fun t ht => by simp [ht.regs]

end Sys2Proof.Machine
end

section
/-! PROOFS. The ALU on values (R170 to R174, R182, R183): its flags as conditions on numbers, subtraction as addition of the
complement, and the two decimal operations digit by digit. -/

namespace Sys2Proof.Machine

/-! ## The sign of a byte and signed overflow -/

theorem getLsbD_seven_eq_toInt_neg (v : Byte) : v.getLsbD 7 = decide (v.toInt < 0) := v.msb_eq_toInt

theorem getLsbD_seven_iff (v : Byte) : v.getLsbD 7 = true ↔ 128 ≤ v.toNat := by
  have h : v.getLsbD 7 = decide (128 ≤ v.toNat) := v.msb_eq_decide
  rw [h, decide_eq_true_iff]

theorem toInt_eq_toNat_sub (v : Byte) : v.toInt = if 128 ≤ v.toNat then (v.toNat : Int) - 256 else v.toNat := by
  rw [v.toInt_eq_toNat_cond]
  split <;> split <;> omega

/-- Masking with $80 tests bit 7. -/
theorem and_sign_ne_zero (v : Byte) : ((v &&& 0x80) != 0) = v.getLsbD 7 := by
  have h : v &&& 0x80 = if v.getLsbD 7 then 0x80 else 0 := v.and_twoPow 7
  rw [h]
  cases v.getLsbD 7 <;> rfl

/-- Signed overflow of an addition (R171): operands of equal sign, the result of the other. -/
theorem addOverflow_iff (a m r : Byte) :
    addOverflow a m r = true ↔ (128 ≤ a.toNat ↔ 128 ≤ m.toNat) ∧ ¬(128 ≤ a.toNat ↔ 128 ≤ r.toNat) := by
  rw [addOverflow, and_sign_ne_zero, ← getLsbD_seven_iff a, ← getLsbD_seven_iff m, ← getLsbD_seven_iff r]
  simp only [BitVec.getLsbD_and, BitVec.getLsbD_not, BitVec.getLsbD_xor]
  cases a.getLsbD 7 <;> cases m.getLsbD 7 <;> simp

/-! ## Binary addition and subtraction -/

theorem addBinary_toNat (a m : Byte) (c : Bool) :
    (addBinary a m c).val.toNat = (a.toNat + m.toNat + c.toNat) % 256 := BitVec.toNat_ofNat _ 8

theorem addBinary_c_iff (a m : Byte) (c : Bool) : (addBinary a m c).c = true ↔ a.toNat + m.toNat + c.toNat > 255 :=
  decide_eq_true_iff

theorem addBinary_n_iff (a m : Byte) (c : Bool) : (addBinary a m c).n = true ↔ (addBinary a m c).val.toInt < 0 := by
  have hn : (addBinary a m c).n = decide ((addBinary a m c).val.toInt < 0) := getLsbD_seven_eq_toInt_neg _
  rw [hn, decide_eq_true_iff]

theorem addBinary_z_iff (a m : Byte) (c : Bool) : (addBinary a m c).z = true ↔ (addBinary a m c).val = 0 := beq_iff_eq

/-- V of an addition says that the signed sum does not fit into a byte (R171). -/
theorem addBinary_v_iff (a m : Byte) (c : Bool) :
    (addBinary a m c).v = true ↔ a.toInt + m.toInt + c.toNat < -128 ∨ a.toInt + m.toInt + c.toNat > 127 := by
  have hv : (addBinary a m c).v = addOverflow a m (addBinary a m c).val := rfl
  have ha := a.isLt
  have hm := m.isLt
  have hc := c.toNat_le
  rw [hv, addOverflow_iff, addBinary_toNat, toInt_eq_toNat_sub, toInt_eq_toNat_sub]
  split <;> split <;> omega

theorem toNat_not_byte (m : Byte) : (~~~m).toNat = 255 - m.toNat := BitVec.toNat_not

theorem toInt_not_byte (m : Byte) : (~~~m).toInt = -m.toInt - 1 := by
  have hm := m.isLt
  rw [toInt_eq_toNat_sub, toInt_eq_toNat_sub, toNat_not_byte]
  split <;> split <;> omega

theorem subOverflow_eq_addOverflow_not (a m r : Byte) : subOverflow a m r = addOverflow a (~~~m) r := by
  rw [subOverflow, addOverflow, BitVec.not_xor_right, BitVec.not_not]

/-- The exact difference is the exact sum with the complement, less 256 (R183). -/
theorem difference_eq_sum_not (a m : Byte) (c : Bool) :
    difference a m c = ((a.toNat + (~~~m).toNat + c.toNat : Nat) : Int) - 256 := by
  have hm := m.isLt
  rw [difference, toNat_not_byte]
  omega

/-- R183: binary subtraction is addition of the complement. -/
theorem subBinary_eq_addBinary_not (a m : Byte) (c : Bool) : subBinary a m c = addBinary a (~~~m) c := by
  have hr : BitVec.ofInt 8 (difference a m c) = BitVec.ofNat 8 (a.toNat + (~~~m).toNat + c.toNat) := by
    apply BitVec.eq_of_toNat_eq
    rw [difference_eq_sum_not, BitVec.toNat_ofInt, BitVec.toNat_ofNat]
    omega
  have hc : (difference a m c ≥ 0) = (a.toNat + (~~~m).toNat + c.toNat > 0xFF) := by
    rw [difference_eq_sum_not]
    exact propext (by omega)
  simp only [subBinary, addBinary, hr, hc, subOverflow_eq_addOverflow_not]

/-- Settles O37: the addition by its lemmas, the subtraction as the addition of the complement. -/
theorem binaryAluIsSignedAndUnsignedArithmetic : Obligations.BinaryAluIsSignedAndUnsignedArithmetic := by
  intro a m c
  have hm := m.isLt
  have hc := c.toNat_le
  refine ⟨addBinary_toNat a m c, addBinary_c_iff a m c, addBinary_v_iff a m c, addBinary_n_iff a m c, addBinary_z_iff a m c, ?_⟩
  rw [subBinary_eq_addBinary_not]
  refine ⟨?_, ?_, ?_, addBinary_n_iff a _ c, addBinary_z_iff a _ c⟩
  · rw [addBinary_toNat, toNat_not_byte]
    omega
  · rw [addBinary_c_iff, toNat_not_byte]
    omega
  · rw [addBinary_v_iff, toInt_not_byte]
    omega

/-! ## Decimal addition and subtraction -/

/-- The sum of a decimal addition before its high digit is corrected (R172). -/
def decimalSum (a m : Byte) (c : Bool) : Nat := highDigit a + highDigit m + decimalAddLow a m c

theorem addDecimal_toNat (a m : Byte) (c : Bool) : (addDecimal a m c).val.toNat =
    (if decimalSum a m c ≥ 160 then decimalSum a m c + 96 else decimalSum a m c) % 256 := BitVec.toNat_ofNat _ 8

theorem addDecimal_c_iff (a m : Byte) (c : Bool) : (addDecimal a m c).c = true ↔ decimalSum a m c ≥ 160 := by
  have h : (addDecimal a m c).c = true ↔
      (if decimalSum a m c ≥ 160 then decimalSum a m c + 96 else decimalSum a m c) ≥ 256 := decide_eq_true_iff
  rw [h]
  split <;> omega

theorem addDecimal_n_iff (a m : Byte) (c : Bool) : (addDecimal a m c).n = true ↔ decimalSum a m c % 256 ≥ 128 := by
  have h : (addDecimal a m c).n = (BitVec.ofNat 8 (decimalSum a m c)).getLsbD 7 :=
    (BitVec.getLsbD_ofNat 8 (decimalSum a m c) 7).symm
  rw [h, getLsbD_seven_iff, BitVec.toNat_ofNat]

theorem addDecimal_v_iff (a m : Byte) (c : Bool) : (addDecimal a m c).v = true ↔
    (a.toNat ≥ 128 ↔ m.toNat ≥ 128) ∧ ¬(a.toNat ≥ 128 ↔ decimalSum a m c % 256 ≥ 128) := by
  have h := addOverflow_iff a m (BitVec.ofNat 8 (decimalSum a m c))
  rw [BitVec.toNat_ofNat] at h
  exact h

theorem addDecimal_z (a m : Byte) (c : Bool) : (addDecimal a m c).z = (addBinary a m c).z := by
  rw [Bool.eq_iff_iff, addBinary_z_iff, ← BitVec.toNat_inj, addBinary_toNat]
  exact beq_iff_eq

/-- A digit of a decimal subtraction (R174): a difference that needed a borrow is corrected by six. -/
def subDigit (d : Int) : Int := (if d < 0 then d - 6 else d) % 16

/-- The difference of the low digits. -/
def lowDifference (a m : Byte) (c : Bool) : Int := a.toNat % 16 - m.toNat % 16 - (1 - c.toNat)

/-- The difference of the high digits, less the borrow of the low ones. -/
def highDifference (a m : Byte) (c : Bool) : Int :=
  a.toNat / 16 - m.toNat / 16 - if lowDifference a m c < 0 then 1 else 0

/-- The low digit with its borrow from the high one. -/
theorem decimalSubLow_eq (a m : Byte) (c : Bool) : decimalSubLow a m c =
    subDigit (lowDifference a m c) - if lowDifference a m c < 0 then 16 else 0 := by
  have h : ((a.toNat % 16 : Nat) : Int) - (m.toNat % 16 : Nat) + c.toNat - 1 = lowDifference a m c := by
    rw [lowDifference]
    omega
  have hl : lowDifference a m c < 16 := by
    have hc := c.toNat_le
    rw [lowDifference]
    omega
  simp only [decimalSubLow, subDigit, h]
  split <;> omega

/-- A decimal subtraction digit by digit (R174). -/
theorem subDecimal_toNat (a m : Byte) (c : Bool) : ((subDecimal a m c).val.toNat : Int) =
    16 * subDigit (highDifference a m c) + subDigit (lowDifference a m c) := by
  have hlow : 0 ≤ subDigit (lowDifference a m c) ∧ subDigit (lowDifference a m c) < 16 := by
    rw [subDigit]
    omega
  have hr : (highDigit a : Int) - highDigit m + decimalSubLow a m c =
      16 * highDifference a m c + subDigit (lowDifference a m c) := by
    rw [decimalSubLow_eq, highDifference, highDigit, highDigit]
    split <;> omega
  simp only [subDecimal, hr, BitVec.toNat_ofInt]
  generalize subDigit (lowDifference a m c) = low at hlow
  rw [subDigit]
  split <;> split <;> omega

/-- Settles O39: the addition and the subtraction by their lemmas, whose names for the sum and the digits stand for the terms
of the statement. -/
theorem decimalModeByteAndFlags : Obligations.DecimalModeByteAndFlags :=
  fun a m c => ⟨addDecimal_toNat a m c, subDecimal_toNat a m c, addDecimal_z a m c, addDecimal_n_iff a m c,
    addDecimal_v_iff a m c, addDecimal_c_iff a m c, rfl, rfl, rfl, rfl⟩

/-! ## Comparison, and valid BCD operands -/

theorem subBinary_carry_val (r m : Byte) : (subBinary r m true).val = r - m := by
  have hr := r.isLt
  have hm := m.isLt
  apply BitVec.eq_of_toNat_eq
  rw [subBinary_eq_addBinary_not, addBinary_toNat, toNat_not_byte, BitVec.toNat_sub, Bool.toNat_true]
  omega

/-- R183: a comparison gives the C, Z, N of a subtraction with carry-in 1. -/
theorem compare_eq_subBinary (f : Flags) (r m : Byte) : (f.compare r m).c = (subBinary r m true).c ∧
    (f.compare r m).z = (subBinary r m true).z ∧ (f.compare r m).n = (subBinary r m true).n := by
  have hz : (subBinary r m true).z = (r - m == 0) := congrArg (· == 0) (subBinary_carry_val r m)
  have hn : (subBinary r m true).n = (r - m).getLsbD 7 := congrArg (BitVec.getLsbD · 7) (subBinary_carry_val r m)
  refine ⟨?_, ?_, hn.symm⟩
  · simp [Flags.compare, subBinary, difference]
  · rw [hz, Flags.compare, Bool.eq_iff_iff, beq_iff_eq, beq_iff_eq, sub_eq_zero]

theorem bcd_toNat {n : Nat} (h : n < 100) : (bcd n).toNat = n / 10 * 16 + n % 10 := by
  rw [bcd, BitVec.toNat_ofNat]
  omega

/-- The sum of valid BCD operands before the correction of its high digit: the low digit is correct, the high one may be 10 or
more. -/
theorem decimalSum_bcd {a b : Nat} (c : Bool) (ha : a < 100) (hb : b < 100) :
    decimalSum (bcd a) (bcd b) c = (a + b + c.toNat) / 10 * 16 + (a + b + c.toNat) % 10 := by
  have hc := c.toNat_le
  rw [decimalSum, decimalAddLow, highDigit, highDigit, bcd_toNat ha, bcd_toNat hb]
  split <;> omega

/-- R183: decimal addition of valid BCD operands. -/
theorem addDecimal_bcd {a b : Nat} (c : Bool) (ha : a < 100) (hb : b < 100) :
    (addDecimal (bcd a) (bcd b) c).val = bcd ((a + b + c.toNat) % 100) ∧
    ((addDecimal (bcd a) (bcd b) c).c = true ↔ a + b + c.toNat > 99) := by
  have hc := c.toNat_le
  rw [addDecimal_c_iff, ← BitVec.toNat_inj, addDecimal_toNat, bcd_toNat (Nat.mod_lt _ (by decide)), decimalSum_bcd c ha hb]
  have hn : a + b + c.toNat < 200 := by omega
  generalize a + b + c.toNat = n at hn
  have hmod : n % 100 = if n > 99 then n - 100 else n := by
    split <;> omega
  rw [hmod]
  constructor
  · split <;> split <;> omega
  · omega

/-- R183: decimal subtraction of valid BCD operands. -/
theorem subDecimal_bcd {a b : Nat} (c : Bool) (ha : a < 100) (hb : b < 100) :
    (subDecimal (bcd a) (bcd b) c).val = bcd ((a + 100 - b - (1 - c.toNat)) % 100) ∧
    ((subDecimal (bcd a) (bcd b) c).c = true ↔ a ≥ b + (1 - c.toNat)) := by
  have hc := c.toNat_le
  have hs : (subDecimal (bcd a) (bcd b) c).c = true ↔ difference (bcd a) (bcd b) c ≥ 0 := decide_eq_true_iff
  rw [hs, difference, ← BitVec.toNat_inj, bcd_toNat (Nat.mod_lt _ (by decide)), bcd_toNat ha, bcd_toNat hb]
  constructor
  · zify
    rw [subDecimal_toNat, highDifference, lowDifference, bcd_toNat ha, bcd_toNat hb, subDigit, subDigit]
    split <;> split <;> omega
  · omega

/-- Settles O38: one lemma for each of the four equivalences. -/
theorem aluEquivalences : Obligations.AluEquivalences :=
  ⟨subBinary_eq_addBinary_not, compare_eq_subBinary, fun _ _ c ha hb => addDecimal_bcd c ha hb,
    fun _ _ c ha hb => subDecimal_bcd c ha hb⟩

end Sys2Proof.Machine
end

section
/-! PROOFS. Arithmetic, logic, compare and bit-test instructions (42_arithmetic_logic.md; R267): the updates of registers that
they end in, and through the shape of a read instruction the whole statements. -/

namespace Sys2Proof.Machine

/-! ## What the updates leave of the rest, and what the registers and flags hold after them -/

theorem RegsOnly.addToA {s t : State} (h : RegsOnly s t) (m : Byte) : RegsOnly s (t.addToA m) := (h.setA _).setP _
theorem RegsOnly.subFromA {s t : State} (h : RegsOnly s t) (m : Byte) : RegsOnly s (t.subFromA m) := (h.setA _).setP _

@[simp] theorem State.addToA_regs (s : State) (m : Byte) : (s.addToA m).regs =
    { s.regs with a := (adcAlu s.p.d s.a m s.p.c).val, p := s.p.withAlu (adcAlu s.p.d s.a m s.p.c) } := rfl

@[simp] theorem State.subFromA_regs (s : State) (m : Byte) : (s.subFromA m).regs =
    { s.regs with a := (sbcAlu s.p.d s.a m s.p.c).val, p := s.p.withAlu (sbcAlu s.p.d s.a m s.p.c) } := rfl

theorem Flags.compare_eq_withCompare (f : Flags) (r m : Byte) : f.compare r m = f.withCompare r m := by
  simp only [compare, withCompare, getLsbD_seven_eq_toInt_neg]
  rfl

/-! ## The obligations -/

/-- Settles O36: ADC and SBC are read instructions that end in `State.addToA` and `State.subFromA`; $EB is SBC immediate. -/
theorem adcAndSbcWriteTheAluResult : Obligations.AdcAndSbcWriteTheAluResult := by
  intro s hs
  refine ⟨fun o => ?adc, fun o => ?sbc, fun b => ?usbc⟩
  case adc => exact .of_read rfl hs (fun v t => (RegsOnly.refl t).addToA v) fun t ht => by simp [ht.regs, ht.a, ht.p, adcAlu]
  case sbc => exact .of_read rfl hs (fun v t => (RegsOnly.refl t).subFromA v) fun t ht => by simp [ht.regs, ht.a, ht.p, sbcAlu]
  case usbc =>
    exact .of_read (o := .imm b) rfl hs (fun v t => (RegsOnly.refl t).subFromA v) fun t ht => by
      simp [ht.regs, ht.a, ht.p, sbcAlu, Src.value]

/-- Any read instruction that combines `A` with its operand by `op`. -/
theorem RunsTo.of_logic {i : Instr} {s : State} {o : Src} {op : Byte → Byte → Byte}
    (hi : exec i s = readInstr o.load (fun v t => (t.setA (op t.a v)).setNZ (op t.a v)) s) (hs : s.Calm) :
    RunsTo i s { s.regs with a := op s.a (o.value s), p := s.p.withNZ (op s.a (o.value s)) } :=
  .of_read hi hs (fun _ t => ((RegsOnly.refl t).setA _).setNZ _) fun t ht => by simp [ht.regs, ht.a, ht.p]

/-- Settles O40: each of the three combines the bytes bit by bit. -/
theorem logicWorksBitwise : Obligations.LogicWorksBitwise :=
  fun _ _ hs => ⟨.of_logic (op := (· &&& ·)) rfl hs, .of_logic (op := (· ||| ·)) rfl hs, .of_logic (op := (· ^^^ ·)) rfl hs⟩

/-- Any read instruction that compares a register `reg` with its operand. -/
theorem RunsTo.of_compare {i : Instr} {s : State} {o : Src} {reg : State → Byte}
    (hi : exec i s = readInstr o.load (fun v t => t.setP (t.p.compare (reg t) v)) s) (hs : s.Calm)
    (hreg : ∀ t, SameCpu s t → reg t = reg s) : RunsTo i s { s.regs with p := s.p.withCompare (reg s) (o.value s) } :=
  .of_read hi hs (fun _ t => (RegsOnly.refl t).setP _) fun t ht => by
    rw [State.setP_regs, ht.regs, ht.p, hreg t ht, Flags.compare_eq_withCompare]

/-- Settles O41: each of the three compares its register. -/
theorem comparesSetThreeFlags : Obligations.ComparesSetThreeFlags :=
  fun _ _ hs => ⟨.of_compare (reg := State.a) rfl hs fun _ ht => ht.a, .of_compare (reg := State.x) rfl hs fun _ ht => ht.x,
    .of_compare (reg := State.y) rfl hs fun _ ht => ht.y⟩

/-- Settles O42: BIT is a read instruction that writes only flags. -/
theorem bitTestsTheOperand : Obligations.BitTestsTheOperand := by
  intro s m hs
  refine .of_readMem rfl hs (fun v t => (RegsOnly.refl t).setP _) fun t ht => ?_
  rw [State.setP_regs, ht.regs, ht.p, ht.a]
  rfl

end Sys2Proof.Machine
end

section
/-! PROOFS. Shifts, rotations, increments and decrements (43_shift_incdec.md): the functions of R190 on numbers, the statements
through the shapes of instruction, and the cycles that end a read-modify-write instruction. -/

namespace Sys2Proof.Machine

/-! ## The ALU's shifts are those of R190 on numbers -/

theorem getLsbD_seven_eq_ge (v : Byte) : v.getLsbD 7 = decide (v.toNat ≥ 128) := v.msb_eq_decide

theorem getLsbD_zero_eq_odd (v : Byte) : v.getLsbD 0 = decide (v.toNat % 2 = 1) := Nat.testBit_zero _

theorem shiftLeft_one (v : Byte) : v <<< 1 = BitVec.ofNat 8 (2 * v.toNat) :=
  BitVec.eq_of_toNat_eq (by rw [BitVec.toNat_shiftLeft, Nat.shiftLeft_eq, BitVec.toNat_ofNat, Nat.pow_one, Nat.mul_comm])

theorem shiftRight_one (v : Byte) : v >>> 1 = BitVec.ofNat 8 (v.toNat / 2) :=
  BitVec.eq_of_toNat_eq (by rw [BitVec.toNat_ushiftRight, Nat.shiftRight_eq_div_pow, BitVec.toNat_ofNat]; omega)

/-- The carry enters at bit 0, which the shift has cleared. -/
theorem shiftLeft_or_carry (v : Byte) (c : Bool) :
    v <<< 1 ||| BitVec.ofNat 8 c.toNat = BitVec.ofNat 8 (2 * v.toNat + c.toNat) := by
  rw [shiftLeft_one, ← BitVec.ofNat_or, ← Nat.two_pow_add_eq_or_of_lt (i := 1) (by have := c.toNat_le; omega)]

/-- The carry enters at bit 7, which the shift has cleared. -/
theorem shiftRight_or_carry (v : Byte) (c : Bool) :
    v >>> 1 ||| BitVec.ofNat 8 c.toNat <<< 7 = BitVec.ofNat 8 (v.toNat / 2 + 128 * c.toNat) := by
  have hv := v.isLt
  have hc : BitVec.ofNat 8 c.toNat <<< 7 = BitVec.ofNat 8 (2 ^ 7 * c.toNat) := by cases c <;> rfl
  rw [shiftRight_one, hc, ← BitVec.ofNat_or, Nat.or_comm, ← Nat.two_pow_add_eq_or_of_lt (by omega), Nat.add_comm]

/-- The function `alu` of the model is the function `rule` of R190: its byte, and its flags. -/
def ShiftsBy (alu : Flags → Byte → Byte × Flags) (rule : Bool → Byte → Byte × Bool) : Prop :=
  ∀ f v, alu f v = ((rule f.c v).1, f.withShift (rule f.c v))

theorem aslAlu_shiftsBy : ShiftsBy aslAlu Rule.asl := fun f v => by
  simp only [aslAlu, Rule.asl, Flags.withShift, Flags.setNZ_eq_withNZ, shiftLeft_one, getLsbD_seven_eq_ge]

theorem lsrAlu_shiftsBy : ShiftsBy lsrAlu Rule.lsr := fun f v => by
  simp only [lsrAlu, Rule.lsr, Flags.withShift, Flags.setNZ_eq_withNZ, shiftRight_one, getLsbD_zero_eq_odd]

theorem rolAlu_shiftsBy : ShiftsBy rolAlu Rule.rol := fun f v => by
  simp only [rolAlu, Rule.rol, Flags.withShift, Flags.setNZ_eq_withNZ, shiftLeft_or_carry, getLsbD_seven_eq_ge]

theorem rorAlu_shiftsBy : ShiftsBy rorAlu Rule.ror := fun f v => by
  simp only [rorAlu, Rule.ror, Flags.withShift, Flags.setNZ_eq_withNZ, shiftRight_or_carry, getLsbD_zero_eq_odd]

/-! ## Shifts and rotations -/

/-- Any shift of the accumulator (R190, R292). -/
theorem RunsTo.of_shift {i : Instr} {s : State} {alu : Flags → Byte → Byte × Flags} {rule : Bool → Byte → Byte × Bool}
    (hi : exec i s = shiftInstr alu .acc s) (hs : s.Calm) (hf : ShiftsBy alu rule) :
    RunsTo i s { s.regs with a := (rule s.p.c s.a).1, p := s.p.withShift (rule s.p.c s.a) } :=
  .of_implied hi hs (fun t => ((RegsOnly.refl t).setA _).setP _) fun t ht => by
    simp [ht.regs, ht.a, ht.p, hf s.p s.a]

/-- Any shift of a byte in memory (R190). -/
theorem RunsStoring.of_shift {i : Instr} {s : State} {m : Mem} {alu : Flags → Byte → Byte × Flags}
    {rule : Bool → Byte → Byte × Bool} (hi : exec i s = shiftInstr alu (.mem m) s) (hs : s.Calm) (hw : s.mem.wf = true)
    (hf : ShiftsBy alu rule) :
    RunsStoring i s (m.ea s) (rule s.p.c (s.spypeek (m.ea s))).1
      { s.regs with p := s.p.withShift (rule s.p.c (s.spypeek (m.ea s))) } := by
  have h := RunsStoring.of_modify hi hs hw (fun _ t => RegsOnly.refl t) fun _ ht => ht
  rwa [hf] at h

/-- Settles O43: each of the four is a shift by its function of R190. -/
theorem shiftsAndRotations : Obligations.ShiftsAndRotations := fun _ hs =>
  ⟨.of_shift rfl hs aslAlu_shiftsBy, .of_shift rfl hs lsrAlu_shiftsBy, .of_shift rfl hs rolAlu_shiftsBy,
    .of_shift rfl hs rorAlu_shiftsBy, fun _ hw =>
    ⟨.of_shift rfl hs hw aslAlu_shiftsBy, .of_shift rfl hs hw lsrAlu_shiftsBy, .of_shift rfl hs hw rolAlu_shiftsBy,
      .of_shift rfl hs hw rorAlu_shiftsBy⟩⟩

/-! ## Increments and decrements -/

/-- Settles O44: the registers by implied instructions, the bytes in memory by read-modify-write instructions whose function gives
the byte that N and Z are set of. -/
theorem incrementsAndDecrements : Obligations.IncrementsAndDecrements := by
  intro s hs
  refine ⟨?inx, ?iny, ?dex, ?dey, fun m hw => ⟨?inc, ?dec⟩⟩
  case inx => exact .of_implied rfl hs (fun t => ((RegsOnly.refl t).setX _).setNZ _) fun t ht => by simp [ht.regs, ht.x, ht.p]
  case iny => exact .of_implied rfl hs (fun t => ((RegsOnly.refl t).setY _).setNZ _) fun t ht => by simp [ht.regs, ht.y, ht.p]
  case dex => exact .of_implied rfl hs (fun t => ((RegsOnly.refl t).setX _).setNZ _) fun t ht => by simp [ht.regs, ht.x, ht.p]
  case dey => exact .of_implied rfl hs (fun t => ((RegsOnly.refl t).setY _).setNZ _) fun t ht => by simp [ht.regs, ht.y, ht.p]
  case inc =>
    exact .of_modify (f := incAlu) rfl hs hw (fun _ t => RegsOnly.refl t) fun t ht => by rw [ht, incAlu, Flags.setNZ_eq_withNZ]
  case dec =>
    exact .of_modify (f := decAlu) rfl hs hw (fun _ t => RegsOnly.refl t) fun t ht => by rw [ht, decAlu, Flags.setNZ_eq_withNZ]

/-! ## The last three cycles of a read-modify-write instruction -/

section trace
variable (s : State) (a : Word) (v : Byte) (poll : Bool)

@[simp] theorem State.afterRead_trace : (s.afterRead a poll).trace = s.trace ++
    [{ t := s.t, clock := s.sig.ready.clock, write := false, addr := a, data := (s.atRead poll).spypeek a }] := by
  cases poll <;> rfl

@[simp] theorem State.afterWrite_trace : (s.afterWrite a v poll).trace = s.trace ++
    [{ t := s.t, clock := s.sig.clock, write := true, addr := a, data := v }] := by
  cases poll <;> simp [afterWrite, atWrite]

end trace

/-- In calm, the cycle of a read sees the byte that a debugger sees before it. -/
theorem State.atRead_spypeek_calm (s : State) (a : Word) (poll : Bool) (h : s.Calm) :
    (s.atRead poll).spypeek a = s.spypeek a := by
  obtain ⟨t, ht, -⟩ := s.busRead_calm a poll h
  exact (BusRun.done.inj ((s.busRead_done a poll h.noReset).symm.trans ht)).1

/-- `s` after the three cycles of R190 at `a`: the read, the write of `old`, and the write of the byte of `r`; the flags of `r` are
written before the last one. -/
def State.afterModify (s : State) (a : Word) (old : Byte) (r : Byte × Flags) : State :=
  ((((s.afterRead a false).setDL old).afterWrite a old false).setP r.2).afterWrite a r.1 true

theorem State.afterModify_trace (s : State) (a : Word) (old : Byte) (r : Byte × Flags) (h : s.Calm) :
    (s.afterModify a old r).trace = s.trace ++
      [{ t := s.t, clock := s.sig.ready.clock, write := false, addr := a, data := s.spypeek a },
       { t := s.t + 1, clock := s.sig.ready.clock + 1, write := true, addr := a, data := old },
       { t := s.t + 2, clock := s.sig.ready.clock + 2, write := true, addr := a, data := r.1 }] := by
  simp [afterModify, s.atRead_spypeek_calm a false h]

/-- Memory and the port hold the last byte written. -/
theorem State.afterModify_stored (s : State) (a : Word) (old : Byte) (r : Byte × Flags) (h : s.Calm) (hw : s.mem.wf = true) :
    StoredByte ((s.afterRead a false).setDL old) (s.afterModify a old r) a r.1 := by
  have hread : SameCpu s ((s.afterRead a false).setDL old) := (s.afterRead_same a false h).latch _
  have hmem : ((s.afterRead a false).setDL old).mem.wf = true := by rw [hread.mem, hw]
  exact State.afterWrite_twice_stored _ a old r.1 r.2 false true hread.calm.flat hmem hread.calm.settled

/-- What a read-modify-write instruction gives in calm (R190), from a state `t` that differs from `s` in latches and signals
only. -/
theorem modifyInstr_afterModify (m : Mem) (f : Flags → Byte → Byte × Flags) (acc : Byte → State → State) (s : State)
    (h : s.Calm) :
    ∃ t, SameCpu s t ∧ modifyInstr m f acc s =
      .next ((acc (f s.p (s.spypeek (m.ea s))).1
        (t.afterModify (m.ea s) (s.spypeek (m.ea s)) (f s.p (s.spypeek (m.ea s))))).setT 0) := by
  obtain ⟨t, ht, hst, had⟩ := ea_resolve m true s h
  have hr := t.busRead_done (m.ea s) false hst.calm.noReset
  rw [t.atRead_spypeek_calm _ _ hst.calm, hst.spypeek h] at hr
  refine ⟨t, hst, ?_⟩
  generalize m.ea s = a at *
  generalize s.spypeek a = old at *
  have hread := t.afterRead_noReset a false hst.calm.noReset
  have hback := ((t.afterRead a false).setDL old).busWrite_done a old false hread
  have hwritten := ((t.afterRead a false).setDL old).afterWrite_noReset a old false hread
  have hnew (r : Byte × Flags) :=
    ((((t.afterRead a false).setDL old).afterWrite a old false).setP r.2).busWrite_done a r.1 true hwritten
  simp only [modifyInstr, ht, BusRun.andThen_done, had, hr, State.setDL_latch, State.afterRead_latch, hback,
    State.setP_latch, State.afterWrite_latch, State.afterWrite_p, State.setDL_p, State.afterRead_p, hst.p, hnew,
    BusRun.outcome_done, State.afterModify]

/-- The read-modify-write instructions on `m` (R191 to R196, R251 to R254, R257, R258). -/
def modifyInstrs (m : Mem) : List Instr :=
  [.asl (.mem m), .lsr (.mem m), .rol (.mem m), .ror (.mem m), .inc m, .dec m, .slo m, .rla m, .sre m, .rra m, .dcp m, .isc m]

/-- Each of them has the shape of R190, and its accumulator part performs no cycle. -/
theorem exec_eq_modifyInstr {m : Mem} {i : Instr} (hi : i ∈ modifyInstrs m) (s : State) :
    ∃ f acc, exec i s = modifyInstr m f acc s ∧ ∀ v t, RegsOnly t (acc v t) ∧ (acc v t).trace = t.trace := by
  simp only [modifyInstrs, List.mem_cons, List.not_mem_nil, or_false] at hi
  unfold exec
  rcases hi with rfl | rfl | rfl | rfl | rfl | rfl | rfl | rfl | rfl | rfl | rfl | rfl
  all_goals exact ⟨_, _, rfl, fun _ _ => ⟨⟨rfl, rfl, rfl, rfl, rfl, rfl, rfl⟩, rfl⟩⟩

/-- Settles O45: the trace is that of the three cycles, and the accumulator part leaves the byte that the last of them stored. -/
theorem readModifyWriteWritesTwice : Obligations.ReadModifyWriteWritesTwice := by
  intro s m i hi hs
  obtain ⟨f, acc, hexec, hacc⟩ := exec_eq_modifyInstr hi s
  obtain ⟨t, ht, hmod⟩ := modifyInstr_afterModify m f acc s hs
  obtain ⟨hregs, htrace⟩ := hacc (f s.p (s.spypeek (m.ea s))).1
    (t.afterModify (m.ea s) (s.spypeek (m.ea s)) (f s.p (s.spypeek (m.ea s))))
  rw [t.afterModify_trace _ _ _ ht.calm, ht.spypeek hs] at htrace
  refine ⟨_, hexec.trans hmod, t.trace, _, _, _, htrace, rfl, rfl, rfl, rfl, rfl, rfl, rfl, rfl, fun h0 h1 hw => ?_⟩
  have hstored := t.afterModify_stored (m.ea s) (s.spypeek (m.ea s)) (f s.p (s.spypeek (m.ea s))) ht.calm (ht.mem ▸ hw)
  have hsame := State.spypeek_congr hregs.port hregs.mem hregs.params hregs.platform (congrArg Signals.clock hregs.sig) (m.ea s)
  exact (hsame.trans (hstored.memory h0 h1).1).symm

end Sys2Proof.Machine
end

section
/-! PROOFS. Control transfer (44_control_flow.md): runs of reads and pulls as one state that moves step by step, the two entries
(JSR; BRK and interrupts) with what they leave on the stack, and the returns that undo them. -/

namespace Sys2Proof.Machine

/-! ## Updates, reads and pulls after a quiet stretch of cycles -/

/-- Registers and latches are no part of calm. -/
theorem State.Calm.of_regsOnly {s t : State} (hs : s.Calm) (h : RegsOnly s t) : t.Calm where
  noReset := by rw [h.sig]; exact hs.noReset
  settled := by rw [h.port, h.sig]; exact hs.settled
  flat := by rw [h.platform]; exact hs.flat

theorem RegsOnly.setPC {s t : State} (h : RegsOnly s t) (w : Word) : RegsOnly s (t.setPC w) := { h with }

theorem RegsOnly.spypeek {s t : State} (h : RegsOnly s t) (a : Word) : t.spypeek a = s.spypeek a :=
  State.spypeek_congr h.port h.mem h.params h.platform (congrArg Signals.clock h.sig) a

@[simp] theorem State.setPC_regs (s : State) (w : Word) : (s.setPC w).regs = { s.regs with pc := w } := rfl

section stretch
variable {s t : State}

theorem SameCpu.setSP (h : SameCpu s t) (v : Byte) : SameCpu (s.setSP v) (t.setSP v) :=
  { h with sp := rfl, calm := h.calm.of_regsOnly ((RegsOnly.refl t).setSP v) }

theorem SameCpu.setP (h : SameCpu s t) (f : Flags) : SameCpu (s.setP f) (t.setP f) :=
  { h with p := rfl, calm := h.calm.of_regsOnly ((RegsOnly.refl t).setP f) }

/-- A read after a quiet stretch gives the byte that stood there before the stretch, and prolongs it. -/
theorem SameCpu.busRead (h : SameCpu s t) (hs : s.Calm) (a : Word) (poll : Bool) :
    ∃ u, t.busRead a poll = .done (s.spypeek a) u ∧ SameCpu s u ∧ u.latch = t.latch := by
  obtain ⟨u, hu, htu, hl⟩ := t.busRead_calm a poll h.calm
  exact ⟨u, by rw [hu, h.spypeek hs], h.trans htu, hl⟩

/-- A pull after a quiet stretch. -/
theorem SameCpu.pull (h : SameCpu s t) (hs : s.Calm) (poll : Bool) :
    ∃ u, t.pull poll = .done (s.spypeek (stackByte (s.sp + 1))) u ∧ SameCpu (s.setSP (s.sp + 1)) u := by
  obtain ⟨u, hu, htu, -⟩ := t.pull_calm poll h.calm
  rw [h.sp, h.spypeek hs] at hu
  rw [h.sp] at htu
  exact ⟨u, hu, (h.setSP _).trans htu⟩

end stretch

/-- An instruction whose cycles leave `s` with other registers, but for a quiet stretch, runs to these registers. -/
theorem RunsTo.of_same {i : Instr} {s s' t : State} {r : Registers} (hs : s.Calm) (k : RegsOnly s s') (h : SameCpu s' t)
    (hi : exec i s = .next (t.setT 0)) (hr : s'.regs = r) : RunsTo i s r := by
  have clock : s.sig.clock ≤ t.sig.clock := k.sig ▸ h.clock
  have platform := h.platform.trans k.platform
  exact ⟨_, hi, h.regs.trans hr, .of_same hs (h.mem.trans k.mem) (h.port.trans k.port) (h.params.trans k.params)
    (congrArg Platform.windows platform) clock, h.ir.trans k.ir, h.jam.trans k.jam, h.params.trans k.params, platform, rfl⟩

/-! ## Jumps (R210, R211) -/

theorem jmp_runsTo {s : State} (hs : s.Calm) (w : Word) : RunsTo (.jmp w) s { s.regs with pc := w } :=
  .of_immediate (f := fun s => (s.setAD w).setPC w) rfl hs { RegsOnly.refl s with } rfl

theorem jmpInd_runsTo {s : State} (hs : s.Calm) (w : Word) :
    RunsTo (.jmpInd w) s { s.regs with pc := Word.ofBytes (s.spypeek (Word.ofBytes w.hi (w.lo + 1))) (s.spypeek w) } := by
  have k0 : SameCpu s (s.setAD w) := (SameCpu.refl hs).latch _
  obtain ⟨t, ht, k1, hl⟩ := k0.busRead hs w false
  have k2 : SameCpu s (t.setDL (s.spypeek w)) := k1.latch _
  obtain ⟨u, hu, k3, hl'⟩ := k2.busRead hs (Word.ofBytes w.hi (w.lo + 1)) true
  refine .of_same hs ((RegsOnly.refl s).setPC _)
    (k3.setPC (Word.ofBytes (s.spypeek (Word.ofBytes w.hi (w.lo + 1))) (s.spypeek w))) ?_ rfl
  simp only [exec, execJmpInd, State.setAD_ad, ht, BusRun.andThen_done, State.setDL_latch, hl, hu, hl', BusRun.outcome_done]

/-- Settles O46: a jump writes `PC` only, an indirect one the word of two reads in the pointer's page. -/
theorem jumpsSetPc : Obligations.JumpsSetPc := fun _ w hs => ⟨jmp_runsTo hs w, jmpInd_runsTo hs w⟩

/-! ## Branches (R216 to R224) -/

/-- Any branch: the low byte of `PC` is written first, and the high byte only if it changes (R311). -/
theorem RunsTo.of_branch {i : Instr} {s : State} {cond : Bool} {off : Byte} {p : Prop} [Decidable p]
    (hi : exec i s = branch cond off s) (hs : s.Calm) (hp : cond = true ↔ p) :
    RunsTo i s { s.regs with pc := if p then s.pc + off.signExtend 16 else s.pc } := by
  simp only [← hp]
  cases cond with
  | false => exact .of_same hs (.refl s) (.refl hs) hi rfl
  | true =>
    obtain ⟨t, ht, k1, -⟩ := (SameCpu.refl hs).busRead hs s.pc false
    have k2 := k1.setPC (Word.ofBytes s.pc.hi (s.pc + off.signExtend 16).lo)
    by_cases hpage : s.pc.hi = (s.pc + off.signExtend 16).hi
    · rw [hpage, Word.ofBytes_hi_lo] at k2
      refine .of_same hs ((RegsOnly.refl s).setPC _) k2 (hi.trans ?_) rfl
      simp [branch, sext16, ht, k1.pc, hpage]
    · obtain ⟨u, hu, k3, -⟩ := k2.busRead (hs.of_regsOnly ((RegsOnly.refl s).setPC _))
        (Word.ofBytes s.pc.hi (s.pc + off.signExtend 16).lo) true
      refine .of_same hs (((RegsOnly.refl s).setPC _).setPC _) (k3.setPC (s.pc + off.signExtend 16)) (hi.trans ?_) rfl
      simp [branch, sext16, ht, k1.pc, hpage, hu]

/-- Settles O52: each of the eight is a branch on its flag or on the flag's negation. -/
theorem branchesAddTheDisplacement : Obligations.BranchesAddTheDisplacement := by
  intro s off hs
  have negated (b : Bool) : (!b) = true ↔ b = false := by rw [Bool.not_eq_true']
  exact ⟨.of_branch rfl hs (negated _), .of_branch rfl hs .rfl, .of_branch rfl hs (negated _), .of_branch rfl hs .rfl,
    .of_branch rfl hs (negated _), .of_branch rfl hs .rfl, .of_branch rfl hs (negated _), .of_branch rfl hs .rfl⟩

/-! ## Returns (R213, R214) -/

/-- Settles O48: two reads, two pulls, each of which writes a byte of `PC`, and a read before the increment. -/
theorem rtsReturnsPastThePulledAddress : Obligations.RtsReturnsPastThePulledAddress := by
  intro s hs
  obtain ⟨t1, h1, k1, -⟩ := (SameCpu.refl hs).busRead hs s.pc false
  obtain ⟨t2, h2, k2, -⟩ := k1.busRead hs t1.stackAddr false
  obtain ⟨t3, h3, k3⟩ := k2.pull hs false
  have r3 := ((RegsOnly.refl s).setSP (s.sp + 1)).setPC (Word.ofBytes t3.pc.hi (s.spypeek (stackByte (s.sp + 1))))
  obtain ⟨t4, h4, k4⟩ := (k3.setPC _).pull (hs.of_regsOnly r3) false
  rw [r3.spypeek] at h4
  have r4 := (r3.setSP (s.sp + 1 + 1)).setPC (Word.ofBytes (s.spypeek (stackByte (s.sp + 1 + 1))) t4.pc.lo)
  obtain ⟨t5, h5, k5, -⟩ := (k4.setPC _).busRead (hs.of_regsOnly r4)
    (Word.ofBytes (s.spypeek (stackByte (s.sp + 1 + 1))) t4.pc.lo) true
  refine .of_same hs (r4.setPC _) (k5.setPC (t5.pc + 1)) ?_ ?_
  · simp only [exec, execRts, h1, h2, h3, h4, h5, State.setPC_pc, State.setPC_sp, State.setSP_sp, BusRun.andThen_done,
      BusRun.outcome_done]
  · simp [k5.pc, k4.pc, BitVec.add_assoc]

/-- Settles O50: a read, then the shared return. -/
theorem rtiRestoresFlagsAndPc : Obligations.RtiRestoresFlagsAndPc := by
  intro s hs
  obtain ⟨t, ht, k, -⟩ := (SameCpu.refl hs).busRead hs s.pc false
  obtain ⟨u, hu, ku⟩ := t.returnFromInterrupt_calm k.calm
  simp only [k.sp, k.spypeek hs] at ku
  refine .of_same hs ((((RegsOnly.refl s).setSP _).setP _).setPC _) ((((k.setSP _).setP _).setPC _).trans ku) ?_ rfl
  simp only [exec, execRti, ht, hu, BusRun.andThen_done, BusRun.outcome_done]

/-! ## JSR (R212) -/

/-- The two pushes of `PC` in calm, after a quiet stretch. -/
theorem SameCpu.pushPC {s t : State} (h : SameCpu s t) (hs : s.Calm) (hw : s.mem.wf = true) :
    ∃ u v, t.push t.pc.hi = .done () u ∧ u.push u.pc.lo = .done () v ∧
      MovedBut [stackByte s.sp, stackByte (s.sp - 1)] s v ∧ v.sp = s.sp - 2 ∧
      v.spypeek (stackByte s.sp) = s.pc.hi ∧ v.spypeek (stackByte (s.sp - 1)) = s.pc.lo ∧ v.latch = t.latch := by
  obtain ⟨u, hu, m1, p1, b1, l1⟩ := t.push_calm t.pc.hi false h.calm (h.mem ▸ hw)
  obtain ⟨v, hv, m2, p2, b2, l2⟩ := u.push_calm u.pc.lo false m1.calm m1.wf
  have sp1 : u.sp = s.sp - 1 := by rw [p1, h.sp]
  rw [h.sp] at m1 b1
  rw [sp1] at m2 p2 b2
  have apart : stackByte s.sp ∉ [stackByte (s.sp - 1)] := fun e => by
    have := stackByte_inj (List.mem_singleton.mp e)
    bv_omega
  refine ⟨u, v, hu, hv, ?moved, by rw [p2, BitVec.sub_sub]; rfl, ?hi, ?lo, l2.trans l1⟩
  case moved => exact (((h.moved hs hw).mono (by simp)).trans (m1.mono (by simp))).trans (m2.mono (by simp))
  case hi => rw [m2.bytes _ apart, b1, h.pc]
  case lo => rw [b2, m1.pc, h.pc]

/-- JSR in calm, to a calm state: the third byte is read after the pushes, so it is the byte that a debugger sees afterwards. -/
theorem jsr_calm (s : State) (w : Word) (hs : s.Calm) (hw : s.mem.wf = true) :
    Completes (exec (.jsr w) s) fun t =>
      t.Calm ∧ t.regs = { s.regs with sp := s.sp - 2, pc := Word.ofBytes (t.spypeek s.pc) w.lo } ∧
      t.spypeek (stackByte s.sp) = s.pc.hi ∧ t.spypeek (stackByte (s.sp - 1)) = s.pc.lo ∧
      BytesKeptBut [stackByte s.sp, stackByte (s.sp - 1)] s t ∧ t.port = s.port ∧ RestKept s t := by
  have k0 : SameCpu s (s.setAD (Word.ofBytes s.latch.ad.hi w.lo)) := (SameCpu.refl hs).latch _
  obtain ⟨t1, h1, k1, l1⟩ := k0.busRead hs (s.setAD (Word.ofBytes s.latch.ad.hi w.lo)).stackAddr false
  obtain ⟨t2, t3, h2, h3, m, sp, hi, lo, l3⟩ := k1.pushPC hs hw
  obtain ⟨t4, h4, k4, l4⟩ := t3.busRead_calm t3.pc true m.calm
  have ad : t4.latch.ad = Word.ofBytes s.latch.ad.hi w.lo := by rw [l4, l3, l1]; rfl
  have bytes (a : Word) : t4.spypeek a = t3.spypeek a := k4.spypeek m.calm a
  have third : t3.spypeek t3.pc = t4.spypeek s.pc := by rw [bytes, m.pc]
  have regs : t4.regs = { s.regs with sp := s.sp - 2 } := by
    rw [k4.regs]
    simp [State.regs, m.a, m.x, m.y, sp, m.pc, m.p]
  refine ⟨((t4.setAD (Word.ofBytes (t4.spypeek s.pc) w.lo)).setPC (Word.ofBytes (t4.spypeek s.pc) w.lo)).setT 0, ?run,
    ⟨k4.calm.noReset, k4.calm.settled, k4.calm.flat⟩, ?regs, (bytes _).trans hi, (bytes _).trans lo,
    fun a ha => (bytes a).trans (m.bytes a ha), k4.port.trans m.port, k4.ir.trans m.ir, k4.jam.trans m.jam,
    k4.params.trans m.params, k4.platform.trans m.platform, rfl⟩
  case run =>
    simp only [exec, execJsr, h1, h2, h3, h4, third, BusRun.andThen_done, BusRun.outcome_done, ad, Word.lo_ofBytes,
      State.setAD_ad]
  case regs => exact congrArg (fun r : Registers => { r with pc := Word.ofBytes (t4.spypeek s.pc) w.lo }) regs

/-- Settles O47: the two pushes keep every byte but theirs, and the last read gives the third byte after them. -/
theorem jsrPushesTheReturnAddress : Obligations.JsrPushesTheReturnAddress := by
  intro s w hs hw
  obtain ⟨t, ht, -, h⟩ := jsr_calm s w hs hw
  exact ⟨t, ht, h⟩

/-! ## BRK and interrupts (R215, R344) -/

/-- What the entry sequence in calm makes of `s`: the vector is chosen (R346, R347), which clears the NMI it takes (R338), and `t`
is calm again. -/
structure EntryRun (s t : State) (ret : Word) (b : Bool) (vec : Word) : Prop extends Entered s t ret b vec where
  vector   : vec = 0xFFFA ∨ vec = 0xFFFE
  nmi      : s.sig.nmiPending = true → vec = 0xFFFA
  irq      : s.sig.noNmi → vec = 0xFFFE
  cleared  : s.sig.noneComes → t.sig.noNmi
  decision : t.sig.intDecision = s.sig.intDecision
  ir       : t.ir = s.ir
  jam      : t.jam = s.jam
  params   : t.params = s.params
  platform : t.platform = s.platform
  wf       : t.mem.wf = true
  calm     : t.Calm

theorem EntryRun.setT {s t : State} {ret vec : Word} {b : Bool} (h : EntryRun s t ret b vec) (n : Nat) :
    EntryRun s (t.setT n) ret b vec :=
  { h with calm := ⟨h.calm.noReset, h.calm.settled, h.calm.flat⟩ }

/-- A read without a poll: a quiet stretch for the CPU and for the NMI flip-flop. -/
theorem State.busRead_nmiKept (s : State) (a : Word) (h : s.Calm) :
    ∃ t, s.busRead a = .done (s.spypeek a) t ∧ SameCpu s t ∧ NmiKept s t := by
  obtain ⟨t, ht, hst, -⟩ := s.busRead_calm a false h
  refine ⟨t, ht, hst, ?_⟩
  rw [s.busRead_done a false h.noReset] at ht
  obtain ⟨-, rfl⟩ := BusRun.done.inj ht
  exact s.afterRead_nmiKept a

/-- The entry sequence in calm, after a quiet stretch. -/
theorem State.enter_run {s t : State} (b : Bool) (hs : s.Calm) (hw : s.mem.wf = true) (h : SameCpu s t) (hn : NmiKept s t) :
    ∃ u vec, t.enter b = .done () u ∧ EntryRun s u s.pc b vec := by
  obtain ⟨u, vec, hu, vector, nmi, irq, cleared, ⟨hi, lo, status, other, port, regs⟩, ir, jam, params, platform, calm, wf,
    decision⟩ := t.enter_calm b h.calm (h.mem ▸ hw)
  rw [h.sp] at hi lo status other
  rw [h.pc] at hi lo
  have word : t.wordAt vec = s.wordAt vec := by simp only [wordAt, h.spypeek hs]
  exact ⟨u, vec, hu,
    { hi, lo, status := h.p ▸ status, other := (h.nothingStored hs).bytes.mono (by simp) |>.trans other,
      port := port.trans h.port, regs := by rw [regs, h.regs, h.sp, h.p, word], vector
      nmi := fun hp => nmi (hn.pending hp), irq := fun hp => irq (hn.noNmi hp), cleared := fun hp => cleared (hn.comes hp)
      decision := decision.trans hn.decision, ir := ir.trans h.ir, jam := jam.trans h.jam, params := params.trans h.params
      platform := platform.trans h.platform, wf, calm }⟩

theorem brk_run (s : State) (hs : s.Calm) (hw : s.mem.wf = true) :
    Completes (exec .brk s) fun t => t.t = 0 ∧ ∃ vec, EntryRun s t (s.pc + 1) true vec := by
  obtain ⟨t, ht, k, hn⟩ := s.busRead_nmiKept s.pc hs
  have calm := hs.of_regsOnly ((RegsOnly.refl s).setPC (s.pc + 1))
  obtain ⟨u, vec, hu, run⟩ := State.enter_run (t := t.setPC (s.pc + 1)) true calm hw (k.setPC _) { hn with }
  refine ⟨u.setT 0, ?_, rfl, vec, { run.setT 0 with }⟩
  simp only [exec, execBrk, ht, k.pc, hu, BusRun.andThen_done, BusRun.outcome_done]

/-- The interrupt sequence in calm (R313): two reads at `PC`, `IR` written between them, and the entry. -/
theorem State.takeInterrupt_run (s : State) (hs : s.Calm) (hw : s.mem.wf = true) :
    ∃ t vec, s.takeInterrupt = .done () t ∧ EntryRun (s.setIR 0x00) t s.pc false vec := by
  obtain ⟨t1, h1, k1, n1⟩ := s.busRead_nmiKept s.pc hs
  have k1' := k1.setIR 0x00
  obtain ⟨t2, h2, k2, n2⟩ := (t1.setIR 0x00).busRead_nmiKept (t1.setIR 0x00).pc k1'.calm
  have n1' : NmiKept (s.setIR 0x00) (t1.setIR 0x00) := { n1 with }
  obtain ⟨u, vec, hu, run⟩ := State.enter_run (s := s.setIR 0x00) false ⟨hs.noReset, hs.settled, hs.flat⟩ hw (k1'.trans k2)
    (n1'.trans n2)
  exact ⟨u, vec, by simp only [takeInterrupt, h1, h2, hu, BusRun.andThen_done], run⟩

/-- A step that takes a decided interrupt, in calm. -/
theorem step_interrupt_run (s : State) (hs : s.Calm) (hw : s.mem.wf = true) (hj : s.jam = false)
    (hd : s.sig.intDecision = true) :
    Completes (step s) fun t => t.t = 0 ∧ ∃ vec, EntryRun (s.startStep.clearDecision.setIR 0x00) t s.pc false vec := by
  obtain ⟨t, vec, ht, run⟩ := s.startStep.clearDecision.takeInterrupt_run ⟨hs.noReset, hs.settled, hs.flat⟩ hw
  refine ⟨t.setT 0, ?_, rfl, vec, run.setT 0⟩
  simp only [step, State.startStep_sig, State.startStep_jam, s.sig.resetNext_false hs.noReset, hj, hd, ht,
    Bool.false_eq_true, if_false, if_true, BusRun.outcome_done]

/-- Settles O49: BRK is the entry sequence at the address after its padding byte. -/
theorem brkEntersItsHandler : Obligations.BrkEntersItsHandler := by
  intro s hs hw
  obtain ⟨t, ht, hT, vec, run⟩ := brk_run s hs hw
  exact ⟨t, ht, vec, run.vector, run.nmi, run.irq, fun hn => (run.cleared hn).1, run.toEntered,
    run.ir, run.jam, run.params, run.platform, hT⟩

/-! ## Returns undo their entries (R341, R348, R394) -/

theorem Flags.ofByte_image (f : Flags) (b : Bool) : Flags.ofByte (f.image b) = f := by
  have h1 : (1#1 : BitVec 1) = BitVec.ofBool true := rfl
  simp only [Flags.ofByte, Flags.image, h1, append_ofBool]
  simp [BitVec.getElem_concat]

/-- RTS where JSR has left its return address. -/
theorem rts_undoes_jsr (s : State) (w : Word) (hs : s.Calm) (hw : s.mem.wf = true) :
    Completes (exec (.jsr w) s) fun t => Completes (exec .rts t) fun u => u.regs = { s.regs with pc := s.pc + 1 } := by
  obtain ⟨t, ht, calm, regs, hi, lo, -⟩ := jsr_calm s w hs hw
  obtain ⟨u, hu, hr, -⟩ := rtsReturnsPastThePulledAddress t calm
  have sp : t.sp = s.sp - 2 := congrArg Registers.sp regs
  have sp1 : t.sp + 1 = s.sp - 1 := by rw [sp]; bv_omega
  have sp2 : t.sp + 2 = s.sp := by rw [sp]; bv_omega
  rw [sp1, sp2, hi, lo, Word.ofBytes_hi_lo, regs] at hr
  exact ⟨t, ht, u, hu, hr⟩

/-- RTI where the entry sequence has left flags and return address. -/
theorem Entered.rti {s t : State} {ret vec : Word} {b : Bool} (h : Entered s t ret b vec) (ht : t.Calm) :
    Completes (exec .rti t) fun u => u.regs = { s.regs with pc := ret } := by
  obtain ⟨u, hu, hr, -⟩ := rtiRestoresFlagsAndPc t ht
  have sp : t.sp = s.sp - 3 := congrArg Registers.sp h.regs
  have sp1 : t.sp + 1 = s.sp - 2 := by rw [sp]; bv_omega
  have sp2 : t.sp + 2 = s.sp - 1 := by rw [sp]; bv_omega
  have sp3 : t.sp + 3 = s.sp := by rw [sp]; bv_omega
  rw [sp1, sp2, sp3, h.hi, h.lo, h.status, Word.ofBytes_hi_lo, Flags.ofByte_image, h.regs] at hr
  exact ⟨u, hu, hr⟩

/-- Settles O51: the return is made from the state that the entry leaves, and the stack holds what the entry has pushed. -/
theorem returnsUndoTheirEntries : Obligations.ReturnsUndoTheirEntries := by
  intro s hs hw
  refine ⟨fun w => rts_undoes_jsr s w hs hw, ?brk, fun hj hd => ?interrupt⟩
  case brk =>
    obtain ⟨t, ht, -, vec, run⟩ := brk_run s hs hw
    exact ⟨t, ht, run.toEntered.rti run.calm⟩
  case interrupt =>
    obtain ⟨t, ht, -, vec, run⟩ := step_interrupt_run s hs hw hj hd
    exact ⟨t, ht, run.toEntered.rti run.calm⟩

end Sys2Proof.Machine
end

section
/-! PROOFS. Flag instructions and NOP (45_flags_nop.md; R264 to R266): implied instructions that update `P` alone, and instructions
of three shapes that update nothing. -/

namespace Sys2Proof.Machine

/-- Any implied instruction that updates `P` by `upd` and writes nothing else. -/
theorem RunsTo.of_flagUpdate {i : Instr} {s : State} (upd : Flags → Flags)
    (hi : exec i s = impliedInstr (fun t => t.setP (upd t.p)) s) (hs : s.Calm) :
    RunsTo i s { s.regs with p := upd s.p } :=
  .of_implied hi hs (fun t => (RegsOnly.refl t).setP _) fun t ht => by rw [State.setP_regs, ht.regs, ht.p]

/-- Settles O53: the opcodes by the encoder, and each of the seven updates `P` in one flag. -/
theorem flagInstructionsWriteOneFlag : Obligations.FlagInstructionsWriteOneFlag := by
  refine ⟨⟨rfl, rfl, rfl, rfl, rfl, rfl, rfl⟩, fun s hs => ⟨?clc, ?sec, ?cli, ?sei, ?clv, ?cld, ?sed⟩⟩
  case clc => exact .of_flagUpdate (fun f => { f with c := false }) rfl hs
  case sec => exact .of_flagUpdate (fun f => { f with c := true }) rfl hs
  case cli => exact .of_flagUpdate (fun f => { f with i := false }) rfl hs
  case sei => exact .of_flagUpdate (fun f => { f with i := true }) rfl hs
  case clv => exact .of_flagUpdate (fun f => { f with v := false }) rfl hs
  case cld => exact .of_flagUpdate (fun f => { f with d := false }) rfl hs
  case sed => exact .of_flagUpdate (fun f => { f with d := true }) rfl hs

/-- Settles O54: an implied NOP reads and drops the next byte, an immediate one drops its operand byte, and the others drop the
byte of their load. -/
theorem nopsChangeNothing : Obligations.NopsChangeNothing := by
  intro s hs
  refine ⟨fun _ => ?implied, fun _ _ => ?immediate, fun _ _ => ?read⟩
  case implied => exact .of_implied rfl hs RegsOnly.refl fun _ ht => ht.regs
  case immediate => exact .of_immediate (f := fun t => t) rfl hs (.refl s) rfl
  case read => exact .of_readMem rfl hs (fun _ t => RegsOnly.refl t) fun _ ht => ht.regs

end Sys2Proof.Machine
end

section
/-! PROOFS. Undocumented instructions (46_undocumented.md): the combined read-modify-write instructions and the immediate ones
through their shapes, ARR's two digits as numbers, and the shape of the four stores of R274. -/

namespace Sys2Proof.Machine

/-! ## Combined read-modify-write instructions -/

/-- `A` and `P` of a state whose registers are those of `s` with other flags. -/
theorem State.a_p_of_regs {s t : State} {f : Flags} (h : t.regs = { s.regs with p := f }) : t.a = s.a ∧ t.p = f :=
  ⟨congrArg Registers.a h, congrArg Registers.p h⟩

/-- A shift in memory followed by a combination of `A` with the new byte by `op`. -/
theorem RunsStoring.of_shiftThenLogic {i : Instr} {s : State} {m : Mem} {alu : Flags → Byte → Byte × Flags}
    {rule : Bool → Byte → Byte × Bool} {op : Byte → Byte → Byte}
    (hi : exec i s = modifyInstr m alu (fun v t => (t.setA (op t.a v)).setNZ (op t.a v)) s) (hs : s.Calm)
    (hw : s.mem.wf = true) (hf : ShiftsBy alu rule) :
    let r := rule s.p.c (s.spypeek (m.ea s))
    RunsStoring i s (m.ea s) r.1 { s.regs with a := op s.a r.1, p := { s.p with c := r.2 }.withNZ (op s.a r.1) } := by
  intro r
  have h := RunsStoring.of_modify
    (r := { s.regs with a := op s.a r.1, p := { s.p with c := r.2 }.withNZ (op s.a r.1) }) hi hs hw
    (fun _ t => ((RegsOnly.refl t).setA _).setNZ _) fun t ht => by
      obtain ⟨ha, hp⟩ := State.a_p_of_regs ht
      rw [State.setNZ_regs, State.setA_regs, State.setA_p, ht, ha, hp, hf]
      rfl
  rwa [hf] at h

/-- Settles O55: a shift, a decrement or an increment in memory, followed by the update of `A` and the flags by the new byte. -/
theorem combinedReadModifyWrite : Obligations.CombinedReadModifyWrite := by
  intro s m hs hw
  refine ⟨.of_shiftThenLogic (op := (· ||| ·)) rfl hs hw aslAlu_shiftsBy,
    .of_shiftThenLogic (op := (· &&& ·)) rfl hs hw rolAlu_shiftsBy,
    .of_shiftThenLogic (op := (· ^^^ ·)) rfl hs hw lsrAlu_shiftsBy, ?rra, ?dcp, ?isc⟩
  case rra =>
    have h := RunsStoring.of_modify (i := .rra m) (acc := fun v t => t.addToA v) rfl hs hw
      (fun v t => (RegsOnly.refl t).addToA v) fun t ht => by
        obtain ⟨ha, hp⟩ := State.a_p_of_regs ht
        rw [State.addToA_regs, ht, ha, hp]
    rwa [rorAlu_shiftsBy] at h
  case dcp =>
    refine .of_modify (f := decQuiet) (acc := fun v t => t.setP (t.p.compare t.a v)) rfl hs hw
      (fun _ t => (RegsOnly.refl t).setP _) fun t ht => ?_
    obtain ⟨ha, hp⟩ := State.a_p_of_regs ht
    rw [State.setP_regs, ht, ha, hp, Flags.compare_eq_withCompare, decQuiet]
  case isc =>
    refine .of_modify (f := incQuiet) (acc := fun v t => t.subFromA v) rfl hs hw
      (fun v t => (RegsOnly.refl t).subFromA v) fun t ht => ?_
    obtain ⟨ha, hp⟩ := State.a_p_of_regs ht
    rw [State.subFromA_regs, ht, ha, hp, sbcAlu, incQuiet]

/-! ## Immediate instructions -/

/-- An immediate instruction that puts `A & b` through the function `alu`. -/
theorem RunsTo.of_immediateAlu {i : Instr} {s : State} {b : Byte} {alu : Flags → Byte → Byte × Flags}
    (hi : exec i s = immediateInstr (fun t => (t.setA (alu t.p (t.a &&& b)).1).setP (alu t.p (t.a &&& b)).2) s) (hs : s.Calm) :
    RunsTo i s { s.regs with a := (alu s.p (s.a &&& b)).1, p := (alu s.p (s.a &&& b)).2 } :=
  .of_immediate hi hs (((RegsOnly.refl s).setA _).setP _) rfl

/-- Settles O56: ANC puts `A & b` into `A`, ALR the shift of it; AXS compares `A & X` with `b` and keeps the difference in
`X`. -/
theorem immediateCombinations : Obligations.ImmediateCombinations := by
  intro s b hs
  refine ⟨fun k => ?anc, ?alr, ?axs⟩
  case anc =>
    refine .of_next hs (.refl hs) ?_ rfl ?_
    · exact ((RegsOnly.refl s).setA _).setP _
    · rw [State.setP_regs, State.setA_regs, Flags.setNZ_eq_withNZ]
      rfl
  case alr =>
    have h := RunsTo.of_immediateAlu (i := .alr b) (alu := lsrAlu) rfl hs
    rwa [lsrAlu_shiftsBy] at h
  case axs =>
    refine .of_next hs (.refl hs) ?_ rfl ?_
    · exact ((RegsOnly.refl s).setX _).setP _
    · rw [State.setP_regs, State.setX_regs, Flags.compare_eq_withCompare]

/-! ## The digits of a byte as masks -/

theorem and_highDigit (v : Byte) : (v &&& 0xF0).toNat = v.toNat / 16 * 16 := by
  have hv := v.isLt
  have hmask : v &&& 0xF0#8 = v >>> 4 <<< 4 := by
    ext i hi
    interval_cases i <;> simp
  have hnat : (v >>> 4 <<< 4).toNat = v.toNat / 16 * 16 := by
    rw [BitVec.toNat_shiftLeft, BitVec.toNat_ushiftRight, Nat.shiftRight_eq_div_pow, Nat.shiftLeft_eq]
    omega
  exact (congrArg BitVec.toNat hmask).trans hnat

theorem and_lowDigit (v : Byte) : (v &&& 0x0F).toNat = v.toNat % 16 := by
  rw [BitVec.toNat_and]
  exact Nat.and_two_pow_sub_one_eq_mod _ 4

/-- A byte made of the high digit of `v` and the low digit of `w`. -/
theorem digits_or (v w : Byte) :
    (v &&& 0xF0) ||| (w &&& 0x0F) = BitVec.ofNat 8 (v.toNat / 16 * 16 + w.toNat % 16) := by
  apply BitVec.eq_of_toNat_eq
  have hv := v.isLt
  rw [BitVec.toNat_or, and_highDigit, and_lowDigit, BitVec.toNat_ofNat, Nat.mul_comm,
    ← Nat.two_pow_add_eq_or_of_lt (i := 4) (by omega)]
  omega

/-- Bit 4 is the low bit of the high digit. -/
theorem and_bit_four (v : Byte) : (v &&& 0x10).toNat = v.toNat / 16 % 2 * 16 := by
  have h : v &&& 0x10 = if v.getLsbD 4 then 0x10 else 0 := v.and_twoPow 4
  have hbit : v.getLsbD 4 = decide (v.toNat / 16 % 2 = 1) := Nat.testBit_eq_decide_div_mod_eq
  rw [h, hbit]
  by_cases hb : v.toNat / 16 % 2 = 1
  · simp [hb]
  · simp [hb]
    omega

/-! ## ARR -/

/-- The low digit of ARR needs its correction (R261). -/
def arrLow (t : Byte) : Bool := decide (t.toNat % 16 + t.toNat % 2 > 5)

/-- The high digit of ARR needs its correction (R261). -/
def arrHigh (t : Byte) : Bool := decide (t.toNat / 16 * 16 + t.toNat / 16 % 2 * 16 > 80)

/-- The two digits of `r`, each corrected by six if it needs it (R261). -/
def arrDigits (t r : Byte) : Nat :=
  (if arrHigh t then (r.toNat / 16 + 6) % 16 else r.toNat / 16) * 16 +
    if arrLow t then (r.toNat + 6) % 16 else r.toNat % 16

/-- ARR with `D` = 0 by the rotation of R190. -/
theorem arrBinary_eq (f : Flags) (t : Byte) :
    arrBinary f t = ((Rule.ror f.c t).1,
      { f with c := (Rule.ror f.c t).1.getLsbD 6
               v := (Rule.ror f.c t).1.getLsbD 6 ^^ (Rule.ror f.c t).1.getLsbD 5 }.withNZ (Rule.ror f.c t).1) := by
  simp only [arrBinary, shiftRight_or_carry, Flags.setNZ_eq_withNZ]
  rfl

/-- The model's correction of a low digit is an addition of six without carry. -/
theorem lowDigit_corrected (v : Byte) :
    (v &&& 0xF0) ||| ((v + 6) &&& 0x0F) = BitVec.ofNat 8 (v.toNat / 16 * 16 + (v.toNat + 6) % 16) := by
  have h6 : (6 : Byte).toNat = 6 := rfl
  have hsum : (v + 6).toNat % 16 = (v.toNat + 6) % 16 := by
    rw [BitVec.toNat_add, h6]
    omega
  rw [digits_or, hsum]

/-- The model's correction of a high digit is an addition of six without carry. -/
theorem highDigit_corrected (v : Byte) :
    (v &&& 0x0F) ||| ((v + 0x60) &&& 0xF0) = BitVec.ofNat 8 ((v.toNat / 16 + 6) % 16 * 16 + v.toNat % 16) := by
  have h60 : (0x60 : Byte).toNat = 96 := rfl
  have hsum : (v + 0x60).toNat / 16 = (v.toNat / 16 + 6) % 16 := by
    rw [BitVec.toNat_add, h60]
    omega
  rw [BitVec.or_comm, digits_or, hsum]

/-- The two corrections one after the other. -/
theorem digits_corrected (t r : Byte) :
    (let r1 := if arrLow t then (r &&& 0xF0) ||| ((r + 6) &&& 0x0F) else r
     if arrHigh t then (r1 &&& 0x0F) ||| ((r1 + 0x60) &&& 0xF0) else r1) = BitVec.ofNat 8 (arrDigits t r) := by
  have hr := r.isLt
  simp only [lowDigit_corrected, highDigit_corrected, arrDigits]
  generalize hr1 : (if arrLow t then BitVec.ofNat 8 (r.toNat / 16 * 16 + (r.toNat + 6) % 16) else r) = r1
  have hvalue : r1.toNat = r.toNat / 16 * 16 + if arrLow t then (r.toNat + 6) % 16 else r.toNat % 16 := by
    rw [← hr1]
    split
    · rw [BitVec.toNat_ofNat]
      omega
    · omega
  have hlow : (if arrLow t then (r.toNat + 6) % 16 else r.toNat % 16) < 16 := by split <;> omega
  generalize (if arrLow t then (r.toNat + 6) % 16 else r.toNat % 16) = low at hvalue hlow
  split
  · obtain ⟨hhigh, hr1low⟩ : r1.toNat / 16 = r.toNat / 16 ∧ r1.toNat % 16 = low := by omega
    rw [hhigh, hr1low]
  · rw [← hvalue, BitVec.ofNat_toNat, BitVec.setWidth_eq]

/-- ARR with `D` = 1 by the rotation of R190 and its digits. -/
theorem arrDecimal_eq (f : Flags) (t : Byte) :
    arrDecimal f t = (BitVec.ofNat 8 (arrDigits t (Rule.ror f.c t).1),
      { f with n := f.c, z := decide ((Rule.ror f.c t).1 = 0), v := t.getLsbD 6 ^^ (Rule.ror f.c t).1.getLsbD 6
               c := arrHigh t }) := by
  rw [← digits_corrected]
  simp only [arrDecimal, shiftRight_or_carry, highDigit, and_bit_four, arrLow, arrHigh, Rule.ror, decide_eq_true_eq]
  rfl

/-- Settles O57: an immediate instruction whose function is that of the mode. -/
theorem arrRotatesWithAdderFlags : Obligations.ArrRotatesWithAdderFlags := by
  intro s b hs
  have h := RunsTo.of_immediateAlu (i := .arr b) (alu := arrAlu) rfl hs
  refine ⟨fun hd => ?binary, fun hd => ?decimal⟩
  case binary =>
    have hmode : arrAlu s.p (s.a &&& b) = arrBinary s.p (s.a &&& b) := by rw [arrAlu, hd]; rfl
    rwa [hmode, arrBinary_eq] at h
  case decimal =>
    have hmode : arrAlu s.p (s.a &&& b) = arrDecimal s.p (s.a &&& b) := by rw [arrAlu, hd]; rfl
    rwa [hmode, arrDecimal_eq] at h

/-! ## LAS, ANE, LXA -/

/-- Settles O58: LAS is a read instruction, the other two are immediate; each writes one byte to its registers and sets N and Z
of it. -/
theorem lasAneLxa : Obligations.LasAneLxa := by
  intro s hs
  refine ⟨fun w => ?las, fun b => ?ane, fun b => ?lxa⟩
  case las =>
    exact .of_readMem (m := .aby w) rfl hs (fun _ t => ((((RegsOnly.refl t).setA _).setX _).setSP _).setNZ _) fun t ht => by
      simp [ht.regs, ht.sp, ht.p]
  case ane =>
    refine .of_next hs (.refl hs) ?_ rfl ?_
    · exact ((RegsOnly.refl s).setA _).setNZ _
    · rw [State.setNZ_regs, State.setA_regs, State.setA_p]
  case lxa =>
    refine .of_next hs (.refl hs) ?_ rfl ?_
    · exact (((RegsOnly.refl s).setA _).setX _).setNZ _
    · rw [State.setNZ_regs, State.setX_regs, State.setA_regs, State.setX_p, State.setA_p]

/-! ## The stores of R274 -/

/-- The byte that an SH store writes (R274): the register term and one more than the high byte of the base address. -/
def shValue (base : Word) (reg : Byte) : Byte := reg &&& (base.hi + 1)

/-- The address that an SH store writes at (R274). -/
def shAddress (mode : ShPageCross) (base : Word) (index reg : Byte) : Word :=
  if base.lo.toNat + index.toNat > 255 ∧ mode = .andHigh then Word.ofBytes (shValue base reg) (base.lo + index)
  else base + index.zeroExtend 16

/-- The high byte of an indexed address is that of its base, one more when the low bytes carry (R110, R111, R114). -/
theorem Word.hi_add_zeroExtend (w : Word) (b : Byte) :
    (w + b.zeroExtend 16).hi = if w.lo.toNat + b.toNat > 255 then w.hi + 1 else w.hi := by
  have hb := b.isLt
  have hw := w.isLt
  have hone : (1 : Byte).toNat = 1 := rfl
  apply BitVec.eq_of_toNat_eq
  rw [Word.toNat_hi, toNat_add_index, Word.toNat_lo]
  split
  · rw [BitVec.toNat_add, Word.toNat_hi, hone]
    omega
  · rw [Word.toNat_hi]
    omega

/-- `m` adds `index` to `base`: its cycles leave the sum in `AD` and the carry of the low bytes in `pageCross`. -/
def Indexes (m : Mem) (s : State) (base : Word) (index : Byte) : Prop :=
  ∃ t, m.resolve true s = .done () t ∧ SameCpu s t ∧ t.latch.ad = base + index.zeroExtend 16 ∧
    t.latch.pageCross = decide (base.lo.toNat + index.toNat > 255)

/-- Absolute indexing (R110, R111). -/
theorem indexes_of_indexed {s : State} {m : Mem} {w : Word} {index : Byte} (hs : s.Calm)
    (hm : m.resolve true s = (s.setAD w).indexed true index) : Indexes m s w index := by
  have hset : SameCpu s (s.setAD w) := (SameCpu.refl hs).latch _
  obtain ⟨t, ht, hst, had, hpc⟩ := indexed_calm (s.setAD w) true index hset.calm
  exact ⟨t, hm.trans ht, hset.trans hst, had, hpc⟩

/-- Indirect indexing (R114): the base is the pointer. -/
theorem izy_indexes {s : State} (hs : s.Calm) (b : Byte) :
    Indexes (.izy b) s (Word.ofBytes (s.spypeek (zeroPage (b + 1))) (s.spypeek (zeroPage b))) s.y := by
  have hset : SameCpu s (s.setPTR b) := (SameCpu.refl hs).latch _
  obtain ⟨t, ht, hst, had⟩ := readPointer_calm (s.setPTR b) hset.calm
  obtain ⟨u, hu, htu, hau, hpc⟩ := indexed_calm t true t.y hst.calm
  rw [hset.spypeek hs, hset.spypeek hs, State.setPTR_ptr] at had
  rw [had, hst.y, State.setPTR_y] at hau hpc
  exact ⟨u, by simp only [Mem.resolve, ht, BusRun.andThen_done, hu], (hset.trans hst).trans htu, hau, hpc⟩

/-- A write cycle is the last of an instruction that updated the registers of `s` before it at most. -/
theorem RunsStoring.of_afterWrite {i : Instr} {s s' u : State} {a : Word} {v : Byte} (hs : s.Calm) (hw : s.mem.wf = true)
    (k : RegsOnly s s') (h : SameCpu s' u) (he : exec i s = .next ((u.afterWrite a v true).setT 0)) :
    RunsStoring i s a v s'.regs := by
  have hmem : u.mem = s.mem := h.mem.trans k.mem
  have hclock : s.sig.clock ≤ u.sig.clock := by rw [← k.sig]; exact h.clock
  have hplatform : u.platform = s.platform := h.platform.trans k.platform
  have hbefore : NothingStored s u :=
    .of_same hs hmem (h.port.trans k.port) (h.params.trans k.params) (congrArg Platform.windows hplatform) hclock
  obtain ⟨memory, ddr, data⟩ := u.afterWrite_stored a v true h.calm.flat (hmem ▸ hw) fun _ _ => h.calm.settled
  refine ⟨_, he, ?_, hbefore.stored ⟨memory, ddr, data⟩, ?_, ?_, ?_, ?_, rfl⟩
  · rw [← h.regs]
    simp [State.regs]
  all_goals simp [h.ir, k.ir, h.jam, k.jam, h.params, k.params, hplatform]

/-- Any store of R274. `s'` is `s` with the registers that the operation `g` between the dummy read and the write leaves, `v` the
register term after it. -/
theorem RunsStoring.of_shStore {i : Instr} {s s' : State} {m : Mem} {reg : State → Byte} {g : State → State} {base : Word}
    {index v : Byte} (hi : exec i s = shStore m reg g s) (hs : s.Calm) (hw : s.mem.wf = true) (hm : Indexes m s base index)
    (k : RegsOnly s s') (hg : ∀ t, SameCpu s t → SameCpu s' (g t) ∧ (g t).latch = t.latch ∧ reg (g t) = v) :
    RunsStoring i s (shAddress s.params.shPageCross base index v) (shValue base v) s'.regs := by
  obtain ⟨t, ht, hst, had, hpc⟩ := hm
  obtain ⟨hgt, hlatch, hreg⟩ := hg t hst
  have hhigh : (if t.latch.pageCross then t.latch.ad.hi else t.latch.ad.hi + 1) = base.hi + 1 := by
    rw [had, hpc, Word.hi_add_zeroExtend]
    by_cases hc : base.lo.toNat + index.toNat > 255 <;> simp [hc]
  have hmode : (g t).params.shPageCross = s.params.shPageCross := by rw [hgt.params, k.params]
  have hval : reg (g t) &&& (base.hi + 1) = shValue base v := by rw [hreg, shValue]
  rw [shStore, ht, BusRun.andThen_done] at hi
  simp only [hlatch, hhigh, hval, hmode] at hi
  rw [hpc, had, Word.lo_add_zeroExtend] at hi
  by_cases hc : base.lo.toNat + index.toNat > 255 ∧ s.params.shPageCross = .andHigh
  · have hu : SameCpu s' ((g t).setAD (Word.ofBytes (shValue base v) (base.lo + index))) := hgt.latch _
    refine .of_afterWrite hs hw k hu ?_
    rw [hi, shAddress, if_pos hc, if_pos (by simp [hc]), State.busWrite_done _ _ _ _ hu.calm.noReset]
    rfl
  · refine .of_afterWrite hs hw k hgt ?_
    rw [hi, shAddress, if_neg hc, if_neg (by simpa using hc), State.busWrite_done _ _ _ _ hgt.calm.noReset, hlatch, had]
    rfl

/-- Settles O59: each form indexes its base, and of the four only TAS writes a register before the store. -/
theorem shStoresUseTheHighByte : Obligations.ShStoresUseTheHighByte := by
  intro s hs hw
  have sha {m : Mem} {base : Word} (hm : Indexes m s base s.y) :
      RunsStoring (.sha m) s (shAddress s.params.shPageCross base s.y (s.a &&& s.x)) (shValue base (s.a &&& s.x)) s.regs :=
    .of_shStore rfl hs hw hm (.refl s) fun t ht => ⟨ht, rfl, congrArg₂ (· &&& ·) ht.a ht.x⟩
  refine ⟨fun w => sha (indexes_of_indexed hs rfl), fun b => sha (izy_indexes hs b), fun w => ?shx, fun w => ?shy,
    fun w => ?tas⟩
  case shx => exact .of_shStore rfl hs hw (indexes_of_indexed hs rfl) (.refl s) fun t ht => ⟨ht, rfl, ht.x⟩
  case shy => exact .of_shStore rfl hs hw (indexes_of_indexed hs rfl) (.refl s) fun t ht => ⟨ht, rfl, ht.y⟩
  case tas =>
    refine .of_shStore rfl hs hw (indexes_of_indexed hs rfl) ((RegsOnly.refl s).setSP (s.a &&& s.x)) fun t ht => ?_
    rw [ht.a, ht.x]
    exact ⟨ht.setSP _, rfl, rfl⟩

/-! ## JAM -/

/-- Settles O60: the meaning of JAM is this one update. -/
theorem jamSetsJamOnly : Obligations.JamSetsJamOnly := fun _ _ => rfl

end Sys2Proof.Machine
end

section
/-! PROOFS. What a step does without an instruction, in any state: it ends, a jammed CPU only lets time pass, and a decided
interrupt is entered (R331, R354, R344). -/

namespace Sys2Proof.Machine

/-- Settles O6: the four branches of a step end in a next state, as every instruction does (`exec_ended`). -/
theorem stepAlwaysAnswersANextState : Obligations.StepAlwaysAnswersANextState := by
  intro s
  simp only [step]
  split_ifs
  · exact ⟨_, rfl⟩
  · exact ⟨_, rfl⟩
  · exact BusRun.outcome_next _
  · cases s.startStep.clearDecision.fetch with
    | done i u =>
      obtain ⟨t, -, ht | ⟨-, ht⟩⟩ := exec_ended i u
      · exact ⟨_, ht⟩
      · exact ⟨_, ht⟩
    | reset u => exact ⟨_, rfl⟩

/-- A step of a jammed CPU that no RESET ends. -/
theorem step_jammed {s : State} (hj : s.jam = true) (hr : s.sig.resetNext = false) :
    step s = .next s.startStep.jammedCycle := by
  simp only [step, State.startStep_sig, State.startStep_jam, hr, hj, Bool.false_eq_true, if_false, if_true]

/-- Settles O15: the one cycle is `Signals.idleCycle`, with the levels that come next. -/
theorem jammedCpuDoesNothing : Obligations.JammedCpuDoesNothing := by
  intro s hj hr
  refine ⟨_, step_jammed hj hr, rfl, rfl, rfl, rfl, rfl, rfl, rfl, rfl, hj, rfl, ?_⟩
  simp only [State.jammedCycle_sig, State.startStep_sig, Signals.idleCycle, Signals.beginNext, Signals.lineAt]
  cases s.sig.inputs with
  | nil => exact ⟨rfl, rfl, rfl, rfl, rfl, rfl, rfl, rfl⟩
  | cons l rest => exact ⟨rfl, rfl, rfl, rfl, rfl, rfl, rfl, rfl⟩

/-- Settles O11: the sequence is that of `step_interrupt_run`. -/
theorem decidedInterruptIsTaken : Obligations.DecidedInterruptIsTaken := by
  intro s hs hw hj hd
  obtain ⟨t, ht, hT, vec, run⟩ := step_interrupt_run s hs hw hj hd
  exact ⟨t, ht, vec, run.vector, run.nmi, run.irq, fun hn => (run.cleared hn).1, { run.toEntered with }, run.ir, hT,
    run.jam.trans hj, run.params, run.platform, run.decision⟩

end Sys2Proof.Machine
end

section
/-! PROOFS. Runs of bus cycles with their polls: what the signals are after a number of cycles, whatever the accesses were
(R53, R337, R340). -/

namespace Sys2Proof.Machine

/-! ## Starting a cycle -/

/-- A cycle of the CPU starts: that of a read, after the cycles in which RDY holds it (R317), or that of a write (R40). -/
def Signals.Starts (g h : Signals) : Prop := h = g.ready ∨ h = g.beginNext

@[simp] theorem Signals.readyFrom_irqPending (g : Signals) (ins : List Lines) :
    (g.readyFrom ins).irqPending = g.irqPending := by
  induction ins generalizing g with
  | nil => rfl
  | cons l rest ih =>
    simp only [readyFrom]
    cases l.rdy
    · exact ih (g.held l rest)
    · rfl

@[simp] theorem Signals.beginNext_irqPending (g : Signals) : g.beginNext.irqPending = g.irqPending := by
  unfold beginNext; cases g.inputs <;> rfl

section starts
variable {g h : Signals}

theorem Signals.Starts.noReset (k : g.Starts h) (hg : g.noReset) : h.noReset := by
  rcases k with rfl | rfl
  · exact g.ready_noReset hg
  · exact g.beginNext_noReset hg

theorem Signals.Starts.pending (k : g.Starts h) (hg : g.nmiPending = true) : h.nmiPending = true := by
  rcases k with rfl | rfl
  · exact g.readyFrom_pending g.inputs hg
  · rw [g.beginNext_nmiPending, hg]

theorem Signals.Starts.intDecision (k : g.Starts h) : h.intDecision = g.intDecision := by
  rcases k with rfl | rfl
  · exact g.ready_intDecision
  · exact g.beginNext_intDecision

theorem Signals.Starts.irqPending (k : g.Starts h) : h.irqPending = g.irqPending := by
  rcases k with rfl | rfl
  · exact g.readyFrom_irqPending g.inputs
  · exact g.beginNext_irqPending

theorem Signals.Starts.eq_beginNext (k : g.Starts h) (hg : g.neverHeld) : h = g.beginNext := by
  rcases k with rfl | rfl
  · exact g.ready_eq_beginNext hg
  · rfl

end starts

/-- The start of a cycle that RDY does not hold, field by field. -/
theorem Signals.beginNext_eq (g : Signals) : g.beginNext = g.begin (g.lineAt 0) (g.inputs.drop 1) := by
  unfold beginNext lineAt
  cases g.inputs <;> rfl

/-! ## The poll, and runs of cycles -/

/-- The signals after a poll with the mask `i` (R340). -/
def Signals.polled (g : Signals) (k : IrqSample) (i : Bool) : Signals :=
  { g with
    irqPending := g.irqHist.sample k && !i
    intDecision := g.intDecision || g.nmiPending || (g.irqHist.sample k && !i) }

/-- `n` cycles lead from `g` to `h`; those in the list poll, with the mask `mask`, in this order (R340). -/
inductive Signals.Passes (k : IrqSample) (mask : Bool) (g : Signals) : List Nat → Nat → Signals → Prop
  | start : Passes k mask g [] 0 g
  | quiet {polls : List Nat} {n : Nat} {h h' : Signals} :
    Passes k mask g polls n h → h.Starts h' → Passes k mask g polls (n + 1) h'.finish
  | poll {polls : List Nat} {n : Nat} {h h' : Signals} :
    Passes k mask g polls n h → h.Starts h' → Passes k mask g (polls ++ [n]) (n + 1) (h'.polled k mask).finish

section passes
variable {k : IrqSample} {mask : Bool} {g h : Signals} {polls : List Nat} {n : Nat}

theorem Signals.Passes.trans {polls' : List Nat} {n' : Nat} {h' : Signals} (p : g.Passes k mask polls n h)
    (q : h.Passes k mask polls' n' h') : g.Passes k mask (polls ++ polls'.map (n + ·)) (n + n') h' := by
  induction q with
  | start => simpa using p
  | quiet _ hs ih => exact ih.quiet hs
  | poll _ hs ih =>
    rw [List.map_append, ← List.append_assoc]
    exact ih.poll hs

theorem Signals.Passes.noReset (p : g.Passes k mask polls n h) (hg : g.noReset) : h.noReset := by
  induction p with
  | start => exact hg
  | quiet _ hs ih => exact hs.noReset ih
  | poll _ hs ih => exact hs.noReset ih

/-- A pending NMI stays pending, and the first poll decides it (R338, R340). -/
theorem Signals.Passes.pending (p : g.Passes k mask polls n h) (hg : g.nmiPending = true) :
    h.nmiPending = true ∧ (polls ≠ [] → h.intDecision = true) := by
  induction p with
  | start => exact ⟨hg, fun hn => absurd rfl hn⟩
  | quiet _ hs ih =>
    obtain ⟨pending, decided⟩ := ih
    exact ⟨by simp [hs.pending pending], fun hn => hs.intDecision.trans (decided hn)⟩
  | poll _ hs ih =>
    obtain ⟨pending, -⟩ := ih
    exact ⟨by simp [polled, hs.pending pending], fun _ => by simp [polled, hs.pending pending]⟩

/-- Without a poll the last decision stays (R39). -/
theorem Signals.Passes.undecided (p : g.Passes k mask polls n h) (hp : polls = []) :
    h.intDecision = g.intDecision ∧ h.irqPending = g.irqPending := by
  induction p with
  | start => exact ⟨rfl, rfl⟩
  | quiet _ hs ih =>
    obtain ⟨decision, irq⟩ := ih hp
    exact ⟨hs.intDecision.trans decision, hs.irqPending.trans irq⟩
  | poll => simp at hp

end passes

/-! ## Runs that RDY does not hold, in numbers -/

/-- The level of the NMI line in the cycle before the cycle `n` of those to come: what `nmiPrev` holds then (R38). -/
def Signals.nmiLevel (g : Signals) (n : Nat) : Bool :=
  match n with
  | 0 => g.nmiPrev
  | j + 1 => (g.lineAt j).nmi

theorem Signals.nmiEdge_eq (g : Signals) (n : Nat) : g.nmiEdge n = ((g.lineAt n).nmi && !g.nmiLevel n) := by
  cases n <;> rfl

theorem Signals.nmiBefore_succ (g : Signals) (n : Nat) : g.nmiBefore (n + 1) = (g.nmiBefore n || g.nmiEdge n) := by
  simp [nmiBefore, List.range_succ, Bool.or_assoc]

theorem Signals.irqSeen_one_succ (g : Signals) (n : Nat) : g.irqSeen .one (n + 1) = (g.lineAt n).irq :=
  List.getD_map g.inputs Lines.rest fun l => l.irq

/-- `h` is `g` after `n` cycles that RDY did not hold, but for what the polls have written (R53, R337). -/
structure Signals.After (g : Signals) (n : Nat) (h : Signals) : Prop where
  inputs     : h.inputs = g.inputs.drop n
  nmiPrev    : h.nmiPrev = g.nmiLevel n
  nmiPending : h.nmiPending = g.nmiBefore n
  h0         : h.irqHist.h0 = g.irqSeen .one n
  h1         : h.irqHist.h1 = g.irqSeen .two n

section after
variable {g h : Signals} {n : Nat}

theorem Signals.After.zero (g : Signals) : g.After 0 g := ⟨rfl, rfl, by simp [nmiBefore], rfl, rfl⟩

theorem Signals.After.neverHeld (a : g.After n h) (hg : g.neverHeld) : h.neverHeld := by
  intro l hl
  rw [a.inputs] at hl
  exact hg l (List.mem_of_mem_drop hl)

theorem Signals.After.lineAt (a : g.After n h) (j : Nat) : h.lineAt j = g.lineAt (n + j) := by
  simp only [Signals.lineAt, a.inputs, List.getD_eq_getElem?_getD, List.getElem?_drop]

theorem Signals.After.nmiEdge (a : g.After n h) (j : Nat) : h.nmiEdge j = g.nmiEdge (n + j) := by
  rw [nmiEdge_eq, nmiEdge_eq, a.lineAt]
  cases j with
  | zero => rw [nmiLevel, a.nmiPrev, Nat.add_zero]
  | succ j => rw [nmiLevel, a.lineAt]; rfl

/-- The levels that the next cycle polls (R340). -/
theorem Signals.After.sample (a : g.After n h) (k : IrqSample) : h.beginNext.irqHist.sample k = g.irqSeen k n := by
  rw [beginNext_eq, begin_irqHist]
  cases k with
  | two => exact a.h1
  | one => exact a.h0

/-- One cycle more. -/
theorem Signals.After.next {f : Signals} (a : g.After n h) (hi : f.inputs = h.beginNext.inputs)
    (hl : f.lines = h.beginNext.lines) (hh : f.irqHist = h.beginNext.irqHist) (hp : f.nmiPrev = h.beginNext.nmiPrev)
    (hn : f.nmiPending = h.beginNext.nmiPending) : g.After (n + 1) f.finish := by
  have line := a.lineAt 0
  rw [beginNext_eq] at hi hl hh hp hn
  refine ⟨?inputs, ?prev, ?pending, ?h0, ?h1⟩
  case inputs => rw [finish_inputs, hi, begin_inputs, a.inputs, List.drop_drop]
  case prev => rw [finish_nmiPrev, hl, begin_lines, line]; rfl
  case pending =>
    rw [finish_nmiPending, hl, hp, hn, begin_lines, begin_nmiPrev, begin_nmiPending, line, a.nmiPending, a.nmiPrev,
      nmiBefore_succ, nmiEdge_eq, Nat.add_zero]
  case h0 => rw [finish_irqHist, hh, begin_irqHist, IrqHist.shift_h0, line, irqSeen_one_succ, Nat.add_zero]
  case h1 => rw [finish_irqHist, hh, begin_irqHist, IrqHist.shift_h1, a.h0]; rfl

end after

/-- The IRQ part of a poll in the cycle `c` of those to come (R340). -/
def Signals.irqPoll (g : Signals) (k : IrqSample) (mask : Bool) (c : Nat) : Bool := g.irqSeen k c && !mask

/-- What the polls of a run that RDY does not hold have decided (R340): each finds the NMI flip-flop and the IRQ level of its cycle. -/
structure Signals.Decided (k : IrqSample) (mask : Bool) (g : Signals) (polls : List Nat) (h : Signals) : Prop where
  decision   : h.intDecision = (g.intDecision || polls.any fun c => g.nmiBefore c || g.irqPoll k mask c)
  irqPending : h.irqPending = (polls.getLast?.map (g.irqPoll k mask)).getD g.irqPending

theorem Signals.Passes.after_decided {k : IrqSample} {mask : Bool} {g h : Signals} {polls : List Nat} {n : Nat}
    (p : g.Passes k mask polls n h) (hg : g.neverHeld) : g.After n h ∧ g.Decided k mask polls h := by
  induction p with
  | start => exact ⟨.zero g, by simp, rfl⟩
  | quiet _ hs ih =>
    obtain ⟨a, d⟩ := ih
    obtain rfl := hs.eq_beginNext (a.neverHeld hg)
    exact ⟨a.next rfl rfl rfl rfl rfl, by simp [d.decision], by simp [d.irqPending]⟩
  | poll _ hs ih =>
    obtain ⟨a, d⟩ := ih
    obtain rfl := hs.eq_beginNext (a.neverHeld hg)
    refine ⟨a.next rfl rfl rfl rfl rfl, ?_, ?_⟩
    · simp [polled, a.sample, a.nmiPending, d.decision, irqPoll, Bool.or_assoc]
    · simp [polled, a.sample, irqPoll]

end Sys2Proof.Machine
end

section
/-! PROOFS. The cycles of the fetch, the addressing modes, the stack and the shapes of instruction when no RESET comes: how many
there are, and which of them poll (R290 to R312, R340). -/

namespace Sys2Proof.Machine

/-! ## Runs of cycles on states -/

/-- The run ends with no RESET, in a state with `Q`. -/
def BusRun.Reaches {α : Type} (r : BusRun α) (Q : State → Prop) : Prop := ∃ v t, r = .done v t ∧ Q t

theorem BusRun.Reaches.andThen {α β : Type} {r : BusRun α} {f : α → State → BusRun β} {Q R : State → Prop}
    (hr : r.Reaches Q) (hf : ∀ v t, Q t → (f v t).Reaches R) : (r.andThen f).Reaches R := by
  obtain ⟨v, t, rfl, ht⟩ := hr
  exact hf v t ht

theorem BusRun.Reaches.mono {α : Type} {r : BusRun α} {Q R : State → Prop} (hr : r.Reaches Q) (h : ∀ t, Q t → R t) :
    r.Reaches R := by
  obtain ⟨v, t, ht, hq⟩ := hr
  exact ⟨v, t, ht, h t hq⟩

/-- `n` bus cycles lead from `s` to `t`; those in the list poll, with the mask `mask`. -/
structure Ran (s : State) (mask : Bool) (polls : List Nat) (n : Nat) (t : State) : Prop where
  sig    : s.sig.Passes s.params.irqSample mask polls n t.sig
  trace  : t.trace.length = s.trace.length + n
  params : t.params = s.params
  ir     : t.ir = s.ir

section ran
variable {s t u : State} {mask : Bool} {polls : List Nat} {n : Nat}

theorem Ran.refl (s : State) (mask : Bool) : Ran s mask [] 0 s := ⟨.start, rfl, rfl, rfl⟩

/-- Registers, latches, memory and the port are no part of it. -/
theorem Ran.update (h : Ran s mask polls n t) (hg : u.sig = t.sig := by rfl) (ht : u.trace = t.trace := by rfl)
    (hq : u.params = t.params := by rfl) (hi : u.ir = t.ir := by rfl) : Ran s mask polls n u :=
  ⟨hg ▸ h.sig, by rw [ht, h.trace], hq.trans h.params, hi.trans h.ir⟩

theorem Ran.trans {polls' : List Nat} {n' : Nat} (h : Ran s mask polls n t) (k : Ran t mask polls' n' u) :
    Ran s mask (polls ++ polls'.map (n + ·)) (n + n') u :=
  ⟨h.sig.trans (h.params ▸ k.sig), by rw [k.trace, h.trace]; omega, k.params.trans h.params, k.ir.trans h.ir⟩

theorem Ran.noReset (h : Ran s mask polls n t) (hs : s.sig.noReset) : t.sig.noReset := h.sig.noReset hs

theorem Ran.afterRead (h : Ran s mask polls n t) (a : Word) : Ran s mask polls (n + 1) (t.afterRead a false) :=
  ⟨h.sig.quiet (.inl rfl), by rw [State.afterRead_trace_length, h.trace]; rfl, by rw [State.afterRead_params, h.params],
    by rw [State.afterRead_ir, h.ir]⟩

theorem Ran.afterWrite (h : Ran s mask polls n t) (a : Word) (v : Byte) : Ran s mask polls (n + 1) (t.afterWrite a v false) :=
  ⟨h.sig.quiet (.inr rfl), by rw [State.afterWrite_trace_length, h.trace]; rfl, by rw [State.afterWrite_params, h.params],
    by rw [State.afterWrite_ir, h.ir]⟩

theorem Ran.read (h : Ran s mask polls n t) (hs : s.sig.noReset) (a : Word) :
    (t.busRead a).Reaches (Ran s mask polls (n + 1)) :=
  ⟨_, _, t.busRead_done a false (h.noReset hs), h.afterRead a⟩

theorem Ran.afterPollRead (h : Ran s t.p.i polls n t) (a : Word) :
    Ran s t.p.i (polls ++ [n]) (n + 1) (t.afterRead a true) where
  sig := by
    have poll := h.sig.poll (.inl rfl)
    rw [← h.params] at poll ⊢
    exact poll
  trace := by rw [State.afterRead_trace_length, h.trace]; rfl
  params := by rw [State.afterRead_params, h.params]
  ir := by rw [State.afterRead_ir, h.ir]

theorem Ran.afterPollWrite (h : Ran s t.p.i polls n t) (a : Word) (v : Byte) :
    Ran s t.p.i (polls ++ [n]) (n + 1) (t.afterWrite a v true) where
  sig := by
    have poll := h.sig.poll (.inr rfl)
    rw [← h.params] at poll ⊢
    exact poll
  trace := by rw [State.afterWrite_trace_length, h.trace]; rfl
  params := by rw [State.afterWrite_params, h.params]
  ir := by rw [State.afterWrite_ir, h.ir]

end ran

/-- `n` cycles without a poll lead from `s` to `t`, and `I` is as before. -/
structure Quiet (s : State) (n : Nat) (t : State) : Prop where
  ran : ∀ mask, Ran s mask [] n t
  i   : t.p.i = s.p.i

section quiet
variable {s t u : State} {n : Nat}

theorem Quiet.refl (s : State) : Quiet s 0 s := ⟨.refl s, rfl⟩

theorem Quiet.update (h : Quiet s n t) (hg : u.sig = t.sig := by rfl) (ht : u.trace = t.trace := by rfl)
    (hq : u.params = t.params := by rfl) (hi : u.ir = t.ir := by rfl) (hp : u.p.i = t.p.i := by rfl) : Quiet s n u :=
  ⟨fun mask => (h.ran mask).update hg ht hq hi, hp.trans h.i⟩

theorem Quiet.fixHigh (h : Quiet s n t) : Quiet s n t.fixHigh := by
  unfold State.fixHigh
  split_ifs
  · exact h.update
  · exact h

variable (h : Quiet s n t) (hs : s.sig.noReset)
include h hs

theorem Quiet.noReset : t.sig.noReset := (h.ran true).noReset hs

theorem Quiet.read (a : Word) : (t.busRead a).Reaches (Quiet s (n + 1)) :=
  ⟨_, _, t.busRead_done a false (h.noReset hs), fun mask => (h.ran mask).afterRead a, by rw [State.afterRead_p, h.i]⟩

theorem Quiet.write (a : Word) (v : Byte) : (t.busWrite a v).Reaches (Quiet s (n + 1)) :=
  ⟨_, _, t.busWrite_done a v false (h.noReset hs), fun mask => (h.ran mask).afterWrite a v, by rw [State.afterWrite_p, h.i]⟩

/-- A read with the poll leaves the `I` that it polled with. -/
theorem Quiet.pollRead_keeps (a : Word) :
    (t.busRead a true).Reaches fun u => Ran s s.p.i [n] (n + 1) u ∧ u.p.i = s.p.i :=
  ⟨_, _, t.busRead_done a true (h.noReset hs), h.i ▸ (h.ran t.p.i).afterPollRead a, by rw [State.afterRead_p, h.i]⟩

theorem Quiet.pollRead (a : Word) : (t.busRead a true).Reaches (Ran s s.p.i [n] (n + 1)) :=
  (h.pollRead_keeps hs a).mono fun _ k => k.1

theorem Quiet.pollWrite (a : Word) (v : Byte) : (t.busWrite a v true).Reaches (Ran s s.p.i [n] (n + 1)) :=
  ⟨_, _, t.busWrite_done a v true (h.noReset hs), h.i ▸ (h.ran t.p.i).afterPollWrite a v⟩

/-! ## The stack and the operands -/

theorem Quiet.push (v : Byte) : (t.push v).Reaches (Quiet s (n + 1)) :=
  (h.write hs _ v).andThen fun _ _ k => ⟨_, _, rfl, k.update⟩

theorem Quiet.pollPush (v : Byte) : (t.push v true).Reaches (Ran s s.p.i [n] (n + 1)) :=
  (h.pollWrite hs _ v).andThen fun _ _ k => ⟨_, _, rfl, k.update⟩

theorem Quiet.pull : t.pull.Reaches (Quiet s (n + 1)) := (h.update : Quiet s n (t.setSP (t.sp + 1))).read hs _

theorem Quiet.pollPull : (t.pull true).Reaches (Ran s s.p.i [n] (n + 1)) :=
  (h.update : Quiet s n (t.setSP (t.sp + 1))).pollRead hs _

end quiet

/-- The cycles of an index addition: the dummy read, unless it is left out because nothing carries (R297, R301). -/
def indexCycles (always : Bool) (base : Word) (idx : Byte) : Nat :=
  if always || decide (base.lo.toNat + idx.toNat > 0xFF) then 1 else 0

theorem Quiet.indexed {s t : State} {n : Nat} (h : Quiet s n t) (hs : s.sig.noReset) (always : Bool) (idx : Byte) :
    (t.indexed always idx).Reaches (Quiet s (n + indexCycles always t.latch.ad idx)) := by
  have k : Quiet s n (t.addIndex idx) := h.update
  unfold State.indexed indexCycles
  by_cases hc : (always || decide (t.latch.ad.lo.toNat + idx.toNat > 0xFF)) = true
  · rw [if_pos hc]
    dsimp only
    rw [if_pos (show (always || (t.addIndex idx).latch.pageCross) = true from hc)]
    exact (k.read hs _).andThen fun _ _ r => ⟨_, _, rfl, r.fixHigh⟩
  · rw [if_neg hc]
    dsimp only
    rw [if_neg (show ¬(always || (t.addIndex idx).latch.pageCross) = true from hc)]
    exact ⟨_, _, rfl, k⟩

theorem Quiet.readPointer {s t : State} {n : Nat} (h : Quiet s n t) (hs : s.sig.noReset) :
    t.readPointer.Reaches (Quiet s (n + 2)) :=
  (h.read hs _).andThen fun _ _ k => ((k.update : Quiet s (n + 1) (State.setAD _ _)).read hs _).andThen fun _ _ l =>
    ⟨_, _, rfl, l.update⟩

theorem Quiet.zeroPageIndexed {s t : State} {n : Nat} (h : Quiet s n t) (hs : s.sig.noReset) (b idx : Byte) :
    (t.zeroPageIndexed b idx).Reaches (Quiet s (n + 1)) :=
  ((h.update : Quiet s n (t.setAD (zeroPage b))).read hs _).andThen fun _ _ k => ⟨_, _, rfl, k.update⟩

/-- The cycles between the operand fetch and the access (R294 to R303). -/
def memCycles (m : Mem) (always : Bool) (s : State) : Nat :=
  match m with
  | .zp _ | .abs _ => 0
  | .zpx _ | .zpy _ => 1
  | .abx _ | .aby _ => if always || m.crossesPage s then 1 else 0
  | .izx _ => 3
  | .izy _ => 2 + if always || m.crossesPage s then 1 else 0

/-- The cycles before the access poll nothing. How many they are `memCycles` says in calm; else a pointer byte may change between
now and the cycle that reads it. -/
theorem resolve_quiet (m : Mem) (always : Bool) (s : State) (hs : s.sig.noReset) :
    (m.resolve always s).Reaches fun t => ∃ n, Quiet s n t ∧ (s.Calm → n = memCycles m always s) := by
  cases m with
  | zp b | abs w => exact ⟨_, _, rfl, 0, (Quiet.refl s).update, fun _ => rfl⟩
  | zpx b | zpy b => exact ((Quiet.refl s).zeroPageIndexed hs b _).mono fun _ k => ⟨1, k, fun _ => rfl⟩
  | abx w | aby w =>
    refine (((Quiet.refl s).update : Quiet s 0 (s.setAD w)).indexed hs always _).mono fun _ k => ⟨_, k, fun _ => ?_⟩
    exact Nat.zero_add _
  | izx b =>
    exact (((Quiet.refl s).update : Quiet s 0 (s.setPTR b)).read hs _).andThen fun _ _ k =>
      ((k.update : Quiet s 1 (State.setPTR _ _)).readPointer hs).mono fun _ l => ⟨3, l, fun _ => rfl⟩
  | izy b =>
    have k : Quiet s 0 (s.setPTR b) := (Quiet.refl s).update
    obtain ⟨_, t, ht, q⟩ := k.readPointer hs
    simp only [Mem.resolve, ht, BusRun.andThen_done]
    refine (q.indexed hs always t.y).mono fun u l => ⟨_, l, fun calm => ?_⟩
    obtain ⟨t', ht', same, had⟩ := readPointer_calm (s.setPTR b) (calm.of_regsOnly ⟨rfl, rfl, rfl, rfl, rfl, rfl, rfl⟩)
    obtain ⟨-, rfl⟩ := BusRun.done.inj (ht.symm.trans ht')
    rw [had, same.y, indexCycles, Word.lo_ofBytes]
    rfl

end Sys2Proof.Machine
end

section
/-! PROOFS. Every instruction that polls after its fetch polls once, in its last cycle (R292 to R310, R340); a branch only if it leaves
the page (R311, R343). -/

namespace Sys2Proof.Machine

/-! ## Shapes of instruction -/

/-- The cycles that lead from `s` to `t` poll in the last of them only; in calm they are `count` cycles. -/
def EndsPolling (s : State) (mask : Bool) (count : Nat) (t : State) : Prop :=
  ∃ n, Ran s mask [n] (n + 1) t ∧ (s.Calm → n + 1 = count)

theorem Ran.endsPolling {s t : State} {mask : Bool} {n : Nat} (h : Ran s mask [n] (n + 1) t) : EndsPolling s mask (n + 1) t :=
  ⟨n, h, fun _ => rfl⟩

theorem EndsPolling.update {s t u : State} {mask : Bool} {count : Nat} (h : EndsPolling s mask count t)
    (hg : u.sig = t.sig := by rfl) (ht : u.trace = t.trace := by rfl) (hq : u.params = t.params := by rfl)
    (hi : u.ir = t.ir := by rfl) : EndsPolling s mask count u := by
  obtain ⟨n, r, hn⟩ := h
  exact ⟨n, r.update hg ht hq hi, hn⟩

theorem BusRun.Reaches.outcome {α : Type} {r : BusRun α} {Q : State → Prop} (hr : r.Reaches Q)
    (hq : ∀ t, Q t → Q (t.setT 0)) : Completes r.outcome Q := by
  obtain ⟨v, t, rfl, ht⟩ := hr
  exact ⟨_, rfl, hq t ht⟩

theorem BusRun.Reaches.endsPolling {α : Type} {r : BusRun α} {s : State} {mask : Bool} {count : Nat}
    (hr : r.Reaches (EndsPolling s mask count)) : Completes r.outcome (EndsPolling s mask count) :=
  hr.outcome fun _ h => h.update

theorem Completes.mono {o : Host.Outcome State Fault Refusal} {Q R : State → Prop} (h : Completes o Q)
    (hq : ∀ t, Q t → R t) :
    Completes o R := by
  obtain ⟨t, ht, q⟩ := h
  exact ⟨t, ht, hq t q⟩

section shapes
variable {s : State} (hs : s.sig.noReset)
include hs

theorem readInstr_polls (m : Mem) {f : Byte → State → State}
    (hf : ∀ v t, EndsPolling s s.p.i (memCycles m false s + 1) t → EndsPolling s s.p.i (memCycles m false s + 1) (f v t)) :
    Completes (readInstr m.load f s) (EndsPolling s s.p.i (memCycles m false s + 1)) := by
  refine BusRun.Reaches.endsPolling (BusRun.Reaches.andThen ?load fun v t k => ⟨_, _, rfl, hf v t k⟩)
  refine (resolve_quiet m false s hs).andThen fun _ t k => ?_
  obtain ⟨n, q, hn⟩ := k
  exact (q.pollRead hs _).mono fun u r => ⟨n, r, fun calm => congrArg (· + 1) (hn calm)⟩

theorem writeInstr_polls (m : Mem) (v : Byte) :
    Completes (writeInstr m v s) (EndsPolling s s.p.i (memCycles m true s + 1)) := by
  refine BusRun.Reaches.endsPolling ((resolve_quiet m true s hs).andThen fun _ t k => ?_)
  obtain ⟨n, q, hn⟩ := k
  exact (q.pollWrite hs _ v).mono fun u r => ⟨n, r, fun calm => congrArg (· + 1) (hn calm)⟩

theorem modifyInstr_polls (m : Mem) {f : Flags → Byte → Byte × Flags} {acc : Byte → State → State}
    (hf : ∀ p v, (f p v).2.i = p.i)
    (hacc : ∀ v t, EndsPolling s s.p.i (memCycles m true s + 3) t → EndsPolling s s.p.i (memCycles m true s + 3) (acc v t)) :
    Completes (modifyInstr m f acc s) (EndsPolling s s.p.i (memCycles m true s + 3)) := by
  refine BusRun.Reaches.endsPolling ((resolve_quiet m true s hs).andThen fun _ t k => ?_)
  obtain ⟨n, q, hn⟩ := k
  refine (q.read hs _).andThen fun old u qu => ?_
  refine (qu.update (u := u.setDL old)).write hs _ _ |>.andThen fun _ w qw => ?_
  refine (qw.update (u := w.setP (f w.p w.latch.dl).2) rfl rfl rfl rfl (hf _ _)).pollWrite hs _ _ |>.andThen fun _ x r => ?_
  exact ⟨_, _, rfl, hacc _ x ⟨n + 2, r, fun calm => congrArg (· + 3) (hn calm)⟩⟩

theorem impliedInstr_polls {f : State → State} (hf : ∀ t, Ran s s.p.i [0] 1 t → Ran s s.p.i [0] 1 (f t)) :
    Completes (impliedInstr f s) (Ran s s.p.i [0] 1) :=
  BusRun.Reaches.outcome (((Quiet.refl s).pollRead hs _).andThen fun _ t r => ⟨_, _, rfl, hf t r⟩) fun _ h => h.update

theorem shStore_polls (m : Mem) {reg : State → Byte} {g : State → State} (hg : ∀ n t, Quiet s n t → Quiet s n (g t)) :
    Completes (shStore m reg g s) (EndsPolling s s.p.i (memCycles m true s + 1)) := by
  refine BusRun.Reaches.endsPolling ((resolve_quiet m true s hs).andThen fun _ t k => ?_)
  obtain ⟨n, q, hn⟩ := k
  have count : s.Calm → n + 1 = memCycles m true s + 1 := fun calm => congrArg (· + 1) (hn calm)
  dsimp only
  split
  · exact ((hg n t q).update.pollWrite hs _ _).mono fun u r => ⟨n, r, count⟩
  · exact ((hg n t q).pollWrite hs _ _).mono fun u r => ⟨n, r, count⟩

theorem pushInstr_polls (v : Byte) : Completes (pushInstr v s) (EndsPolling s s.p.i 2) :=
  BusRun.Reaches.endsPolling <| ((Quiet.refl s).read hs _).andThen fun _ _ q => (q.pollPush hs v).mono fun _ r => r.endsPolling

theorem pullInstr_polls {f : Byte → State → State} (hf : ∀ v t, EndsPolling s s.p.i 3 t → EndsPolling s s.p.i 3 (f v t)) :
    Completes (pullInstr f s) (EndsPolling s s.p.i 3) :=
  BusRun.Reaches.endsPolling <| ((Quiet.refl s).read hs _).andThen fun _ _ q => (q.read hs _).andThen fun _ _ q' =>
    (q'.pollPull hs).andThen fun v t r => ⟨_, _, rfl, hf v t r.endsPolling⟩

theorem jmpInd_polls (w : Word) : Completes (exec (.jmpInd w) s) (EndsPolling s s.p.i 2) :=
  BusRun.Reaches.endsPolling <| ((Quiet.refl s).update.read hs _).andThen fun _ _ q =>
    (q.update.pollRead hs _).andThen fun _ _ r => ⟨_, _, rfl, r.update.endsPolling⟩

theorem jsr_polls (w : Word) : Completes (exec (.jsr w) s) (EndsPolling s s.p.i 4) :=
  BusRun.Reaches.endsPolling <| ((Quiet.refl s).update.read hs _).andThen fun _ _ q => (q.push hs _).andThen fun _ _ q1 =>
    (q1.push hs _).andThen fun _ _ q2 => (q2.pollRead hs _).andThen fun _ _ r => ⟨_, _, rfl, r.update.endsPolling⟩

theorem rts_polls : Completes (exec .rts s) (EndsPolling s s.p.i 5) :=
  BusRun.Reaches.endsPolling <| ((Quiet.refl s).read hs _).andThen fun _ _ q => (q.read hs _).andThen fun _ _ q1 =>
    (q1.pull hs).andThen fun _ _ q2 => (q2.update.pull hs).andThen fun _ _ q3 =>
    (q3.update.pollRead hs _).andThen fun _ _ r => ⟨_, _, rfl, r.update.endsPolling⟩

/-- RTI polls with the `I` that it restored, which is that of its end (R342). -/
theorem rti_polls : Completes (exec .rti s) fun t => EndsPolling s t.p.i 5 t := by
  refine BusRun.Reaches.outcome ?_ fun _ h => h.update
  refine ((Quiet.refl s).read hs _).andThen fun _ _ q => (q.read hs _).andThen fun _ _ q1 => (q1.pull hs).andThen fun v t q2 => ?_
  have restored : Quiet (t.setP (Flags.ofByte v)) 0 (t.setP (Flags.ofByte v)) := .refl _
  have hr : (t.setP (Flags.ofByte v)).sig.noReset := q2.noReset hs
  refine (restored.pull hr).andThen fun lo u q3 => ?_
  have q4 : Quiet (t.setP (Flags.ofByte v)) 1 ((u.setPC (Word.ofBytes u.pc.hi lo)).setSP (u.sp + 1)) := q3.update
  refine (q4.pollRead_keeps hr _).andThen fun hi x k => ⟨_, _, rfl, ?_⟩
  obtain ⟨r, hi⟩ := k
  have whole := ((q2.ran _).update (u := t.setP (Flags.ofByte v))).trans r
  rw [← hi] at whole
  exact whole.update.endsPolling

end shapes

end Sys2Proof.Machine
end

section
/-! PROOFS. The polls of every instruction after its fetch: which instructions poll there, and that they do so once, in their last
cycle (R292 to R310, R340); a branch only when it leaves the page (R311, R343). -/

namespace Sys2Proof

open Machine

/-- The cycles after the fetch, by the shape of the instruction (R292 to R310, R316); a branch's are in
`branch_in_page` and `branch_across_pages`. -/
def Instr.cyclesAfterFetch (i : Instr) (s : State) : Nat :=
  match i with
  | .lda o | .ldx o | .ldy o | .adc o | .sbc o | .and o | .ora o | .eor o | .cmp o | .cpx o | .cpy o =>
    match o with
    | .imm _ => 0
    | .mem m => memCycles m false s + 1
  | .bit m | .lax m | .nopRead _ m => memCycles m false s + 1
  | .las w => memCycles (.aby w) false s + 1
  | .sta m | .stx m | .sty m | .sax m | .sha m => memCycles m true s + 1
  | .shx w | .tas w => memCycles (.aby w) true s + 1
  | .shy w => memCycles (.abx w) true s + 1
  | .asl t | .lsr t | .rol t | .ror t =>
    match t with
    | .acc => 1
    | .mem m => memCycles m true s + 3
  | .inc m | .dec m | .slo m | .rla m | .sre m | .rra m | .dcp m | .isc m => memCycles m true s + 3
  | .tax | .tay | .txa | .tya | .tsx | .txs | .inx | .iny | .dex | .dey | .clc | .sec | .cli | .sei | .clv | .cld | .sed
  | .nop _ => 1
  | .pha | .php => 2
  | .pla | .plp => 3
  | .jmpInd _ => 2
  | .jsr _ => 4
  | .rts | .rti => 5
  | .brk => 6
  | _ => 0

/-- The instruction polls in a cycle after its fetch, whatever the state is: not one of those whose last cycle is the fetch of the
operand (R293, R309), no branch (R311), not BRK or JAM (R312, R275). -/
def Instr.pollsAfterFetch (i : Instr) : Bool :=
  !i.fetchPolls && match i with
    | .brk | .jam _ => false
    | _ => true

/-- The four ways to poll: not at all, after the fetch, in the fetch. -/
theorem Instr.poll_kinds (i : Instr) : i = .brk ∨ (∃ k, i = .jam k) ∨ i.pollsAfterFetch = true ∨ i.fetchPolls = true := by
  cases hf : i.fetchPolls with
  | true => exact .inr (.inr (.inr rfl))
  | false =>
    unfold pollsAfterFetch
    rw [hf]
    split
    · exact .inl rfl
    · exact .inr (.inl ⟨_, rfl⟩)
    · exact .inr (.inr (.inl rfl))

theorem Instr.fetchPolls_of_pollsAfterFetch {i : Instr} (h : i.pollsAfterFetch = true) : i.fetchPolls = false :=
  Bool.not_eq_true' _ ▸ (Bool.and_eq_true_iff.1 h).1

theorem Instr.branches_of_pollsAfterFetch {i : Instr} (h : i.pollsAfterFetch = true) (p : Flags) : i.branches p = none := by
  cases i with
  | bpl | bmi | bvc | bvs | bcc | bcs | bne | beq => cases h
  | _ => rfl

end Sys2Proof

namespace Sys2Proof.Machine

/-- The mask of the poll of `i` on its way from `s` to `t` (R342). -/
def pollMask (i : Instr) (s t : State) : Bool :=
  match i with
  | .rti => t.p.i
  | _ => s.p.i

/-- The implied and accumulator forms of two cycles poll in their second (R292). -/
theorem exec_implied (i : Instr) (s : State) (hs : s.sig.noReset) (hi : i.isImplied = true) :
    Completes (exec i s) (Ran s s.p.i [0] 1) := by
  unfold exec
  cases i with
  | tax | tay | txa | tya | tsx | txs | inx | iny | dex | dey | clc | sec | cli | sei | clv | cld | sed | nop _ =>
    exact impliedInstr_polls hs fun _ h => h.update
  | asl o | lsr o | rol o | ror o =>
    cases o with
    | acc => exact impliedInstr_polls hs fun _ h => h.update
    | mem m => cases hi
  | _ => cases hi

/-- Every instruction that polls after its fetch polls in its last cycle only. -/
theorem exec_polls (i : Instr) (s : State) (hs : s.sig.noReset) (hi : i.pollsAfterFetch = true) :
    Completes (exec i s) fun t => EndsPolling s (pollMask i s t) (i.cyclesAfterFetch s) t := by
  unfold exec
  cases i with
  | lda o | ldx o | ldy o | adc o | sbc o | and o | ora o | eor o | cmp o | cpx o | cpy o =>
    cases o with
    | imm b => cases hi
    | mem m => exact readInstr_polls hs m fun _ _ h => h.update
  | bit m | lax m | nopRead _ m => exact readInstr_polls hs m fun _ _ h => h.update
  | las w => exact readInstr_polls hs (.aby w) fun _ _ h => h.update
  | sta m | stx m | sty m | sax m => exact writeInstr_polls hs m _
  | sha m => exact shStore_polls hs m fun _ _ h => h
  | shx w => exact shStore_polls hs (.aby w) fun _ _ h => h
  | tas w => exact shStore_polls hs (.aby w) fun _ _ h => h.update
  | shy w => exact shStore_polls hs (.abx w) fun _ _ h => h
  | asl o | lsr o | rol o | ror o =>
    cases o with
    | acc => exact (impliedInstr_polls hs fun _ h => h.update).mono fun _ h => h.endsPolling
    | mem m => exact modifyInstr_polls hs m (fun _ _ => rfl) fun _ _ h => h
  | inc m | dec m => exact modifyInstr_polls hs m (fun _ _ => rfl) fun _ _ h => h
  | slo m | rla m | sre m | rra m | dcp m | isc m =>
    exact modifyInstr_polls hs m (fun _ _ => rfl) fun _ _ h => h.update
  | tax | tay | txa | tya | tsx | txs | inx | iny | dex | dey | clc | sec | cli | sei | clv | cld | sed | nop _ =>
    exact (impliedInstr_polls hs fun _ h => h.update).mono fun _ h => h.endsPolling
  | pha | php => exact pushInstr_polls hs _
  | pla | plp => exact pullInstr_polls hs fun _ _ h => h.update
  | jmpInd w => exact jmpInd_polls hs w
  | jsr w => exact jsr_polls hs w
  | rts => exact rts_polls hs
  | rti => exact rti_polls hs
  | _ => cases hi

/-- The instructions whose last cycle is the fetch of the operand, the branches apart: no cycle is left. -/
theorem exec_immediate (i : Instr) (s : State) (hi : i.fetchPolls = true) (hb : i.branches s.p = none) :
    i.cyclesAfterFetch s = 0 ∧ Completes (exec i s) (Ran s s.p.i [] 0) := by
  have refl := Ran.refl s s.p.i
  cases i with
  | lda o | ldx o | ldy o | adc o | sbc o | and o | ora o | eor o | cmp o | cpx o | cpy o =>
    cases o with
    | imm b => exact ⟨rfl, _, rfl, refl.update⟩
    | mem m => cases m <;> cases hi
  | jmp w => exact ⟨rfl, _, rfl, refl.update⟩
  | anc _ b | alr b | arr b | axs b | nopImm _ b | usbc b | ane b | lxa b => exact ⟨rfl, _, rfl, refl.update⟩
  | bpl | bmi | bvc | bvs | bcc | bcs | bne | beq => cases hb
  | sta m | stx m | sty m | bit m | inc m | dec m | slo m | rla m | sre m | rra m | dcp m | isc m | sax m | lax m | nopRead _ m
    | sha m => cases m <;> cases hi
  | asl o | lsr o | rol o | ror o =>
    cases o with
    | acc => cases hi
    | mem m => cases m <;> cases hi
  | _ => cases hi

/-! ## Branches -/

theorem exec_eq_branch {i : Instr} {s : State} {cond : Bool} {off : Byte} (h : i.branches s.p = some (cond, off)) :
    exec i s = branch cond off s := by
  cases i with
  | bpl | bmi | bvc | bvs | bcc | bcs | bne | beq => cases h; rfl
  | _ => cases h

theorem State.busRead_pc {s t : State} {a : Word} {poll : Bool} {v : Byte} (hs : s.sig.noReset)
    (h : s.busRead a poll = .done v t) :
    t.pc = s.pc := by
  rw [s.busRead_done a poll hs] at h
  obtain ⟨-, rfl⟩ := BusRun.done.inj h
  exact s.afterRead_pc a poll

/-- A branch that stays in the page polls nothing after its fetch (R343). -/
theorem branch_in_page {s : State} {cond : Bool} {off : Byte} (hs : s.sig.noReset)
    (h : cond = false ∨ (s.pc + off.signExtend 16).hi = s.pc.hi) :
    Completes (branch cond off s) (Ran s s.p.i [] cond.toNat) := by
  cases cond with
  | false => exact ⟨_, rfl, (Ran.refl s s.p.i).update⟩
  | true =>
    have same : s.pc.hi = (s.pc + off.signExtend 16).hi := (h.resolve_left nofun).symm
    obtain ⟨v, t, ht, q⟩ := (Quiet.refl s).read hs s.pc
    have pc := State.busRead_pc hs ht
    refine ⟨_, ?_, (q.ran s.p.i).update (u := (t.setPC (s.pc + off.signExtend 16)).setT 0)⟩
    simp [branch, sext16, ht, pc, same]

/-- A branch that leaves the page polls in its last cycle, the second after its fetch (R343). -/
theorem branch_across_pages {s : State} {off : Byte} (hs : s.sig.noReset) (h : (s.pc + off.signExtend 16).hi ≠ s.pc.hi) :
    Completes (branch true off s) (Ran s s.p.i [1] 2) := by
  obtain ⟨v, t, ht, q⟩ := (Quiet.refl s).read hs s.pc
  have pc := State.busRead_pc hs ht
  obtain ⟨w, u, hu, r⟩ := (q.update (u := t.setPC (Word.ofBytes s.pc.hi (s.pc + off.signExtend 16).lo))).pollRead hs
    (Word.ofBytes s.pc.hi (s.pc + off.signExtend 16).lo)
  refine ⟨_, ?_, r.update (u := (u.setPC (s.pc + off.signExtend 16)).setT 0)⟩
  simp [branch, sext16, ht, pc, h.symm, hu]

end Sys2Proof.Machine
end

section
/-! PROOFS. R402's number of cycles is the number of those fetched and those after the fetch. -/

namespace Sys2Proof

open Machine

/-- A read instruction with a surcharge (R402): `n` cycles, among them `k` for the address, and one more on a page crossing. -/
theorem Instr.cycleCount_plus {i : Instr} {m : Mem} {s : State} {n : Nat} (k : Nat) (h : Opcode.cycles (i.opcode.getD 0x02) = .plus n)
    (hm : i.readsFrom = some m) (ha : i.cyclesAfterFetch s = memCycles m false s + 1)
    (hc : memCycles m false s = k + if m.crossesPage s then 1 else 0) (hn : n = i.fetchedBytes + k + 1) :
    i.cycleCount s = i.fetchedBytes + i.cyclesAfterFetch s := by
  simp only [Instr.cycleCount, h, hm, ha, hc]
  split_ifs <;> omega

/-- R402's count is that of the cycles performed, the branches apart. -/
theorem Instr.cycleCount_eq {i : Instr} (s : State) (h : WellFormed i) (hb : i.branches s.p = none) :
    i.cycleCount s = i.fetchedBytes + i.cyclesAfterFetch s := by
  cases i with
  | lda o | ldx o | ldy o | adc o | sbc o | and o | ora o | eor o | cmp o | cpx o | cpy o =>
    cases o with
    | imm b => rfl
    | mem m =>
      cases m with
      | zp b | zpx b | zpy b | izx b | abs w => cases h <;> rfl
      | abx w | aby w => cases h <;> exact cycleCount_plus 0 rfl rfl rfl (Nat.zero_add _).symm rfl
      | izy b => cases h <;> exact cycleCount_plus 2 rfl rfl rfl rfl rfl
  | lax m =>
    cases m with
    | zp b | zpx b | zpy b | izx b | abs w => cases h <;> rfl
    | abx w | aby w => cases h <;> exact cycleCount_plus 0 rfl rfl rfl (Nat.zero_add _).symm rfl
    | izy b => cases h; exact cycleCount_plus 2 rfl rfl rfl rfl rfl
  | nopRead k m =>
    cases m with
    | zp b | zpx b | abs w => fin_cases k <;> cases h <;> rfl
    | abx w => fin_cases k; all_goals exact cycleCount_plus 0 rfl rfl rfl (Nat.zero_add _).symm rfl
    | zpy b | aby w | izx b | izy b => cases k; cases h
  | las w => exact cycleCount_plus 0 rfl rfl rfl (Nat.zero_add _).symm rfl
  | sta m | stx m | sty m | bit m | inc m | dec m | slo m | rla m | sre m | rra m | dcp m | isc m | sax m | sha m =>
    cases m <;> cases h <;> rfl
  | asl o | lsr o | rol o | ror o =>
    cases o with
    | acc => rfl
    | mem m => cases m <;> cases h <;> rfl
  | nop k | jam k | anc k b | nopImm k b => fin_cases k <;> rfl
  | bpl | bmi | bvc | bvs | bcc | bcs | bne | beq => cases hb
  | _ => rfl

end Sys2Proof
end

section
/-! PROOFS. The fetch with its polls: an instruction polls in its last fetch cycle or nowhere in the fetch (R291, R293, R309, R311). -/

namespace Sys2Proof

/-- Whether an instruction of the entry polls in its operand fetch does not depend on the operand; one without an operand byte, or
whose last byte is left for later, does not. -/
def Entry.PollsAlike : Entry → Prop
  | .f1 i => i.fetchPolls = false
  | .f2 make => ∀ b, (make b).fetchPolls = (make 0).fetchPolls
  | .f3 make => ∀ w, (make w).fetchPolls = (make 0).fetchPolls ∧ ((make 0).fetchesHighLate = true → (make w).fetchPolls = false)

theorem Opcode.matrix_pollsAlike : ∀ e ∈ Opcode.matrix, e.PollsAlike := by
  simp only [Opcode.matrix, List.forall_mem_append]
  simp only [row0, row1, row2, row3, row4, row5, row6, row7, row8, row9, rowA, rowB, rowC, rowD, rowE, rowF,
    List.forall_mem_cons, List.not_mem_nil, false_imp_iff, implies_true, and_true]
  simp [Entry.PollsAlike, Entry.srcImm, Entry.src, Entry.srcW, Entry.tgt, Entry.tgtW, Entry.mem, Entry.memW, Entry.imm, Entry.rel,
    Instr.fetchPolls, Instr.mode, Src.mode, Target.mode, Mem.mode, Instr.fetchesHighLate]

theorem Opcode.entry_pollsAlike (op : Byte) : (Opcode.entry op).PollsAlike := by
  have h : op.toNat < Opcode.matrix.length := by rw [Opcode.matrix_length]; exact op.isLt
  rw [Opcode.entry, List.getD_eq_getElem _ _ h]
  exact matrix_pollsAlike _ (List.getElem_mem h)

end Sys2Proof

namespace Sys2Proof.Machine

/-- What the fetch of `i` leaves: no poll, or one in its last cycle. -/
structure FetchRan (s : State) (i : Instr) (u : State) : Prop where
  quiet : i.fetchPolls = false → Quiet s i.fetchedBytes u
  polls : i.fetchPolls = true → Ran s s.p.i [i.fetchedBytes - 1] i.fetchedBytes u ∧ u.p.i = s.p.i

theorem Quiet.setIR {s t : State} {n : Nat} (h : Quiet s n t) (op : Byte) : Quiet (s.setIR op) n (t.setIR op) :=
  ⟨fun mask => ⟨(h.ran mask).sig, (h.ran mask).trace, (h.ran mask).params, rfl⟩, h.i⟩

theorem Quiet.fetchByte {s t : State} {n : Nat} (h : Quiet s n t) (hs : s.sig.noReset) : t.fetchByte.Reaches (Quiet s (n + 1)) :=
  (h.read hs _).andThen fun _ _ k => ⟨_, _, rfl, k.update⟩

theorem Quiet.pollFetchByte {s t : State} {n : Nat} (h : Quiet s n t) (hs : s.sig.noReset) :
    (t.fetchByte true).Reaches fun u => Ran s s.p.i [n] (n + 1) u ∧ u.p.i = s.p.i :=
  (h.pollRead_keeps hs _).andThen fun _ _ k => ⟨_, _, rfl, k.1.update, k.2⟩

/-- The fetch of the last operand byte. -/
theorem Quiet.fetchLast {s t : State} {n : Nat} (h : Quiet s n t) (hs : s.sig.noReset) (poll : Bool) :
    (t.fetchByte poll).Reaches fun u => ∀ i : Instr, i.fetchedBytes = n + 1 → i.fetchPolls = poll → FetchRan s i u := by
  cases poll with
  | false => exact (h.fetchByte hs).mono fun u k i hn hp => ⟨fun _ => hn ▸ k, fun hp' => absurd (hp.symm.trans hp') nofun⟩
  | true =>
    refine (h.pollFetchByte hs).mono fun u k i hn hp => ⟨fun hp' => absurd (hp.symm.trans hp') nofun, fun _ => ?_⟩
    rw [hn]
    exact k

/-- The fetch with no RESET coming: the instruction is that of an opcode, which goes to `IR`, and of operand bytes. -/
theorem State.fetch_polls (s : State) (hs : s.sig.noReset) :
    ∃ op b1 b2 u, s.fetch = .done (Opcode.instr op b1 b2) u ∧ FetchRan (s.setIR op) (Opcode.instr op b1 b2) u := by
  obtain ⟨op, t, ht, k⟩ := (Quiet.refl s).fetchByte hs
  have q1 : Quiet (s.setIR op) 1 (t.setIR op) := k.setIR op
  have hs' : (s.setIR op).sig.noReset := hs
  have uniform := Opcode.entry_uniform op
  have alike := Opcode.entry_pollsAlike op
  refine ⟨op, ?_⟩
  simp only [fetch, ht, BusRun.andThen_done, Opcode.instr]
  cases he : Opcode.entry op with
  | f1 i =>
    rw [he] at uniform alike
    obtain ⟨hl, hj⟩ := uniform
    have bytes : i.fetchedBytes = 1 := (Instr.fetchedBytes_length hj).trans hl
    exact ⟨0, 0, _, rfl, fun _ => bytes ▸ q1, fun hp => absurd (alike.symm.trans hp) nofun⟩
  | f2 make =>
    rw [he] at uniform alike
    obtain ⟨b1, u, hu, f⟩ := q1.fetchLast hs' (make 0).fetchPolls
    obtain ⟨hl, hj⟩ := uniform b1
    refine ⟨b1, 0, u, by simp only [hu, BusRun.andThen_done], f _ ?_ (alike b1)⟩
    exact (Instr.fetchedBytes_length hj).trans hl
  | f3 make =>
    rw [he] at uniform alike
    obtain ⟨b1, t2, ht2, q2⟩ := q1.fetchByte hs'
    cases late : (make 0).fetchesHighLate with
    | true =>
      refine ⟨b1, t2.spypeek t2.pc, t2, by simp only [ht2, BusRun.andThen_done, late, if_true], fun _ => ?_, fun hp => ?_⟩
      · rw [Instr.fetchedBytes_late ((uniform _).2.trans late)]
        exact q2
      · exact absurd (((alike _).2 late).symm.trans hp) nofun
    | false =>
      obtain ⟨b2, u, hu, f⟩ := q2.fetchLast hs' (make 0).fetchPolls
      obtain ⟨hl, hj⟩ := uniform (Word.ofBytes b2 b1)
      refine ⟨b1, b2, u, by simp only [ht2, BusRun.andThen_done, late, hu, Bool.false_eq_true, if_false], f _ ?_ (alike _).1⟩
      exact (Instr.fetchedBytes_length (hj.trans late)).trans hl

end Sys2Proof.Machine
end

section
/-! PROOFS. The signals over the entry sequence (R312, R313, R338, R347). -/
namespace Sys2Proof.Machine

/-- The signals once the vector choice has cleared the NMI flip-flop (R338). -/
def Signals.taken (g : Signals) : Signals := { g with nmiPending := false }

/-- The push of the status byte with no RESET coming: a write cycle, with the flip-flop cleared before the detector of the cycle. -/
theorem State.pushStatus_done (s : State) (b : Bool) (hs : s.sig.noReset) :
    ∃ t, s.pushStatusChooseVector b = .done s.sig.vector t ∧ t.sig = s.sig.taken.beginNext.finish ∧ t.ir = s.ir := by
  have cleared : { s.sig.beginNext with nmiPending := false } = s.sig.taken.beginNext := by
    unfold Signals.beginNext Signals.taken
    cases s.sig.inputs <;> rfl
  unfold pushStatusChooseVector
  rw [s.sig.startWrite_ok hs, ← s.sig.beginNext_vector, ← cleared]
  exact ⟨_, rfl, rfl, rfl⟩

/-- The vector load polls nothing; in calm `PC` is the word that the vector holds then. -/
theorem State.loadVector_ran (s : State) (vec : Word) (hs : s.sig.noReset) :
    (s.loadVector vec).Reaches fun u => Ran s s.p.i [] 2 u ∧ (s.Calm → u.pc = u.wordAt vec) := by
  have run : (s.loadVector vec).Reaches (Ran s s.p.i [] 2) :=
    ((Ran.refl s s.p.i).read hs _).andThen fun lo t r =>
      ((r.update : Ran s s.p.i [] 1 ((t.setPC (Word.ofBytes t.pc.hi lo)).setP { t.p with i := true })).read hs _).andThen
        fun _ _ r' => ⟨_, _, rfl, r'.update⟩
  obtain ⟨v, u, hu, r⟩ := run
  refine ⟨v, u, hu, r, fun calm => ?_⟩
  obtain ⟨u', hu', same, -⟩ := s.loadVector_calm vec calm
  obtain ⟨-, rfl⟩ := BusRun.done.inj (hu.symm.trans hu')
  have calm' : ((s.setPC (s.wordAt vec)).setP { s.p with i := true }).Calm :=
    calm.of_regsOnly (((RegsOnly.refl s).setPC _).setP _)
  have bytes (a : Word) : u.spypeek a = s.spypeek a := same.spypeek calm' a
  simp only [same.pc, wordAt, bytes]
  rfl

/-- The entry sequence that begins `n` quiet cycles after `s`: the two pushes, which end in `w`, where the vector is chosen; and three
cycles more, with the NMI flip-flop cleared. No cycle polls. -/
structure EntryRan (s : State) (n : Nat) (u w : State) : Prop where
  pushes : Quiet s (n + 2) w
  load   : ∃ k mask, w.sig.taken.Passes k mask [] 3 u.sig
  ir     : u.ir = s.ir
  pc     : s.Calm → s.mem.wf = true → u.pc = u.wordAt w.sig.vector

theorem Quiet.enter {s t : State} {n : Nat} (h : Quiet s n t) (hs : s.sig.noReset) (b : Bool)
    (hc : s.Calm → t.Calm ∧ t.mem = s.mem) : (t.enter b).Reaches fun u => ∃ w, EntryRan s n u w := by
  obtain ⟨_, t1, h1, q1⟩ := h.push hs t.pc.hi
  obtain ⟨_, t2, h2, q2⟩ := q1.push hs t1.pc.lo
  obtain ⟨v, h3, sig, ir⟩ := t2.pushStatus_done b (q2.noReset hs)
  have cycle {k : IrqSample} {mask : Bool} : t2.sig.taken.Passes k mask [] 1 v.sig := by
    rw [sig]
    exact .quiet .start (.inr rfl)
  obtain ⟨_, u, h4, r, pc⟩ := v.loadVector_ran t2.sig.vector (cycle.noReset (q2.noReset hs) (k := .two) (mask := true))
  refine ⟨(), u, by simp only [State.enter, h1, h2, h3, h4, BusRun.andThen_done], t2, q2, ⟨_, _, cycle.trans r.sig⟩, ?ir,
    fun calm wf => pc ?calm⟩
  case ir => rw [r.ir, ir, (q2.ran true).ir]
  case calm =>
    obtain ⟨calm', mem⟩ := hc calm
    obtain ⟨t1', h1', m1, -⟩ := t.push_calm t.pc.hi false calm' (mem ▸ wf)
    obtain ⟨-, rfl⟩ := BusRun.done.inj (h1.symm.trans h1')
    obtain ⟨t2', h2', m2, -⟩ := t1.push_calm t1.pc.lo false m1.calm m1.wf
    obtain ⟨-, rfl⟩ := BusRun.done.inj (h2.symm.trans h2')
    obtain ⟨v', h3', m3, -⟩ := t2.pushStatus_calm b m2.calm m2.wf
    obtain ⟨-, rfl⟩ := BusRun.done.inj (h3.symm.trans h3')
    exact m3.calm

section entry
variable {s u w : State} {n : Nat}

/-- What the last poll before it has decided stays (R39). -/
theorem EntryRan.undecided (h : EntryRan s n u w) :
    u.sig.intDecision = s.sig.intDecision ∧ u.sig.irqPending = s.sig.irqPending := by
  obtain ⟨k, mask, p⟩ := h.load
  obtain ⟨d1, i1⟩ := (h.pushes.ran true).sig.undecided rfl
  obtain ⟨d2, i2⟩ := p.undecided rfl
  exact ⟨d2.trans d1, i2.trans i1⟩

/-- Held by RDY in no cycle, the sequence finds the NMI edges of the cycles before the choice (R347), and leaves pending those of
the choice's own cycle and of the two after it (R338). -/
theorem EntryRan.nmi (h : EntryRan s n u w) (hn : s.sig.neverHeld) :
    w.sig.vector = (if s.sig.nmiBefore (n + 2) then 0xFFFA else 0xFFFE) ∧
    u.sig.nmiPending = (s.sig.nmiEdge (n + 2) || s.sig.nmiEdge (n + 3) || s.sig.nmiEdge (n + 4)) := by
  obtain ⟨k, mask, p⟩ := h.load
  obtain ⟨a, -⟩ := (h.pushes.ran true).sig.after_decided hn
  obtain ⟨a', -⟩ := p.after_decided (a.neverHeld hn)
  have edge (j : Nat) : w.sig.taken.nmiEdge j = s.sig.nmiEdge (n + 2 + j) := (a.nmiEdge j).symm ▸ by cases j <;> rfl
  constructor
  · rw [Signals.vector, a.nmiPending]
    rfl
  · rw [a'.nmiPending]
    simp only [Signals.nmiBefore_succ, edge]
    simp [Signals.nmiBefore, Signals.taken]

end entry

/-- A read that is performed keeps calm and memory. -/
theorem State.Calm.of_busRead {s t : State} {a : Word} {v : Byte} (hs : s.Calm) (h : s.busRead a = .done v t) :
    t.Calm ∧ t.mem = s.mem := by
  obtain ⟨t', h', same, -⟩ := s.busRead_calm a false hs
  obtain ⟨-, rfl⟩ := BusRun.done.inj (h.symm.trans h')
  exact ⟨same.calm, same.mem⟩

/-- The interrupt sequence (R313). -/
theorem State.takeInterrupt_ran (s : State) (hs : s.sig.noReset) :
    s.takeInterrupt.Reaches fun u => ∃ w, EntryRan (s.setIR 0x00) 2 u w := by
  obtain ⟨_, t1, h1, q1⟩ := (Quiet.refl s).read hs s.pc
  obtain ⟨_, t2, h2, q2⟩ := (q1.setIR 0x00).read hs (t1.setIR 0x00).pc
  obtain ⟨v, u, h3, e⟩ := q2.enter hs false fun calm => by
    obtain ⟨c1, m1⟩ := State.Calm.of_busRead (s := s) ⟨calm.noReset, calm.settled, calm.flat⟩ h1
    obtain ⟨c2, m2⟩ := State.Calm.of_busRead (s := t1.setIR 0x00) ⟨c1.noReset, c1.settled, c1.flat⟩ h2
    exact ⟨c2, m2.trans m1⟩
  exact ⟨v, u, by simp only [takeInterrupt, h1, h2, h3, BusRun.andThen_done], e⟩

/-- BRK after its opcode fetch (R312). -/
theorem Quiet.brk {s t : State} {n : Nat} (h : Quiet s n t) (hs : s.sig.noReset) (hc : s.Calm → t.Calm ∧ t.mem = s.mem) :
    Completes (exec .brk t) fun u => ∃ w, EntryRan s (n + 1) u w := by
  refine BusRun.Reaches.outcome ?_ fun u k => k.imp fun w e => { e with }
  obtain ⟨_, t1, h1, q1⟩ := h.read hs t.pc
  have calm (c : s.Calm) : t1.Calm ∧ t1.mem = s.mem := by
    obtain ⟨c1, m1⟩ := (hc c).1.of_busRead h1
    exact ⟨c1, m1.trans (hc c).2⟩
  obtain ⟨v, u, h2, e⟩ := (q1.update (u := t1.setPC (t1.pc + 1))).enter hs true fun c =>
    ⟨(calm c).1.of_regsOnly ((RegsOnly.refl t1).setPC _), (calm c).2⟩
  exact ⟨v, u, by simp only [h1, h2, BusRun.andThen_done], e⟩

end Sys2Proof.Machine
end

section
/-! PROOFS. The polls of the implied instructions, of the branches and of RTI (R340, R342, R343). -/

namespace Sys2Proof.Machine

/-- Settles O17: the one poll is in the first cycle after the opcode fetch. -/
theorem impliedInstructionsPollWithTheOldI : Obligations.ImpliedInstructionsPollWithTheOldI := by
  intro i s hi hs hn
  refine (exec_implied i s hs hi).mono fun t r => ?_
  obtain ⟨-, decision, irq⟩ := r.sig.after_decided hn
  have irq' : t.sig.irqPending = s.sig.irqPoll s.params.irqSample s.p.i 0 := irq
  refine ⟨?_, ?_⟩
  · simp only [irq', Signals.irqPoll, Signals.irqSeen]
    cases s.params.irqSample <;> rfl
  · rw [decision, irq']
    simp [Signals.nmiBefore, Bool.or_assoc]

/-- Settles O19: a branch that stays in the page runs no polling cycle; one that leaves it runs two, and polls in the second. -/
theorem branchesPollAgainOnlyAcrossPages : Obligations.BranchesPollAgainOnlyAcrossPages := by
  intro i s cond off hb hs
  rw [exec_eq_branch hb]
  refine ⟨fun h => (branch_in_page hs h).mono fun t r => r.sig.undecided rfl, ?_⟩
  rintro l0 rest rfl hpage hn hi
  refine (branch_across_pages hs hpage).mono fun t r => ?_
  obtain ⟨-, decision, irq⟩ := r.sig.after_decided hn
  have irq' : t.sig.irqPending = s.sig.irqPoll s.params.irqSample s.p.i 1 := irq
  refine ⟨?_, ?_⟩
  · simp only [irq', Signals.irqPoll, Signals.irqSeen, hi]
    cases s.params.irqSample <;> rfl
  · rw [decision, irq']
    simp [Signals.nmiBefore, Signals.nmiEdge, Signals.lineAt, hi, Bool.or_assoc]

/-- In calm RTI leaves the `I` of the pulled byte (R214). -/
theorem rti_restores_i {s t : State} (hs : s.Calm) (ht : exec .rti s = .next t) :
    t.p.i = (s.spypeek (stackByte (s.sp + 1))).getLsbD 2 := by
  obtain ⟨t', ht', regs, -⟩ := rtiRestoresFlagsAndPc s hs
  cases ht.symm.trans ht'
  exact congrArg (fun r => r.p.i) regs

theorem Signals.nmiBefore_of_noNmi {g : Signals} (h : g.noNmi) (n : Nat) : g.nmiBefore n = false := by
  obtain ⟨pending, comes⟩ := h
  have line (j : Nat) : (g.lineAt j).nmi = false := by
    rw [lineAt, List.getD_eq_getElem?_getD]
    cases hj : g.inputs[j]? with
    | none => rfl
    | some l => exact comes l (List.mem_of_getElem? hj)
  induction n with
  | zero => simp [nmiBefore, pending]
  | succ n ih => rw [nmiBefore_succ, ih, nmiEdge_eq, line]; rfl

/-- Settles O20: the poll of `rti_polls`, in the last of five cycles, is masked with the `I` of `rti_restores_i`. -/
theorem rtiPollsWithTheRestoredI : Obligations.RtiPollsWithTheRestoredI := by
  intro s l0 l1 l2 l3 rest hs hn hnmi hi
  obtain ⟨t, ht, n, r, count⟩ := rti_polls hs.noReset
  refine ⟨t, ht, ?_⟩
  obtain rfl : n = 4 := Nat.succ.inj (count hs)
  rw [rti_restores_i hs ht] at r
  obtain ⟨-, decision, -⟩ := r.sig.after_decided hn
  rw [decision]
  simp only [List.any_cons, List.any_nil, Signals.nmiBefore_of_noNmi hnmi, Bool.false_or, Bool.or_false,
    Signals.irqPoll, Signals.irqSeen, hi]
  cases s.params.irqSample <;> rfl

end Sys2Proof.Machine
end

section
/-! PROOFS. The fetch and the instruction together: an instruction with a poll decides a pending NMI (R338, R340, R343). -/

namespace Sys2Proof.Machine

theorem pollMask_of_ne {i : Instr} {s t : State} (h : i ≠ .rti) : pollMask i s t = s.p.i := by
  unfold pollMask
  split
  · exact absurd rfl h
  · rfl

section fetched
variable {s u : State} {instr : Instr} (f : FetchRan s instr u) (hs : s.sig.noReset)
include f

theorem FetchRan.i : u.p.i = s.p.i := by
  cases hp : instr.fetchPolls with
  | false => exact (f.quiet hp).i
  | true => exact (f.polls hp).2

include hs

/-- An instruction that polls after its fetch polls in its last cycle. -/
theorem FetchRan.pollsAfterFetch (hi : instr.pollsAfterFetch = true) :
    Completes (exec instr u) fun t => ∃ n, Ran s (pollMask instr s t) [instr.fetchedBytes + n] (instr.fetchedBytes + (n + 1)) t ∧
      (u.Calm → n + 1 = instr.cyclesAfterFetch u) := by
  have q := f.quiet (Instr.fetchPolls_of_pollsAfterFetch hi)
  refine (exec_polls instr u (q.noReset hs) hi).mono fun t k => ?_
  obtain ⟨n, r, hn⟩ := k
  have mask : pollMask instr u t = pollMask instr s t := by
    unfold pollMask
    split
    · rfl
    · exact f.i
  exact ⟨n, (q.ran _).trans (mask ▸ r), hn⟩

section fetchPolls
variable (hp : instr.fetchPolls = true)
include hp

omit hs in
/-- An instruction that ends in its fetch has polled there. -/
theorem FetchRan.immediate (hb : instr.branches u.p = none) :
    Completes (exec instr u) (Ran s s.p.i [instr.fetchedBytes - 1] instr.fetchedBytes) :=
  (exec_immediate instr u hp hb).2.mono fun _ r => by
    rw [f.i] at r
    exact (f.polls hp).1.trans r

variable {cond : Bool} {off : Byte} (hb : instr.branches u.p = some (cond, off))
include hb

theorem FetchRan.branch_in_page (h : cond = false ∨ (u.pc + off.signExtend 16).hi = u.pc.hi) :
    Completes (exec instr u) (Ran s s.p.i [instr.fetchedBytes - 1] (instr.fetchedBytes + cond.toNat)) := by
  obtain ⟨r, hi⟩ := f.polls hp
  rw [exec_eq_branch hb]
  exact (Machine.branch_in_page (r.noReset hs) h).mono fun _ r' => by
    rw [hi] at r'
    exact r.trans r'

theorem FetchRan.branch_across_pages (hc : cond = true) (h : (u.pc + off.signExtend 16).hi ≠ u.pc.hi) :
    Completes (exec instr u)
      (Ran s s.p.i [instr.fetchedBytes - 1, instr.fetchedBytes + 1] (instr.fetchedBytes + 2)) := by
  obtain ⟨r, hi⟩ := f.polls hp
  rw [exec_eq_branch hb, hc]
  exact (Machine.branch_across_pages (r.noReset hs) h).mono fun _ r' => by
    rw [hi] at r'
    exact r.trans r'

end fetchPolls

/-- Every instruction but BRK and JAM polls, in its fetch or after it (R340, R343). -/
theorem FetchRan.polls_once (hbrk : instr ≠ .brk) (hjam : ∀ k, instr ≠ .jam k) :
    Completes (exec instr u) fun t => ∃ mask polls n, Ran s mask polls n t ∧ polls ≠ [] := by
  obtain rfl | ⟨k, rfl⟩ | hi | hp := instr.poll_kinds
  · exact absurd rfl hbrk
  · exact absurd rfl (hjam k)
  · exact (f.pollsAfterFetch hs hi).mono fun t k => by
      obtain ⟨n, r, -⟩ := k
      exact ⟨_, _, _, r, List.cons_ne_nil _ _⟩
  · cases hb : instr.branches u.p with
    | none => exact (f.immediate hp hb).mono fun t r => ⟨_, _, _, r, List.cons_ne_nil _ _⟩
    | some b =>
      obtain ⟨cond, off⟩ := b
      by_cases h : cond = false ∨ (u.pc + off.signExtend 16).hi = u.pc.hi
      · exact (f.branch_in_page hs hp hb h).mono fun t r => ⟨_, _, _, r, List.cons_ne_nil _ _⟩
      · obtain ⟨hc, hpage⟩ := not_or.1 h
        exact (f.branch_across_pages hs hp hb (eq_true_of_ne_false hc) hpage).mono fun t r =>
          ⟨_, _, _, r, List.cons_ne_nil _ _⟩

end fetched

/-! ## A pending NMI -/

theorem Opcode.eq_zero_of_brk {op b1 b2 : Byte} (h : Opcode.instr op b1 b2 = .brk) : op = 0x00 := by
  obtain ⟨rest, hd⟩ := decode_three_bytes op b1 b2
  obtain ⟨-, enc⟩ := decodedBytesAreTheEncoding _ _ _ hd
  rw [h] at enc
  exact (List.cons.inj enc).1

theorem State.Calm.of_fetch {s u : State} {i : Instr} (hs : s.Calm) (h : s.fetch = .done i u) : u.Calm ∧ u.mem = s.mem := by
  obtain ⟨i', u', h', -, fetched⟩ := s.fetch_calm hs
  obtain ⟨-, rfl⟩ := BusRun.done.inj (h.symm.trans h')
  exact ⟨fetched.same.calm, fetched.same.mem⟩

/-- A step that runs an instruction, with no RESET coming. -/
theorem step_fetches {s : State} (hs : s.sig.noReset) (hj : s.jam = false) (hd : s.sig.intDecision = false) :
    ∃ op b1 b2 u, s.startStep.clearDecision.fetch = .done (Opcode.instr op b1 b2) u ∧
      step s = exec (Opcode.instr op b1 b2) u ∧
      FetchRan (s.startStep.clearDecision.setIR op) (Opcode.instr op b1 b2) u := by
  obtain ⟨op, b1, b2, u, hf, f⟩ := s.startStep.clearDecision.fetch_polls hs
  exact ⟨op, b1, b2, u, hf, step_of_fetch (s.sig.resetNext_false hs) hj hd hf, f⟩

theorem step_takes {s : State} (hs : s.sig.noReset) (hj : s.jam = false) (hd : s.sig.intDecision = true) :
    Completes (step s) fun t => ∃ w, EntryRan (s.startStep.clearDecision.setIR 0x00) 2 t w := by
  simp only [step, State.startStep_sig, State.startStep_jam, s.sig.resetNext_false hs, hj, hd, Bool.false_eq_true, if_false,
    if_true]
  exact (s.startStep.clearDecision.takeInterrupt_ran hs).outcome fun u k => k.imp fun w e => { e with }

/-- Settles O16: a jammed cycle and every instruction but BRK keep the NMI flip-flop, and the two sequences leave $00 in `IR`; an
instruction with a poll decides the NMI there. -/
theorem pendingNmiIsKeptAndDecided : Obligations.PendingNmiIsKeptAndDecided := by
  intro s t hs ht hp
  cases hj : s.jam with
  | true =>
    cases ht.symm.trans (step_jammed hj (s.sig.resetNext_false hs))
    have kept : s.startStep.jammedCycle.sig.nmiPending = true := by simp [Signals.idleCycle, hp]
    exact ⟨fun h => absurd (h.symm.trans kept) nofun, nofun⟩
  | false =>
    cases hd : s.sig.intDecision with
    | true =>
      obtain ⟨t', ht', w, e⟩ := step_takes hs hj hd
      cases ht.symm.trans ht'
      exact ⟨fun _ => ⟨rfl, e.ir⟩, fun _ => nofun⟩
    | false =>
      obtain ⟨op, b1, b2, u, hf, hstep, f⟩ := step_fetches hs hj hd
      rw [hstep] at ht
      by_cases hbrk : Opcode.instr op b1 b2 = .brk
      · obtain rfl := Opcode.eq_zero_of_brk hbrk
        rw [hbrk] at f ht
        obtain ⟨t', ht', w, e⟩ := (f.quiet rfl).brk hs fun calm => State.Calm.of_fetch (s := s.startStep.clearDecision)
          ⟨calm.noReset, calm.settled, calm.flat⟩ hf
        cases ht.symm.trans ht'
        exact ⟨fun _ => ⟨rfl, e.ir⟩, fun _ _ hn => absurd e.ir hn⟩
      · by_cases hjam : ∃ k, Opcode.instr op b1 b2 = .jam k
        · obtain ⟨k, hk⟩ := hjam
          rw [hk] at f ht
          cases ht
          have kept : u.sig.nmiPending = true := (((f.quiet rfl).ran true).sig.pending hp).1
          exact ⟨fun h => absurd (h.symm.trans kept) nofun, fun _ _ _ => nofun⟩
        · obtain ⟨t', ht', mask, polls, n, r, polled⟩ := f.polls_once hs hbrk (not_exists.1 hjam)
          cases ht.symm.trans ht'
          obtain ⟨kept, decided⟩ := r.sig.pending hp
          exact ⟨fun h => absurd (h.symm.trans kept) nofun, fun _ _ _ _ => decided polled⟩

end Sys2Proof.Machine
end

section
/-! PROOFS. An NMI edge in the first four cycles of an IRQ or BRK sequence takes its vector over (R347). -/

namespace Sys2Proof.Machine

/-- The vectors are not among the bytes that an entry pushes. -/
theorem Entered.wordAt {s t : State} {ret vec : Word} {b : Bool} (h : Entered s t ret b vec) {a : Word}
    (ha : a = 0xFFFA ∨ a = 0xFFFE) : t.wordAt a = s.wordAt a := by
  have kept (c : Word) (hc : 512 ≤ c.toNat) : t.spypeek c = s.spypeek c :=
    h.other c (by simp [vector_ne_stackByte c _ hc])
  have high : 512 ≤ a.toNat ∧ 512 ≤ (a + 1).toNat := by
    rcases ha with rfl | rfl <;> decide
  simp only [State.wordAt, kept _ high.1, kept _ high.2]

theorem State.wordAt_congr {s t : State} (h : ∀ a, t.spypeek a = s.spypeek a) (a : Word) : t.wordAt a = s.wordAt a := by
  simp only [wordAt, h]

/-- What an entry that begins two cycles after `s` leaves in `PC` and in the NMI flip-flop; `r` is a state in which the vectors hold
what they hold at its end. -/
theorem EntryRan.late {r s t w : State} (e : EntryRan s 2 t w) (hs : s.Calm) (hw : s.mem.wf = true) (hn : s.sig.neverHeld)
    (word : ∀ a : Word, a = 0xFFFA ∨ a = 0xFFFE → t.wordAt a = r.wordAt a) :
    t.pc = r.wordAt (if s.sig.nmiBefore 4 then 0xFFFA else 0xFFFE) ∧
    t.sig.nmiPending = (s.sig.nmiEdge 4 || s.sig.nmiEdge 5 || s.sig.nmiEdge 6) := by
  obtain ⟨vector, pending⟩ := e.nmi hn
  refine ⟨?_, pending⟩
  rw [e.pc hs hw, vector]
  refine word _ ?_
  split_ifs
  · exact .inl rfl
  · exact .inr rfl

/-- Settles O12: the entry begins after two cycles, which are the two dummy reads of an interrupt sequence (R313), or the opcode
fetch and the dummy read of BRK (R312). -/
theorem lateNmiTakesTheVectorOver : Obligations.LateNmiTakesTheVectorOver := by
  intro s hs hw hj hn hor
  have calm0 : s.startStep.clearDecision.Calm := ⟨hs.noReset, hs.settled, hs.flat⟩
  have calm (op : Byte) : (s.startStep.clearDecision.setIR op).Calm := ⟨hs.noReset, hs.settled, hs.flat⟩
  cases hd : s.sig.intDecision with
  | true =>
    obtain ⟨t, ht, -, vec, run⟩ := step_interrupt_run s hs hw hj hd
    obtain ⟨t', ht', w, e⟩ := step_takes hs.noReset hj hd
    cases ht.symm.trans ht'
    obtain ⟨pc, pending⟩ := e.late (r := s) (calm _) hw hn fun a ha =>
      (run.toEntered.wordAt ha).trans (State.wordAt_congr (State.spypeek_congr rfl rfl rfl rfl rfl) a)
    exact ⟨t, ht, pc, pending, run.status⟩
  | false =>
    have opcode : s.startStep.clearDecision.spypeek s.startStep.clearDecision.pc = 0x00 :=
      (State.spypeek_congr rfl rfl rfl rfl rfl _).trans (hor.resolve_left (by simp [hd]))
    obtain ⟨op, b1, b2, u, hf, hstep, f⟩ := step_fetches hs.noReset hj hd
    obtain ⟨i, u', hf', hi, fetched⟩ := s.startStep.clearDecision.fetch_calm calm0
    obtain ⟨rfl, rfl⟩ := BusRun.done.inj (hf.symm.trans hf')
    have brk : Opcode.instr op b1 b2 = .brk := by rw [hi, opcode]; rfl
    rw [brk] at f hstep fetched
    obtain ⟨calm', mem⟩ := calm0.of_fetch hf
    obtain ⟨t, ht, -, vec, run⟩ := brk_run u calm' (mem ▸ hw)
    obtain ⟨t', ht', w, e⟩ := (f.quiet rfl).brk hs.noReset fun _ => ⟨calm', mem⟩
    cases ht.symm.trans ht'
    have bytes (a : Word) : u.spypeek a = s.spypeek a :=
      (fetched.spypeek calm0 a).trans (State.spypeek_congr rfl rfl rfl rfl rfl a)
    have status := run.status
    rw [fetched.same.sp, fetched.same.p] at status
    obtain ⟨pc, pending⟩ := e.late (r := s) (calm _) hw hn fun a ha => (run.toEntered.wordAt ha).trans (State.wordAt_congr bytes a)
    exact ⟨t, hstep.trans ht, pc, pending, status⟩

end Sys2Proof.Machine
end

section
/-! PROOFS. Every instruction polls in its poll cycles (R340, R342, R343). -/

namespace Sys2Proof.Machine

/-! ## The poll cycles -/

theorem Instr.pollCycles_single {i : Instr} {s : State} (hbrk : i ≠ .brk) (hjam : ∀ k, i ≠ .jam k)
    (hb : i.branches s.p = none) :
    i.pollCycles s = [i.cycleCount s - 1] := by
  unfold Instr.pollCycles
  rw [hb]
  dsimp only
  split
  · exact absurd rfl hbrk
  · exact absurd rfl (hjam _)
  · rfl

theorem Instr.branches_facts {i : Instr} {p : Flags} {cond : Bool} {off : Byte} (hb : i.branches p = some (cond, off)) :
    i.fetchPolls = true ∧ i.fetchedBytes = 2 ∧ Opcode.cycles (i.opcode.getD 0x02) = .branch := by
  cases i with
  | bpl | bmi | bvc | bvs | bcc | bcs | bne | beq => exact ⟨rfl, rfl, rfl⟩
  | _ => cases hb

theorem Instr.pollCycles_branch {i : Instr} {s : State} {cond : Bool} {off : Byte} (hb : i.branches s.p = some (cond, off)) :
    i.pollCycles s = if cond = true ∧ (s.pc + 2 + sext16 off).hi ≠ (s.pc + 2).hi then [1, 3] else [1] := by
  obtain ⟨-, -, count⟩ := branches_facts hb
  simp only [Instr.pollCycles, Instr.cycleCount, hb, count]
  cases cond
  · simp
  · by_cases h : (s.pc + 2 + sext16 off).hi = (s.pc + 2).hi <;> simp

theorem crossesPage_congr {s u : State} (bytes : ∀ a, u.spypeek a = s.spypeek a) (hx : u.x = s.x) (hy : u.y = s.y) (m : Mem) :
    m.crossesPage u = m.crossesPage s := by
  cases m <;> simp only [Mem.crossesPage, bytes, hx, hy]

theorem Instr.cycleCount_congr {i : Instr} {s u : State} (hm : ∀ m : Mem, m.crossesPage u = m.crossesPage s)
    (hb : i.branches u.p = none) (hb' : i.branches s.p = none) : i.cycleCount u = i.cycleCount s := by
  simp only [Instr.cycleCount, hm, hb, hb']

/-- The mask of the poll of `i` standing at `PC` (R342). -/
def pollMaskAt (i : Instr) (s : State) : Bool :=
  if i = .rti then (s.spypeek (stackByte (s.sp + 1))).getLsbD 2 else s.p.i

/-- What the polls in the cycles `polls` from `s` on have decided in `t`, if nothing was decided in `s`. -/
def PolledIn (polls : List Nat) (mask : Bool) (s t : State) : Prop :=
  t.sig.intDecision = polls.any (fun c => s.sig.nmiBefore c || s.sig.irqSeen s.params.irqSample c && !mask) ∧
  t.sig.irqPending = (polls.getLast?.map fun c => s.sig.irqSeen s.params.irqSample c && !mask).getD s.sig.irqPending

theorem Ran.polledIn {s t : State} {mask : Bool} {polls : List Nat} {n : Nat} (r : Ran s mask polls n t) (hn : s.sig.neverHeld)
    (hd : s.sig.intDecision = false) : PolledIn polls mask s t := by
  obtain ⟨-, decision, irq⟩ := r.sig.after_decided hn
  rw [hd, Bool.false_or] at decision
  exact ⟨decision, irq⟩

section calm
variable {s u : State} {i : Instr} {op : Byte} (hs : s.Calm) (hn : s.sig.neverHeld) (hd : s.sig.intDecision = false)
  (f : FetchRan (s.setIR op) i u) (fetched : Fetched s (s.spypeek s.pc) i.fetchedBytes u)
include hs fetched

/-- R402's count for an instruction that is no branch: its bytes, and the cycles after them. -/
theorem Fetched.cycleCount (wf : WellFormed i) (hb : i.branches s.p = none) :
    i.cycleCount s = i.fetchedBytes + i.cyclesAfterFetch u := by
  have bytes := fetched.spypeek hs
  have hb' : i.branches u.p = none := fetched.same.p ▸ hb
  rw [← Instr.cycleCount_congr (crossesPage_congr bytes fetched.same.x fetched.same.y) hb' hb, Instr.cycleCount_eq u wf hb']

include hn hd f

omit hn in
theorem brk_polledIn (hi : i = .brk) : Completes (exec i u) (PolledIn (i.pollCycles s) (pollMaskAt i s) s) := by
  subst hi
  refine ((f.quiet rfl).brk hs.noReset fun _ => ⟨fetched.same.calm, fetched.same.mem⟩).mono fun t k => ?_
  obtain ⟨w, e⟩ := k
  obtain ⟨decision, irq⟩ := e.undecided
  exact ⟨decision.trans hd, irq⟩

omit hs in
theorem jam_polledIn {k : Fin 12} (hi : i = .jam k) : Completes (exec i u) (PolledIn (i.pollCycles s) (pollMaskAt i s) s) := by
  subst hi
  exact ⟨_, rfl, (((f.quiet rfl).ran _).update (u := u.setJam true)).polledIn hn hd⟩

theorem afterFetch_polledIn (wf : WellFormed i) (hi : i.pollsAfterFetch = true) :
    Completes (exec i u) (PolledIn (i.pollCycles s) (pollMaskAt i s) s) := by
  obtain ⟨t, ht, n, r, count⟩ := f.pollsAfterFetch hs.noReset hi
  have hb := Instr.branches_of_pollsAfterFetch hi s.p
  have cycles := fetched.cycleCount hs wf hb
  have polls : i.pollCycles s = [i.fetchedBytes + n] := by
    rw [Instr.pollCycles_single (by rintro rfl; cases hi) (by rintro k rfl; cases hi) hb, cycles, ← count fetched.same.calm]
    rfl
  have mask : pollMask i (s.setIR op) t = pollMaskAt i s := by
    unfold pollMaskAt
    split_ifs with rti
    · subst rti
      have restored := rti_restores_i fetched.same.calm ht
      rw [fetched.same.sp, fetched.spypeek hs] at restored
      exact restored
    · exact pollMask_of_ne rti
  rw [polls, ← mask]
  exact ⟨t, ht, r.polledIn hn hd⟩

theorem fetchPolls_polledIn (wf : WellFormed i) (hp : i.fetchPolls = true) :
    Completes (exec i u) (PolledIn (i.pollCycles s) (pollMaskAt i s) s) := by
  have mask : pollMaskAt i s = s.p.i := if_neg (by rintro rfl; cases hp)
  rw [mask]
  cases hb : i.branches s.p with
  | none =>
    have polls : i.pollCycles s = [i.fetchedBytes - 1] := by
      rw [Instr.pollCycles_single (by rintro rfl; cases hp) (by rintro k rfl; cases hp) hb, fetched.cycleCount hs wf hb]
      rw [(exec_immediate i u hp (fetched.same.p ▸ hb)).1]
      rfl
    rw [polls]
    exact (f.immediate hp (fetched.same.p ▸ hb)).mono fun t r => r.polledIn hn hd
  | some b =>
    obtain ⟨cond, off⟩ := b
    obtain ⟨-, bytes, -⟩ := Instr.branches_facts hb
    have hb' : i.branches u.p = some (cond, off) := fetched.same.p ▸ hb
    have pc : u.pc = s.pc + 2 := by rw [fetched.same.pc, bytes]; rfl
    rw [Instr.pollCycles_branch hb]
    split_ifs with hc
    · obtain ⟨hcond, hpage⟩ := hc
      rw [← pc] at hpage
      have run := f.branch_across_pages hs.noReset hp hb' hcond hpage
      rw [bytes] at run
      exact run.mono fun t r => r.polledIn hn hd
    · have stays : cond = false ∨ (u.pc + off.signExtend 16).hi = u.pc.hi := by
        rw [pc]
        rw [not_and_or, not_not] at hc
        exact hc.imp_left eq_false_of_ne_true
      have run := f.branch_in_page hs.noReset hp hb' stays
      rw [bytes] at run
      exact run.mono fun t r => r.polledIn hn hd

end calm

/-- Settles O18, by the kinds of `Instr.poll_kinds`: BRK, JAM, a poll after the fetch, a poll in the fetch. -/
theorem everyInstructionPollsInItsPollCycles : Obligations.EveryInstructionPollsInItsPollCycles := by
  intro s instr rest hs hn hj hd hdec
  obtain ⟨wf, -⟩ := decodedBytesAreTheEncoding _ _ _ hdec
  have calm : s.startStep.clearDecision.Calm := ⟨hs.noReset, hs.settled, hs.flat⟩
  obtain ⟨op, b1, b2, u, hf, hstep, f⟩ := step_fetches hs.noReset hj hd
  obtain ⟨i, u', hf', hi, fetched⟩ := s.startStep.clearDecision.fetch_calm calm
  obtain ⟨rfl, rfl⟩ := BusRun.done.inj (hf.symm.trans hf')
  obtain rfl : instr = Opcode.instr op b1 b2 := (decode_three hdec).trans hi.symm
  rw [hstep]
  suffices Completes (exec (Opcode.instr op b1 b2) u)
      (PolledIn (Instr.pollCycles _ s.startStep.clearDecision) (pollMaskAt (Opcode.instr op b1 b2) s.startStep.clearDecision)
        s.startStep.clearDecision) from this
  obtain hi | ⟨k, hi⟩ | hi | hp := (Opcode.instr op b1 b2).poll_kinds
  · exact brk_polledIn calm rfl f fetched hi
  · exact jam_polledIn hn rfl f fetched hi
  · exact afterFetch_polledIn calm hn rfl f fetched wf hi
  · exact fetchPolls_polledIn calm hn rfl f fetched wf hp

end Sys2Proof.Machine
end

section
/-! PROOFS. Every instruction performs the cycles that R402's table gives it: those of its fetch and those after it. -/

namespace Sys2Proof.Machine

/-! ## BRK -/

/-- The push of the status byte is one cycle. -/
theorem State.pushStatus_performed (s : State) (b : Bool) (hs : s.sig.noReset) :
    (s.pushStatusChooseVector b).Reaches fun t => t.sig.noReset ∧ t.trace.length = s.trace.length + 1 := by
  unfold pushStatusChooseVector
  rw [s.sig.startWrite_ok hs]
  exact ⟨_, _, rfl, s.sig.beginNext_noReset hs, List.length_append⟩

/-- The entry sequence is five cycles: the two pushes, that of the status byte, and the two reads of the vector (R312, R313). -/
theorem State.enter_performed (s : State) (b : Bool) (hs : s.sig.noReset) :
    (s.enter b).Reaches fun t => t.trace.length = s.trace.length + 5 := by
  refine ((Quiet.refl s).push hs _).andThen fun _ t1 q1 => (q1.push hs _).andThen fun _ t2 q2 => ?_
  refine (t2.pushStatus_performed b (q2.noReset hs)).andThen fun vec t3 k => ?_
  obtain ⟨h3, trace3⟩ := k
  refine (t3.loadVector_ran vec h3).mono fun t4 r => ?_
  rw [r.1.trace, trace3, (q2.ran true).trace]

theorem brk_performed (s : State) (hs : s.sig.noReset) :
    Completes (exec .brk s) fun t => t.trace.length = s.trace.length + 6 := by
  refine BusRun.Reaches.outcome (((Quiet.refl s).read hs s.pc).andThen fun _ t q => ?_) fun _ h => h
  refine ((t.setPC (t.pc + 1)).enter_performed true (q.noReset hs)).mono fun u h => ?_
  rw [h, State.setPC_trace, (q.ran true).trace]

/-! ## The count -/

theorem Instr.cycleCount_branch {i : Instr} {s : State} {cond : Bool} {off : Byte} (hb : i.branches s.p = some (cond, off)) :
    i.cycleCount s = if cond = true ∧ (s.pc + 2 + sext16 off).hi ≠ (s.pc + 2).hi then 4 else 2 + cond.toNat := by
  obtain ⟨-, -, count⟩ := branches_facts hb
  simp only [Instr.cycleCount, hb, count]
  cases cond <;> simp

section fetched
variable {s u : State} {i : Instr} {op : Byte} (hs : s.Calm) (f : FetchRan (s.setIR op) i u)
  (fetched : Fetched s (s.spypeek s.pc) i.fetchedBytes u)
include hs f fetched

/-- A branch: its fetch, a cycle if it is taken, and another if it leaves the page (R311). -/
theorem branch_performed {cond : Bool} {off : Byte} (hb : i.branches s.p = some (cond, off)) :
    Completes (exec i u) fun t => t.trace.length = s.trace.length + i.cycleCount s := by
  obtain ⟨hp, bytes, -⟩ := Instr.branches_facts hb
  have hb' : i.branches u.p = some (cond, off) := fetched.same.p ▸ hb
  have pc : u.pc = s.pc + 2 := by rw [fetched.same.pc, bytes]; rfl
  rw [Instr.cycleCount_branch hb, ← pc]
  split_ifs with hc
  · exact (f.branch_across_pages hs.noReset hp hb' hc.1 hc.2).mono fun t r => by rw [r.trace, bytes]; rfl
  · have stays : cond = false ∨ (u.pc + off.signExtend 16).hi = u.pc.hi := by
      rw [not_and_or, not_not] at hc
      exact hc.imp_left eq_false_of_ne_true
    exact (f.branch_in_page hs.noReset hp hb' stays).mono fun t r => by rw [r.trace, bytes]; rfl

/-- Once fetched, an instruction performs the rest of its cycles: by the kinds of `Instr.poll_kinds`. -/
theorem exec_performed (wf : WellFormed i) :
    Completes (exec i u) fun t => t.trace.length = s.trace.length + i.cycleCount s := by
  obtain rfl | ⟨k, rfl⟩ | hi | hp := i.poll_kinds
  · have q := f.quiet rfl
    exact (brk_performed u (q.noReset hs.noReset)).mono fun t h => by rw [h, (q.ran true).trace]; rfl
  · have count : (Instr.jam k).cycleCount s = 1 := by fin_cases k <;> rfl
    exact ⟨_, rfl, count.symm ▸ ((f.quiet rfl).ran true).trace⟩
  · rw [fetched.cycleCount hs wf (Instr.branches_of_pollsAfterFetch hi _)]
    refine (f.pollsAfterFetch hs.noReset hi).mono fun t k => ?_
    obtain ⟨n, r, count⟩ := k
    rw [r.trace, count fetched.same.calm]
    rfl
  · cases hb : i.branches s.p with
    | some b => exact branch_performed hs f fetched hb
    | none =>
      have hb' : i.branches u.p = none := fetched.same.p ▸ hb
      rw [fetched.cycleCount hs wf hb, (exec_immediate i u hp hb').1]
      exact (f.immediate hp hb').mono fun t r => r.trace

end fetched

/-- Settles O22: the step fetches the instruction that the bytes decode to, and the rest of its cycles follow. -/
theorem everyInstructionTakesItsCycles : Obligations.EveryInstructionTakesItsCycles := by
  intro s instr rest hs hj hd hdec
  obtain ⟨wf, -⟩ := decodedBytesAreTheEncoding _ _ _ hdec
  have calm : s.startStep.clearDecision.Calm := ⟨hs.noReset, hs.settled, hs.flat⟩
  obtain ⟨op, b1, b2, u, hf, hstep, f⟩ := step_fetches hs.noReset hj hd
  obtain ⟨i, u', hf', hi, fetched⟩ := s.startStep.clearDecision.fetch_calm calm
  obtain ⟨rfl, rfl⟩ := BusRun.done.inj (hf.symm.trans hf')
  obtain rfl : instr = Opcode.instr op b1 b2 := (decode_three hdec).trans hi.symm
  rw [hstep]
  exact (exec_performed calm f fetched wf).mono fun t h => h.trans (Nat.zero_add _)

end Sys2Proof.Machine
end

section
/-! PROOFS. Single bus cycles that a RESET may meet: what a cycle that is performed and one that is abandoned give (R40, R317,
R380). -/

namespace Sys2Proof.Machine

/-! ## Any levels of the lines -/

/-- A read cycle starts when RDY lets it, or a RESET comes before. -/
theorem Signals.startReadFrom_eq (g : Signals) (ins : List Lines) :
    g.startReadFrom ins = .ok (g.readyFrom ins) ∨ ∃ h, g.startReadFrom ins = .error h := by
  induction ins generalizing g with
  | nil => exact .inl rfl
  | cons l rest ih =>
    unfold startReadFrom readyFrom
    split_ifs
    · exact .inr ⟨_, rfl⟩
    · exact .inl rfl
    · exact ih _

theorem State.busRead_cases (s : State) (a : Word) (poll : Bool) :
    s.busRead a poll = .done ((s.atRead poll).spypeek a) (s.afterRead a poll) ∨
      ∃ g, s.busRead a poll = .reset (s.setSig g) := by
  unfold busRead Signals.startRead
  obtain h | ⟨g, h⟩ := s.sig.startReadFrom_eq s.sig.inputs <;> rw [h]
  · exact .inl rfl
  · exact .inr ⟨g, rfl⟩

theorem State.resetAccept_cases (s : State) :
    s.resetAccept = .done ((s.atRead false).spypeek s.pc) (s.afterRead s.pc false) ∨
      ∃ g, s.resetAccept = .reset (s.setSig g) := by
  have accept : s.sig.acceptReset = .ok s.sig.ready ∨ ∃ g, s.sig.acceptReset = .error g := by
    unfold Signals.acceptReset Signals.ready
    cases s.sig.inputs with
    | nil => exact .inl rfl
    | cons l rest =>
      dsimp only [Signals.readyFrom]
      split_ifs
      · exact .inl rfl
      · exact Signals.startReadFrom_eq _ _
  unfold resetAccept
  obtain h | ⟨g, h⟩ := accept <;> rw [h]
  · exact .inl rfl
  · exact .inr ⟨g, rfl⟩

/-! ## The levels of the next cycle -/

section next
variable {s : State} {l : Lines} {rest : List Lines} (hi : s.sig.inputs = l :: rest)
include hi

/-- With RDY at 1 and no RESET in the next cycle, a read is performed in it (R40). -/
theorem State.busRead_performed (hl : l.reset = false) (hr : l.rdy = true) (a : Word) (poll : Bool) :
    s.busRead a poll = .done (s.spypeek a) (s.afterRead a poll) ∧ (s.afterRead a poll).sig.inputs = rest := by
  have ready : s.sig.ready = s.sig.begin l rest := by simp [Signals.ready, Signals.readyFrom, hi, hr]
  have start : s.sig.startRead = .ok s.sig.ready := by simp [ready, Signals.startRead, Signals.startReadFrom, hi, hl, hr]
  have byte : (s.atRead poll).spypeek a = s.spypeek a := by rw [s.atRead_spypeek, ready]; rfl
  constructor
  · rw [← byte, busRead, start]
    rfl
  · cases poll <;> simp [afterRead, atRead, ready]

/-- With no RESET in the next cycle, a write is performed in it (R40). -/
theorem State.busWrite_performed (hl : l.reset = false) (a : Word) (v : Byte) (poll : Bool) :
    s.busWrite a v poll = .done () (s.afterWrite a v poll) ∧ (s.afterWrite a v poll).sig.inputs = rest := by
  have next : s.sig.beginNext = s.sig.begin l rest := by simp [Signals.beginNext, hi]
  constructor
  · rw [busWrite, Signals.startWrite_begin hi hl, ← next]
    rfl
  · cases poll <;> simp [afterWrite, atWrite, next]

/-- A read in whose cycle a RESET comes is not performed (R380). -/
theorem State.busRead_abandoned (hl : l.reset = true) (a : Word) (poll : Bool) : s.busRead a poll = .reset s := by
  have same : { s.sig with inputs := l :: rest } = s.sig := by rw [← hi]
  have start : s.sig.startRead = .error s.sig := by simp [Signals.startRead, Signals.startReadFrom, hi, hl, same]
  rw [busRead, start]
  rfl

/-- A write in whose cycle a RESET comes is not performed (R380). -/
theorem State.busWrite_abandoned (hl : l.reset = true) (a : Word) (v : Byte) (poll : Bool) : s.busWrite a v poll = .reset s := by
  have start : s.sig.startWrite = .error s.sig := by simp [Signals.startWrite, Signals.resetNext, hi, hl]
  rw [busWrite, start]
  rfl

end next

/-- The same for a read that RDY has held until then (R317). -/
theorem Signals.startReadFrom_held (g : Signals) (held : List Lines) (l : Lines) (rest : List Lines)
    (hh : ∀ m ∈ held, m.reset = false ∧ m.rdy = false) (hl : l.reset = true) :
    ∃ h, g.startReadFrom (held ++ l :: rest) = .error h ∧ h.clock = g.clock + held.length ∧ h.inputs = l :: rest := by
  induction held generalizing g with
  | nil => exact ⟨{ g with inputs := l :: rest }, by simp [startReadFrom, hl], rfl, rfl⟩
  | cons m held ih =>
    obtain ⟨hm, held'⟩ := List.forall_mem_cons.1 hh
    obtain ⟨h, start, clock, inputs⟩ := ih (g.held m (held ++ l :: rest)) held'
    refine ⟨h, by simp [startReadFrom, hm, start], ?_, inputs⟩
    rw [clock, Signals.held, finish_clock, begin_clock, List.length_cons]
    omega

end Sys2Proof.Machine
end

section
/-! PROOFS. The reset sequence from every state, with any levels of the lines (R314, R334, R381): what its cycles keep, what a
restart keeps, and how many cycles it has. -/

namespace Sys2Proof.Machine

/-- `P` holds where the run ends, `Q` where a RESET abandons it: sequencing, with a condition for each part. -/
theorem BusRun.Ends.bind {α β : Type} {P P' Q : State → Prop} {r : BusRun α} {f : α → State → BusRun β} (hr : r.Ends P Q)
    (hf : ∀ v t, P t → (f v t).Ends P' Q) : (r.andThen f).Ends P' Q := by
  cases r with
  | done v t => exact hf v t hr
  | reset t => exact hr

/-- The induction over the restarts: `P` holds at the start and at every restart, so `Q` holds at the end. -/
theorem State.resetSequence_induction {P Q : State → Prop}
    (step : ∀ s, P s → s.resetCycles.Ends (fun t => Q t.resetEnd) P) (s : State) (h : P s) : Q s.resetSequence := by
  generalize hn : s.sig.inputs.length = n
  induction n using Nat.strong_induction_on generalizing s with
  | _ n ih =>
    have ends := step s h
    have leaves := s.resetCycles_leaves
    rw [s.resetSequence_eq]
    cases hc : s.resetCycles with
    | done v t => rw [hc] at ends; exact ends
    | reset t =>
      rw [hc] at ends leaves
      obtain ⟨left, fewer⟩ := leaves
      exact ih _ (by omega) t ends rfl

/-! ## What the sequence keeps -/

/-- What every cycle of a reset sequence that started in `s` keeps, and every restart. -/
structure ResetKept (s t : State) : Prop where
  a       : t.a = s.a
  x       : t.x = s.x
  y       : t.y = s.y
  flags   : { t.p with i := true } = { s.p with i := true }
  mem     : t.mem = s.mem
  params  : t.params = s.params
  windows : t.platform.windows = s.platform.windows
  reads   : (∀ c ∈ s.trace, c.write = false) → ∀ c ∈ t.trace, c.write = false

/-- Such a state once `State.resetClear` has cleared what a reset clears first. -/
structure ResetCleared (s t : State) : Prop extends ResetKept s t where
  port        : t.port = s.resetClear.port
  jam         : t.jam = false
  ir          : t.ir = 0x00
  irqPending  : t.sig.irqPending = false
  intDecision : t.sig.intDecision = false

/-- The end of the sequence (R381). -/
structure ResetDone (s t : State) : Prop extends ResetCleared s t where
  p       : t.p = { s.p with i := true }
  nmiPrev : t.sig.nmiPrev = t.sig.lines.nmi
  pc      : s.resetClear.responder 0xFFFC ≠ some .device → s.resetClear.responder 0xFFFD ≠ some .device →
    t.pc = s.resetClear.wordAt 0xFFFC

theorem ResetKept.refl (s : State) : ResetKept s s := ⟨rfl, rfl, rfl, rfl, rfl, rfl, rfl, id⟩

theorem ResetKept.clear {s t : State} (h : ResetKept s t) : ResetCleared s t.resetClear :=
  { h with port := rfl, jam := rfl, ir := rfl, irqPending := rfl, intDecision := rfl }

section cycles
variable {s t : State}

/-- A read cycle is recorded as a read. -/
theorem State.afterRead_reads (t : State) (a : Word) (h : ∀ c ∈ t.trace, c.write = false) :
    ∀ c ∈ (t.afterRead a false).trace, c.write = false := by
  simp only [afterRead, endCycle_trace, List.forall_mem_append, List.forall_mem_singleton, and_true]
  exact h

theorem ResetKept.afterRead (h : ResetKept s t) (a : Word) : ResetKept s (t.afterRead a false) :=
  ⟨h.a, h.x, h.y, h.flags, h.mem, h.params, (t.platformAfterRead_windows a).trans h.windows,
    fun hr => t.afterRead_reads a (h.reads hr)⟩

theorem ResetCleared.atRead (h : ResetCleared s t) : ResetCleared s (t.atRead false) :=
  { h with
    irqPending := (t.sig.readyFrom_irqPending _).trans h.irqPending
    intDecision := t.sig.ready_intDecision.trans h.intDecision }

theorem ResetCleared.afterRead (h : ResetCleared s t) (a : Word) : ResetCleared s (t.afterRead a false) :=
  { h.toResetKept.afterRead a, h.atRead with port := h.port }

theorem ResetCleared.read (h : ResetCleared s t) (a : Word) : (t.busRead a).Ends (ResetCleared s) (ResetKept s) := by
  obtain e | ⟨g, e⟩ := t.busRead_cases a false <;> rw [e]
  · exact h.afterRead a
  · exact { h.toResetKept with }

theorem ResetCleared.accept (h : ResetCleared s t) : t.resetAccept.Ends (ResetCleared s) (ResetKept s) := by
  obtain e | ⟨g, e⟩ := t.resetAccept_cases <;> rw [e]
  · exact h.afterRead t.pc
  · exact { h.toResetKept with }

theorem ResetCleared.push (h : ResetCleared s t) : t.resetPush.Ends (ResetCleared s) (ResetKept s) :=
  (h.read _).bind fun _ _ k => { k with }

/-- Where no device answers, a byte is that of the cleared port's map throughout the sequence. -/
theorem ResetCleared.spypeek (h : ResetCleared s t) {a : Word} (h0 : a ≠ 0x0000) (h1 : a ≠ 0x0001)
    (hd : s.resetClear.responder a ≠ some .device) : t.spypeek a = s.resetClear.spypeek a := by
  have same : t.responder a = s.resetClear.responder a := State.responder_congr (s := s.resetClear) h.windows h.port h.params a
  cases hr : s.resetClear.responder a with
  | none => rw [(State.ram_answers h0 h1 hr).1, (State.ram_answers h0 h1 (same.trans hr)).1, h.mem]; rfl
  | some r =>
    cases r with
    | rom bytes => rw [(State.rom_answers h0 h1 hr).1, (State.rom_answers h0 h1 (same.trans hr)).1]
    | device => exact absurd hr hd

/-- The last cycle of the sequence, a read of the high byte of the vector. -/
theorem ResetCleared.loadHigh (h : ResetCleared s t) (p : t.p = { s.p with i := true })
    (low : s.resetClear.responder 0xFFFC ≠ some .device → t.pc.lo = s.resetClear.spypeek 0xFFFC) :
    ((t.busRead (vectorReset + 1)).andThen fun hi u => .done () (u.setPC (Word.ofBytes hi u.pc.lo))).Ends
      (ResetDone s) (ResetKept s) := by
  obtain e | ⟨g, e⟩ := t.busRead_cases (vectorReset + 1) false <;> rw [e]
  · refine { h.afterRead (vectorReset + 1) with p := p, nmiPrev := rfl, pc := fun d0 d1 => ?_ }
    have high : (t.atRead false).spypeek (vectorReset + 1) = s.resetClear.spypeek 0xFFFD :=
      h.atRead.spypeek (by decide) (by decide) d1
    rw [State.setPC_pc, State.afterRead_pc, low d0, high]
    rfl
  · exact { h.toResetKept with }

/-- The last two cycles: `I`, and the word at the vector (R333, R381). -/
theorem ResetCleared.loadVector (h : ResetCleared s t) : (t.loadVector vectorReset).Ends (ResetDone s) (ResetKept s) := by
  unfold State.loadVector
  obtain e | ⟨g, e⟩ := t.busRead_cases vectorReset false <;> rw [e]
  · exact ResetCleared.loadHigh { h.afterRead vectorReset with } h.flags fun d0 =>
      (Word.lo_ofBytes _ _).trans (h.atRead.spypeek (by decide) (by decide) d0)
  · exact { h.toResetKept with }

theorem ResetKept.cycles (h : ResetKept s t) : t.resetCycles.Ends (ResetDone s) (ResetKept s) :=
  h.clear.accept.bind fun _ _ k => (k.read _).bind fun _ _ k => k.push.bind fun _ _ k => k.push.bind fun _ _ k =>
    k.push.bind fun _ _ k => k.loadVector

/-- What the sequence leaves, wherever it starts and whatever RESETs restart it. -/
theorem ResetKept.resetSequence (h : ResetKept s t) : ResetDone s t.resetSequence := by
  refine State.resetSequence_induction (P := ResetKept s) (fun u k => ?_) t h
  have ends := k.cycles
  cases hc : u.resetCycles <;> rw [hc] at ends
  · exact { ends with }
  · exact ends

end cycles

theorem State.resetSequence_end (s : State) : s.resetSequence.t = 0 ∧ s.resetSequence.sig.nmiPending = false :=
  State.resetSequence_induction (P := fun _ => True) (Q := fun t => t.t = 0 ∧ t.sig.nmiPending = false)
    (fun u _ => by cases u.resetCycles <;> simp [BusRun.Ends, resetEnd, clearNmi]) s trivial

/-! ## `SP` and the number of cycles -/

/-- No RESET comes any more, `n` cycles are recorded, and `SP` is `sp`. -/
structure Counted (n : Nat) (sp : Byte) (t : State) : Prop where
  noReset : t.sig.noReset
  trace   : t.trace.length = n
  sp      : t.sp = sp

theorem Counted.afterRead {n : Nat} {sp : Byte} {t : State} (h : Counted n sp t) (a : Word) :
    Counted (n + 1) sp (t.afterRead a false) :=
  ⟨t.afterRead_noReset a false h.noReset, by rw [State.afterRead_trace_length, h.trace], h.sp⟩

theorem Counted.read {n : Nat} {sp : Byte} {t : State} (h : Counted n sp t) (a : Word) :
    (t.busRead a).Reaches (Counted (n + 1) sp) := ⟨_, _, t.busRead_done a false h.noReset, h.afterRead a⟩

theorem Counted.push {n : Nat} {sp : Byte} {t : State} (h : Counted n sp t) :
    t.resetPush.Reaches (Counted (n + 1) (sp - 1)) :=
  (h.read _).andThen fun _ _ k => ⟨_, _, rfl, k.noReset, k.trace, by rw [State.setSP_sp, k.sp]⟩

theorem Counted.loadVector {n : Nat} {sp : Byte} {t : State} (h : Counted n sp t) (vec : Word) :
    (t.loadVector vec).Reaches (Counted (n + 2) sp) :=
  (h.read _).andThen fun lo u k =>
    (Counted.read (t := (u.setPC (Word.ofBytes u.pc.hi lo)).setP { u.p with i := true }) { k with } _).andThen
      fun _ _ k' => ⟨_, _, rfl, { k' with }⟩

section counts
variable {s : State} {l : Lines} {rest : List Lines} (hi : s.sig.inputs = l :: rest)
include hi

/-- The first cycle, whatever RESET is in it. -/
theorem State.resetAccept_performed (hr : ∀ m ∈ rest, m.reset = false) :
    s.resetAccept.Reaches (Counted (s.trace.length + 1) s.sp) := by
  have start : s.sig.acceptReset = .ok s.sig.ready ∧ s.sig.ready.inputs.Sublist rest := by
    unfold Signals.acceptReset Signals.ready
    rw [hi]
    dsimp only [Signals.readyFrom]
    split_ifs
    · exact ⟨rfl, .refl rest⟩
    · exact ⟨Signals.startReadFrom_ok _ _ hr, Signals.readyFrom_inputs _ _⟩
  obtain ⟨accept, later⟩ := start
  unfold resetAccept
  rw [accept]
  exact ⟨_, s.afterRead s.pc false, rfl, fun m hm => hr m (later.subset hm), s.afterRead_trace_length _ _, rfl⟩

theorem State.resetCycles_performed (hr : ∀ m ∈ rest, m.reset = false) :
    s.resetCycles.Reaches (Counted (s.trace.length + 7) (s.sp - 3)) := by
  refine (resetAccept_performed (s := s.resetClear) hi hr).andThen fun _ _ k => (k.read _).andThen fun _ _ k =>
    k.push.andThen fun _ _ k => k.push.andThen fun _ _ k => k.push.andThen fun _ _ k => (k.loadVector _).mono fun _ k => ?_
  rw [BitVec.sub_sub, BitVec.sub_sub] at k
  exact k

/-- With no further RESET: seven cycles, and `SP` three lower (R314). -/
theorem State.resetSequence_counts (hr : ∀ m ∈ rest, m.reset = false) :
    s.resetSequence.trace.length = s.trace.length + 7 ∧ s.resetSequence.sp = s.sp - 3 := by
  obtain ⟨_, t, ht, k⟩ := resetCycles_performed hi hr
  rw [s.resetSequence_eq, ht]
  exact ⟨k.trace, k.sp⟩

end counts

section again
variable {s : State} {l l' : Lines} {rest : List Lines} (hi : s.sig.inputs = l :: l' :: rest) (hl : l'.reset = true)
include hi hl

/-- With a RESET in the cycle after the first, the first is performed in its own cycle, or RDY holds it and it never is. -/
theorem State.resetAccept_before_reset :
    (∃ v t, s.resetAccept = .done v t ∧ t.sp = s.sp ∧ t.sig.inputs = l' :: rest) ∨
    ∃ t, s.resetAccept = .reset t ∧ t.sp = s.sp ∧ t.sig.inputs = l' :: rest := by
  unfold resetAccept Signals.acceptReset
  rw [hi]
  dsimp only
  cases l.rdy with
  | true => exact .inl ⟨_, _, rfl, rfl, rfl⟩
  | false =>
    simp only [Signals.startReadFrom, hl, Bool.false_eq_true, if_false, if_true]
    exact .inr ⟨_, rfl, rfl, rfl⟩

/-- Such a RESET starts the sequence again. -/
theorem State.resetCycles_again : ∃ t, s.resetCycles = .reset t ∧ t.sp = s.sp ∧ t.sig.inputs = l' :: rest := by
  obtain ⟨v, t, ht, sp, inputs⟩ | ⟨t, ht, kept⟩ := State.resetAccept_before_reset (s := s.resetClear) hi hl
  · refine ⟨t, ?_, sp, inputs⟩
    simp only [resetCycles, ht, BusRun.andThen_done, t.busRead_abandoned inputs hl, BusRun.andThen_reset]
  · exact ⟨t, by simp only [resetCycles, ht, BusRun.andThen_reset], kept⟩

end again

/-- A RESET that is held, at least through the next cycle, with none after it (R43, R380); `SP` is `sp`. -/
structure HeldReset (sp : Byte) (front back : List Lines) (t : State) : Prop where
  sp     : t.sp = sp
  inputs : t.sig.inputs = front ++ back
  held   : front ≠ [] ∧ ∀ m ∈ front, m.reset = true
  after  : ∀ m ∈ back, m.reset = false

theorem HeldReset.resetSequence_sp {s : State} {sp : Byte} {front back : List Lines} (h : HeldReset sp front back s) :
    s.resetSequence.sp = sp - 3 := by
  refine State.resetSequence_induction (P := fun t => ∃ front, HeldReset sp front back t) (Q := fun t => t.sp = sp - 3)
    (fun u k => ?_) s ⟨front, h⟩
  obtain ⟨front, hsp, inputs, ⟨hne, held⟩, after⟩ := k
  match front, hne with
  | [_], _ =>
    obtain ⟨_, t, ht, k⟩ := State.resetCycles_performed inputs after
    rw [ht]
    exact hsp ▸ k.sp
  | _ :: l :: front, _ =>
    obtain ⟨t, ht, sp', inputs'⟩ := State.resetCycles_again inputs (held l (by simp))
    rw [ht]
    exact ⟨l :: front, sp'.trans hsp, inputs', ⟨List.cons_ne_nil _ _, (List.forall_mem_cons.1 held).2⟩, after⟩

/-- A step in whose first cycle a RESET comes is the reset sequence (R334, R346). -/
theorem step_reset {s : State} (h : s.sig.resetNext = true) : step s = .next s.startStep.resetSequence := by
  simp only [step, State.startStep_sig, h, if_true]

/-- Settles O13: the end by `ResetKept.resetSequence`, `SP` and the number of cycles by the counts. -/
theorem resetSequenceEndState : Obligations.ResetSequenceEndState := by
  intro s l rest hi hl
  refine ⟨_, step_reset (by simp [Signals.resetNext, hi, hl]), ?_⟩
  have d := (ResetKept.refl s.startStep).resetSequence
  obtain ⟨t0, pending⟩ := s.startStep.resetSequence_end
  refine ⟨d.pc, fun front back inputs hne held after => HeldReset.resetSequence_sp ⟨rfl, inputs, ⟨hne, held⟩, after⟩,
    fun after => (State.resetSequence_counts (s := s.startStep) hi after).1, d.a, d.x, d.y, d.p, d.mem, ?_, ?_, ?_, ?_, ?_,
    d.jam, d.ir, t0, d.params, d.windows, pending, d.nmiPrev, d.irqPending, d.intDecision, d.reads (List.forall_mem_nil _)⟩
  all_goals rw [d.port]; rfl

end Sys2Proof.Machine
end

section
/-! PROOFS. A RESET in a cycle of an instruction or interrupt sequence (R380): what was performed stays, and the reset sequence
runs from there. -/

namespace Sys2Proof.Machine

/-! ## In the second cycle -/

section second
variable {s : State} {l : Lines} {rest : List Lines} (hi : s.sig.inputs = l :: rest) (hl : l.reset = true)
include hi hl

/-- Every instruction of one byte but JAM goes on with a read. -/
theorem exec_abandoned {i : Instr} (h1 : i.length = 1) (hj : ∀ k, i ≠ .jam k) : exec i s = .next s.resetSequence := by
  have read (a : Word) (poll : Bool) {f : Byte → State → BusRun Unit} :
      ((s.busRead a poll).andThen f).outcome = .next s.resetSequence := by rw [s.busRead_abandoned hi hl]; rfl
  cases i with
  | lda o | ldx o | ldy o | adc o | sbc o | and o | ora o | eor o | cmp o | cpx o | cpy o =>
    cases o with
    | imm b => cases h1
    | mem m => cases m <;> cases h1
  | sta m | stx m | sty m | bit m | inc m | dec m | slo m | rla m | sre m | rra m | dcp m | isc m | sax m | lax m | nopRead _ m
    | sha m => cases m <;> cases h1
  | asl o | lsr o | rol o | ror o =>
    cases o with
    | acc => exact read _ _
    | mem m => cases m <;> cases h1
  | jam k => exact absurd rfl (hj k)
  | tax | tay | txa | tya | tsx | txs | pha | php | pla | plp | inx | iny | dex | dey | rts | rti | brk | clc | sec | cli | sei
    | clv | cld | sed | nop k => exact read _ _
  | _ => cases h1

end second

section step
variable {s : State} {l0 l1 : Lines} {rest : List Lines} (hi : s.sig.inputs = l0 :: l1 :: rest) (h0 : l0.reset = false)
  (hr : l0.rdy = true) (h1 : l1.reset = true)
include hi h0 hr h1

/-- Of an interrupt sequence one dummy read is performed (R313). -/
theorem State.takeInterrupt_abandoned : s.takeInterrupt = .reset ((s.afterRead s.pc false).setIR 0x00) := by
  obtain ⟨read, inputs⟩ := s.busRead_performed hi h0 hr s.pc false
  have second := State.busRead_abandoned (s := (s.afterRead s.pc false).setIR 0x00) inputs h1 s.pc false
  simp only [takeInterrupt, read, BusRun.andThen_done, State.setIR_pc, State.afterRead_pc, second, BusRun.andThen_reset]

/-- `s` after its opcode fetch (R291). -/
def State.afterOpcode (s : State) : State := ((s.afterRead s.pc false).setPC (s.pc + 1)).setIR (s.spypeek s.pc)

/-- Of a fetch that of the opcode is performed: the instruction has no further byte, or none is fetched. -/
theorem State.fetch_abandoned :
    (s.fetch = .done (Opcode.instr (s.spypeek s.pc) 0x00 0x00) s.afterOpcode ∧
      (Opcode.instr (s.spypeek s.pc) 0x00 0x00).length = 1) ∨ s.fetch = .reset s.afterOpcode := by
  obtain ⟨read, inputs⟩ := s.busRead_performed hi h0 hr s.pc false
  have opcode : s.fetchByte = .done (s.spypeek s.pc) ((s.afterRead s.pc false).setPC (s.pc + 1)) := by
    rw [fetchByte, read]; rfl
  have byte (poll : Bool) : s.afterOpcode.fetchByte poll = .reset s.afterOpcode := by
    rw [fetchByte, State.busRead_abandoned (s := s.afterOpcode) inputs h1]; rfl
  have after : ((s.afterRead s.pc false).setPC (s.pc + 1)).setIR (s.spypeek s.pc) = s.afterOpcode := rfl
  have uniform := Opcode.entry_uniform (s.spypeek s.pc)
  simp only [fetch, opcode, BusRun.andThen_done, Opcode.instr, after]
  cases he : Opcode.entry (s.spypeek s.pc) with
  | f1 i =>
    rw [he] at uniform
    exact .inl ⟨rfl, uniform.1⟩
  | f2 make => exact .inr (by simp only [byte, BusRun.andThen_reset])
  | f3 make => exact .inr (by simp only [byte, BusRun.andThen_reset])

/-- A step that a RESET meets in its second cycle performs one read, at `PC`, and then the reset sequence. -/
theorem step_abandoned (hj : s.jam = false)
    (hn : s.sig.intDecision = false → ∀ k, Opcode.instr (s.spypeek s.pc) 0x00 0x00 ≠ .jam k) :
    ∃ t, step s = .next t.resetSequence ∧ ResetKept s.startStep t ∧ t.sp = s.sp ∧ t.trace.length = 1 ∧
      t.sig.inputs = l1 :: rest := by
  generalize hc : s.startStep.clearDecision = c
  have hi' : c.sig.inputs = l0 :: l1 :: rest := hc ▸ hi
  have kept : ResetKept s.startStep (c.afterRead c.pc false) :=
    ResetKept.afterRead (hc ▸ { ResetKept.refl s.startStep with }) _
  have sp : (c.afterRead c.pc false).sp = s.sp := by rw [State.afterRead_sp, ← hc]; rfl
  have trace : (c.afterRead c.pc false).trace.length = 1 := by rw [State.afterRead_trace_length, ← hc]; rfl
  obtain ⟨-, inputs⟩ := State.busRead_performed hi' h0 hr c.pc false
  have next : s.sig.resetNext = false := by simp [Signals.resetNext, hi, h0]
  simp only [step, State.startStep_sig, State.startStep_jam, next, hj, hc, Bool.false_eq_true, if_false]
  cases hd : s.sig.intDecision with
  | true =>
    rw [if_pos rfl, State.takeInterrupt_abandoned hi' h0 hr h1]
    exact ⟨_, rfl, { kept with }, sp, trace, inputs⟩
  | false =>
    have byte : c.spypeek c.pc = s.spypeek s.pc := hc ▸ State.spypeek_congr rfl rfl rfl rfl rfl _
    refine ⟨c.afterOpcode, ?_, { kept with }, sp, trace, inputs⟩
    rw [if_neg Bool.false_ne_true]
    obtain ⟨fetch, length⟩ | fetch := State.fetch_abandoned hi' h0 hr h1
    · rw [fetch]
      exact exec_abandoned (s := c.afterOpcode) inputs h1 length (byte ▸ hn hd)
    · rw [fetch]

end step

/-! ## In the cycle of an access -/

/-- A RESET in the cycle of an access, and the cycles in which RDY holds it before (R317). -/
theorem access_abandoned (s : State) (held : List Lines) (l : Lines) (rest : List Lines) (a : Word) (v : Byte) (poll : Bool)
    (hi : s.sig.inputs = held ++ l :: rest) (hh : ∀ m ∈ held, m.reset = false ∧ m.rdy = false) (hl : l.reset = true) :
    ∃ u, u.sig.clock = s.sig.clock + held.length ∧ u.sig.inputs = l :: rest ∧ u.regs = s.regs ∧ u.mem = s.mem ∧
      u.port = s.port ∧ u.platform = s.platform ∧ u.trace = s.trace ∧
      (∀ next : Byte → State → BusRun Unit, ((s.busRead a poll).andThen next).outcome = .next u.resetSequence) ∧
      (held = [] → u = s ∧
        ∀ next : Unit → State → BusRun Unit, ((s.busWrite a v poll).andThen next).outcome = .next u.resetSequence) := by
  cases held with
  | nil =>
    exact ⟨s, rfl, hi, rfl, rfl, rfl, rfl, rfl, fun next => by rw [s.busRead_abandoned hi hl]; rfl,
      fun _ => ⟨rfl, fun next => by rw [s.busWrite_abandoned hi hl]; rfl⟩⟩
  | cons m held =>
    obtain ⟨g, start, clock, inputs⟩ := s.sig.startReadFrom_held (m :: held) l rest hh hl
    refine ⟨s.setSig g, clock, inputs, rfl, rfl, rfl, rfl, rfl, fun next => ?_, nofun⟩
    rw [State.busRead, Signals.startRead, hi, start]
    rfl

/-! ## A JSR between its pushes and after them (R306) -/

/-- What an access sees of a machine with RAM alone behind its bus, `PC` and `SP`, and the cycles that come. -/
structure FlatAt (pc : Word) (sp : Byte) (mem : Memory) (inputs : List Lines) (t : State) : Prop where
  flat   : t.platform.windows = []
  pc     : t.pc = pc
  sp     : t.sp = sp
  mem    : t.mem = mem
  inputs : t.sig.inputs = inputs

section flat
variable {pc : Word} {sp : Byte} {mem : Memory} {l : Lines} {rest : List Lines} {t : State} (h : FlatAt pc sp mem (l :: rest) t)
include h

theorem FlatAt.read (hl : l.reset = false) (hr : l.rdy = true) (a : Word) :
    (t.busRead a).Reaches (FlatAt pc sp mem rest) := by
  obtain ⟨read, inputs⟩ := State.busRead_performed h.inputs hl hr a false
  exact ⟨_, _, read, (t.platformAfterRead_windows a).trans h.flat, h.pc, h.sp, h.mem, inputs⟩

theorem FlatAt.push (hl : l.reset = false) (v : Byte) :
    (t.push v).Reaches (FlatAt pc (sp - 1) (mem.write (stackByte sp).toNat v) rest) := by
  obtain ⟨write, inputs⟩ := State.busWrite_performed h.inputs hl t.stackAddr v false
  rw [State.push, write]
  refine ⟨_, _, rfl, h.flat, h.pc, ?sp, ?mem, inputs⟩
  case sp => rw [State.setSP_sp, State.afterWrite_sp, h.sp]
  case mem =>
    have h0 : stackByte sp ≠ 0x0000 := stackByte_ne_low sp 0 (by omega)
    have h1 : stackByte sp ≠ 0x0001 := stackByte_ne_low sp 1 (by omega)
    rw [State.setSP_mem, State.afterWrite_mem, stackAddr_eq, h.sp, State.pokeMem_flat _ _ _ h.flat,
      if_neg (not_or.mpr ⟨h0, h1⟩), h.mem]

theorem FlatAt.push_abandoned (hl : l.reset = true) (v : Byte) : t.push v = .reset t := by
  rw [State.push, State.busWrite_abandoned h.inputs hl]
  rfl

/-- The reset sequence from there: memory is kept, and the vector is the word that memory holds there. -/
theorem FlatAt.resetSequence {s : State} (hs : s.platform.windows = []) (hm : ∀ n, 512 ≤ n → mem.read n = s.mem.read n) :
    t.resetSequence.mem = mem ∧ t.resetSequence.pc = s.wordAt 0xFFFC ∧
      ((∀ m ∈ rest, m.reset = false) → t.resetSequence.sp = sp - 3) := by
  have d := (ResetKept.refl t).resetSequence
  have ram (a : Word) : t.resetClear.responder a ≠ some .device := by
    rw [t.resetClear.responder_flat a h.flat]
    exact nofun
  have byte (a : Word) (ha : 512 ≤ a.toNat) : t.resetClear.spypeek a = s.spypeek a := by
    have h0 : a ≠ 0x0000 := by rintro rfl; exact absurd ha (by decide)
    have h1 : a ≠ 0x0001 := by rintro rfl; exact absurd ha (by decide)
    rw [(State.ram_answers h0 h1 (t.resetClear.responder_flat a h.flat)).1, (State.ram_answers h0 h1 (s.responder_flat a hs)).1,
      ← hm _ ha, ← h.mem]
    rfl
  refine ⟨d.mem.trans h.mem, ?_, fun after => ?_⟩
  · rw [d.pc (ram _) (ram _), State.wordAt, State.wordAt, byte _ (by decide), byte _ (by decide)]
  · rw [(State.resetSequence_counts h.inputs after).2, h.sp]

end flat

/-- A push leaves what is not on the stack. -/
theorem Memory.read_write_stack (m : Memory) (sp v : Byte) (n : Nat) (hn : 512 ≤ n) :
    (m.write (stackByte sp).toNat v).read n = m.read n := by
  have := sp.isLt
  exact m.read_write_other _ _ v (by rw [stackByte_toNat]; omega)

/-- JSR from the push of the low byte on (R306). -/
def State.jsrFromSecondPush (t : State) : BusRun Unit :=
  (t.push t.pc.lo).andThen fun _ u =>
  (u.busRead u.pc true).andThen fun hi u =>
  let u := u.setAD (Word.ofBytes hi u.latch.ad.lo)
  .done () (u.setPC u.latch.ad)

section jsr
variable {s : State} {w : Word} {l0 l1 l2 l3 : Lines} {rest : List Lines}
  (hi : s.sig.inputs = l0 :: l1 :: l2 :: l3 :: rest) (hl : ∀ m ∈ [l0, l1], m.reset = false ∧ m.rdy = true)
  (hf : s.platform.windows = [])
include hi hl hf

/-- The first two cycles of JSR: the dummy read and the push of the high byte. -/
theorem jsr_first_push : ∃ t, exec (.jsr w) s = t.jsrFromSecondPush.outcome ∧
    FlatAt s.pc (s.sp - 1) (s.mem.write (stackByte s.sp).toNat s.pc.hi) (l2 :: l3 :: rest) t := by
  obtain ⟨⟨r0, y0⟩, ⟨r1, -⟩, -⟩ := by simpa only [List.forall_mem_cons] using hl
  have f0 : FlatAt s.pc s.sp s.mem (l0 :: l1 :: l2 :: l3 :: rest) (s.setAD (Word.ofBytes s.latch.ad.hi w.lo)) :=
    ⟨hf, rfl, rfl, rfl, hi⟩
  obtain ⟨_, t1, h1, f1⟩ := f0.read r0 y0 (s.setAD (Word.ofBytes s.latch.ad.hi w.lo)).stackAddr
  obtain ⟨_, t2, h2, f2⟩ := f1.push r1 t1.pc.hi
  rw [f1.pc] at f2
  exact ⟨t2, by simp only [exec, execJsr, h1, h2, BusRun.andThen_done]; rfl, f2⟩

/-- A RESET in the third cycle: one push is performed. -/
theorem jsr_abandoned_after_one_push (h2 : l2.reset = true) : Completes (exec (.jsr w) s) fun t =>
    t.mem = s.mem.write (stackByte s.sp).toNat s.pc.hi ∧ t.pc = s.wordAt 0xFFFC ∧
    ((∀ m ∈ l3 :: rest, m.reset = false) → t.sp = s.sp - 4) := by
  obtain ⟨t, ht, f⟩ := jsr_first_push (w := w) hi hl hf
  rw [ht, State.jsrFromSecondPush, f.push_abandoned h2]
  obtain ⟨mem, pc, sp⟩ := f.resetSequence hf fun n hn => s.mem.read_write_stack _ _ n hn
  exact ⟨_, rfl, mem, pc, fun after => by rw [sp after, BitVec.sub_sub]; rfl⟩

/-- A RESET in the fourth cycle: both pushes are performed, the read of the third byte is not. -/
theorem jsr_abandoned_after_pushes (h2 : l2.reset = false) (h3 : l3.reset = true) : Completes (exec (.jsr w) s) fun t =>
    t.mem = (s.mem.write (stackByte s.sp).toNat s.pc.hi).write (stackByte (s.sp - 1)).toNat s.pc.lo ∧
    t.pc = s.wordAt 0xFFFC ∧ ((∀ m ∈ rest, m.reset = false) → t.sp = s.sp - 5) := by
  obtain ⟨t, ht, f⟩ := jsr_first_push (w := w) hi hl hf
  obtain ⟨_, u, hu, f'⟩ := f.push h2 t.pc.lo
  rw [f.pc] at f'
  rw [ht, State.jsrFromSecondPush, hu, BusRun.andThen_done, State.busRead_abandoned f'.inputs h3]
  obtain ⟨mem, pc, sp⟩ := f'.resetSequence hf fun n hn => by
    rw [Memory.read_write_stack _ _ _ n hn, Memory.read_write_stack _ _ _ n hn]
  exact ⟨_, rfl, mem, pc, fun after => by rw [sp after, BitVec.sub_sub, BitVec.sub_sub]; rfl⟩

end jsr

/-- Settles O14: the second cycle, the cycle of any access, and JSR between its pushes and after them. -/
theorem resetAbandonsTheInstruction : Obligations.ResetAbandonsTheInstruction := by
  refine ⟨?second, access_abandoned, ?jsr⟩
  case second =>
    intro s l0 l1 rest hi h0 hr h1 hj hn
    obtain ⟨t, ht, kept, sp, trace, inputs⟩ := step_abandoned hi h0 hr h1 hj hn
    have d := kept.resetSequence
    refine ⟨_, ht, d.pc, fun after => ?_, d.a, d.x, d.y, d.p, d.mem, ?_, ?_, d.jam, t.resetSequence_end.1⟩
    · obtain ⟨count, sp'⟩ := State.resetSequence_counts inputs after
      exact ⟨by rw [sp', sp], by rw [count, trace]⟩
    all_goals rw [d.port]; rfl
  case jsr =>
    intro s w l0 l1 l2 l3 rest hi hl hf
    exact ⟨jsr_abandoned_after_one_push hi hl hf, jsr_abandoned_after_pushes hi hl hf⟩

end Sys2Proof.Machine
end
